-- ==== Sys2Proof/Word.lean ====
section
/-! DEFINITION. The widths of 00_scope.md R10 that the whole block shares, and the names of its four channels (R3). -/

namespace Sys2Proof

/-- A byte of SYS, an 8-bit element (20_memory.md R60, R63). -/
abbrev Byte := BitVec 8

/-- A 16-bit element, length or context (u16). -/
abbrev Half := BitVec 16

/-- A register, a command word (u32; 10_state.md R37, 30_encoding.md R80). Also a host bus address and REG_BASE, whose width the
spec does not give: 32 bits is the model's DESIGN CHOICE (log 31). -/
abbrev Word := BitVec 32

/-- The 8-bit index that names a chunk of a channel's pool (00_scope.md glossary, D57). -/
abbrev Handle := BitVec 8

/-- The four fixed channels (00_scope.md R3): audio receive, audio transmit, serial receive, serial transmit. -/
inductive Ch where
  | arx
  | atx
  | srx
  | stx
deriving DecidableEq, Repr, Inhabited

end Sys2Proof
end

