-- ==== Sys2Proof/Syntax.lean ====
section
/-! DEFINITION. The host commands of 30_encoding.md R83, one constructor per row of the opcode map. -/

namespace Sys2Proof

/-- A host command. The operands DST, CAP, SRC, LEN of RX_GET and TX_PUT are not part of the word: they come from the
operand registers latched at issue (30_encoding.md R80, R82). -/
inductive Instr where
  /-- NOP (45_command_port.md R221). -/
  | nop
  /-- BLK_RESET (R222). -/
  | blkReset
  /-- DISP_REG irq, cb, ctx (42_dispatch.md R150). -/
  | dispReg (irq cb : BitVec 4) (ctx : Half)
  /-- DISP_SWTRIG irq (R151). -/
  | dispSwtrig (irq : BitVec 4)
  /-- CH_INIT c, count (43_channel_rx.md R170, 44_channel_tx.md R200). -/
  | chInit (c : Ch) (count : Byte)
  /-- CH_START c (R171, R201). -/
  | chStart (c : Ch)
  /-- RX_GET c (R176). -/
  | rxGet (c : Ch)
  /-- RX_GET_NC c (R177). -/
  | rxGetNc (c : Ch)
  /-- RX_RELEASE c, h (R178). -/
  | rxRelease (c : Ch) (h : Handle)
  /-- TX_PUT c (R203). -/
  | txPut (c : Ch)
deriving DecidableEq, Repr, Inhabited

end Sys2Proof
end

