-- ==== Sys2Proof/Machine/Turn.lean ====
section
/-! DEFINITION. The agents' turns (00_scope.md R8) and the host's actions with its pseudo-operations (45_command_port.md
R226, R227; 30_encoding.md R87, R88). Syntax only: what a turn does is in Machine/HostBus.lean and Machine/Agents.lean. -/

namespace Sys2Proof.Machine

/-- The width of a host bus access to the register window; only `word`, `s_be = 0xF`, is defined (45_command_port.md R228, R230).
That the narrower accesses are of one or two bytes, and no other pattern of `s_be`, is the model's DESIGN CHOICE (log 34). -/
inductive Width where
  | byte
  | half
  | word
deriving DecidableEq, Repr, Inhabited

/-- An assembler line (30_encoding.md R87): a command, with the ARG0 and ARG1 it is issued with. -/
structure Line where
  instr : Instr
  arg0 : Word
  arg1 : Word
deriving DecidableEq, Repr, Inhabited

/-- One action of the host (00_scope.md R8, 70_reset_and_hazards.md R299). -/
inductive HostOp where
  /-- A read of the host bus at a bus address (45_command_port.md R226), of 32 bits: DESIGN CHOICE (log 31). -/
  | readReg (width : Width) (addr : Word)
  /-- A write of the host bus at a bus address (R227, R220). -/
  | writeReg (width : Width) (addr : Word) (v : Word)
  /-- A read of `n` bytes of SYS (20_memory.md R60(d)). The spec gives the host's SYS accesses no width: that one step reads any
  number of bytes at once is the model's DESIGN CHOICE (log 30). -/
  | readSys (addr : Word) (n : Nat)
  /-- A write of bytes of SYS (R60(d)), any number of them in one step: DESIGN CHOICE (log 30). -/
  | writeSys (addr : Word) (bytes : List Byte)
  /-- The pseudo-instruction WAIT: poll STATUS until BUSY = 0 (30_encoding.md R88). -/
  | wait
  /-- The pseudo-instruction RETRY n, cmd; `none` is `inf` (R88). -/
  | retry (times : Option Nat) (line : Line)
  /-- The test of RETRY after the command's WAIT: stop unless STATUS[3:0] is 2, 3 or 4 (R88). -/
  | retryTest (times : Option Nat) (line : Line)
deriving DecidableEq, Repr, Inhabited

/-- Which agent moves (00_scope.md R8). -/
inductive Turn where
  /-- HOST: its next action. -/
  | host
  /-- CMDENG: executes the latched command (45_command_port.md R223). -/
  | cmdeng
  /-- SYNC: `SYNC_W2R(Q_c)` (41_async_fifo.md R126). -/
  | syncQueueW2R (c : Ch)
  /-- SYNC: `SYNC_R2W(Q_c)`. -/
  | syncQueueR2W (c : Ch)
  /-- SYNC: `SYNC_W2R(F_c)`. -/
  | syncFreeW2R (c : Ch)
  /-- DISP: one dispatch (42_dispatch.md R153). -/
  | disp
  /-- FSM_c: Rx retry (43_channel_rx.md R175) or Tx kick (44_channel_tx.md R204). -/
  | fsm (c : Ch)
  /-- PERIPH_c: one transfer completion (46_peripheral.md R241, R242). -/
  | periph (c : Ch)
  /-- EXTIRQ: a pulse on `irq_in[i]` (R243). -/
  | extIrq (i : Nat)
  /-- The assertion of `rst_n` (70_reset_and_hazards.md R281). -/
  | rstN
deriving DecidableEq, Repr, Inhabited

end Sys2Proof.Machine
end

