-- ==== Sys2Proof/Config.lean ====
section
/-! DEFINITION. The parameters of 00_scope.md R6, and the free values: what the spec leaves to a draw or to the interleaving,
as constants without a body, so that no proof can see what they are. -/

namespace Sys2Proof

/-- The per-channel parameters of 00_scope.md R6. -/
structure ChanParams where
  /-- `log2(K_c)`: K_c is a power of two. -/
  logK : Nat
  /-- `NMAX_c`. -/
  nmax : Nat
  /-- `CAP_c`, in bytes. -/
  cap : Nat
  /-- `POOL_BASE_c` (OPEN). -/
  base : Word
  /-- `irq_of_c`. -/
  irq : Nat
deriving DecidableEq, Repr

/-- The parameters of 00_scope.md R6. `ew_c` and `ENDIAN` are fixed there and are no fields. -/
structure Params where
  /-- `ASYNC`: read back in PARAM; the untimed interleaving is the same for both values (D2). -/
  async : Bool
  /-- `SYNC_STAGES`: read back in PARAM; the synchronised copies are arbitrarily late for every value (D3). -/
  syncStages : Nat
  /-- `ADDR_W`. -/
  addrW : Nat
  /-- `M`. -/
  m : Nat
  /-- `REG_BASE` (OPEN, and of no stated width: 32 bits, DESIGN CHOICE, log 31). -/
  regBase : Word
  /-- `SYS_COHERENT` (OPEN, assumed true). -/
  sysCoherent : Bool
  arx : ChanParams
  atx : ChanParams
  srx : ChanParams
  stx : ChanParams
deriving DecidableEq, Repr

/-- FREE VALUE (log 8): the content of SYS byte `a` at power-up, "a draw" (10_state.md R33, 70_reset_and_hazards.md R280). -/
opaque Config.powerUpByte : Nat → Byte

/-- FREE VALUE (log 9): the `k`-th byte the receive peripherals deliver, "an unconstrained choice of the run"
(46_peripheral.md R241, D47). -/
opaque Config.rxByte : Nat → Byte

/-- FREE VALUE (log 13): the byte that a race between a host access and a pending copy leaves at an address (20_memory.md R67), at
a step numbered by State.ticks. -/
opaque Config.racedByte : Nat → Nat → Byte

/-- FREE VALUE (log 4): which agent moves at a step that the schedule does not settle, "any enabled step of any agent may be
taken next" (00_scope.md R8). -/
opaque Config.freeTurn : Nat → Machine.Turn

/-- FREE VALUE (log 5): what the host does at a HOST turn that its pending actions do not settle (70_reset_and_hazards.md
R296: the host may do anything or nothing). -/
opaque Config.freeHostOp : Nat → Machine.HostOp

end Sys2Proof
end

