-- ==== Sys2Proof/Machine/Channel.lean ====
section
/-! DEFINITION. The channel index, direction and element width of 00_scope.md R3 and R6. -/

namespace Sys2Proof

/-- The 2-bit channel index (00_scope.md R3, 30_encoding.md R80). -/
def Ch.bits : Ch → BitVec 2
  | .arx => 0#2
  | .atx => 1#2
  | .srx => 2#2
  | .stx => 3#2

/-- The channel an index names; every 2-bit value names one. -/
def Ch.ofBits (b : BitVec 2) : Ch :=
  if b = 0#2 then .arx else if b = 1#2 then .atx else if b = 2#2 then .srx else .stx

/-- `dir(c) = c[0]`, 1 is transmit (00_scope.md R3). -/
def Ch.isTx (c : Ch) : Bool := c.bits.getLsbD 0

/-- `dir(c) = 0`: a receive channel. -/
def Ch.isRx (c : Ch) : Bool := !c.isTx

/-- The channels in index order. -/
def Ch.all : List Ch := [.arx, .atx, .srx, .stx]

/-- `ew_c`, the element width in bytes: 2 for the audio channels, 1 for the serial ones (00_scope.md R6, D8). -/
def Ch.ew : Ch → Nat
  | .arx | .atx => 2
  | .srx | .stx => 1

end Sys2Proof
end

