-- ==== Sys2Proof/Machine/Geometry.lean ====
section
/-! DEFINITION. What follows from the parameters: the derived parameters and the legality of 00_scope.md R7 and 20_memory.md
R65, the place of a chunk (R62), and the default configuration of R6. -/

namespace Sys2Proof

/-- The parameters of channel `c`. -/
def Params.chan (p : Params) : Ch → ChanParams
  | .arx => p.arx
  | .atx => p.atx
  | .srx => p.srx
  | .stx => p.stx

/-- `K_c`, the queue capacity. -/
def ChanParams.k (p : ChanParams) : Nat := 2 ^ p.logK

/-- `QW_c = log2(K_c) + 1` (00_scope.md R7). -/
def ChanParams.qw (p : ChanParams) : Nat := p.logK + 1

/-- `log2` of the smallest power of two that is at least `n`, for `n` up to 256. -/
def ceilLog (n : Nat) : Nat := ((List.range 9).find? fun l => n ≤ 2 ^ l).getD 8

/-- `P_c`, the free-ring depth: the smallest power of two >= NMAX_c (00_scope.md R7). -/
def ChanParams.p (p : ChanParams) : Nat := 2 ^ ceilLog p.nmax

/-- `PW_c = log2(P_c) + 1` (00_scope.md R7). -/
def ChanParams.pw (p : ChanParams) : Nat := ceilLog p.nmax + 1

/-- The number of bytes of SYS, `2^ADDR_W` (20_memory.md R60). -/
def Params.sysSize (p : Params) : Nat := 2 ^ p.addrW

/-- `chunk_addr(c, h) = POOL_BASE_c + h * CAP_c`, ADDR_W bits (00_scope.md R7, 20_memory.md R62). -/
def chunkAddr (p : Params) (c : Ch) (h : Handle) : Nat :=
  ((p.chan c).base.toNat + h.toNat * (p.chan c).cap) % p.sysSize

/-- The end of channel c's pool region, `POOL_BASE_c + NMAX_c * CAP_c` (00_scope.md R7). -/
def Params.poolEnd (p : Params) (c : Ch) : Nat := (p.chan c).base.toNat + (p.chan c).nmax * (p.chan c).cap

/-- The ranges of one channel's parameters (00_scope.md R6, R7), and the even base of a 16-bit channel (20_memory.md R65(c)). -/
abbrev Params.LegalChan (p : Params) (c : Ch) : Prop :=
  (p.chan c).logK ≤ 8 ∧ 1 ≤ (p.chan c).nmax ∧ (p.chan c).nmax ≤ 255 ∧
  1 ≤ (p.chan c).cap ∧ (p.chan c).cap ≤ 32768 ∧ (p.chan c).cap % c.ew = 0 ∧
  (p.chan c).irq < p.m ∧ p.poolEnd c ≤ p.sysSize ∧ (p.chan c).base.toNat % c.ew = 0

/-- A legal configuration (00_scope.md R7). -/
abbrev Params.Legal (p : Params) : Prop :=
  2 ≤ p.syncStages ∧ 16 ≤ p.addrW ∧ p.addrW ≤ 32 ∧ 4 ≤ p.m ∧ p.m ≤ 16 ∧ p.regBase.toNat % 256 = 0 ∧
  p.sysCoherent = true ∧
  (∀ c ∈ Ch.all, p.LegalChan c) ∧
  (∀ c ∈ Ch.all, ∀ d ∈ Ch.all, c ≠ d → (p.chan c).irq ≠ (p.chan d).irq) ∧
  ∀ c ∈ Ch.all, ∀ d ∈ Ch.all, c ≠ d → p.poolEnd c ≤ (p.chan d).base.toNat ∨ p.poolEnd d ≤ (p.chan c).base.toNat

/-- The bus address of the register at a window offset (10_state.md R37). -/
def Params.regAddr (p : Params) (off : Nat) : Word := p.regBase + BitVec.ofNat 32 off

/-- The defaults of 00_scope.md R6. The OPEN bases are those the programs of 95_test_vectors.md fix; REG_BASE has no value
anywhere in the spec. DESIGN CHOICE (log 2). -/
def defaultParams : Params :=
  { async := true, syncStages := 2, addrW := 32, m := 16, regBase := 0x40000000#32, sysCoherent := true,
    arx := { logK := 2, nmax := 8, cap := 256, base := 0x00010000#32, irq := 0 },
    atx := { logK := 2, nmax := 8, cap := 256, base := 0x00011000#32, irq := 1 },
    srx := { logK := 2, nmax := 8, cap := 64, base := 0x00020000#32, irq := 2 },
    stx := { logK := 2, nmax := 8, cap := 64, base := 0x00030000#32, irq := 3 } }

end Sys2Proof
end

