-- ==== Sys2Proof/Machine/Memory.lean ====
section
/-! DEFINITION. SYS (20_memory.md R60): the bytes written so far, in one canonical form, and the accesses made of them. -/

namespace Sys2Proof.Machine

/-- The bytes of SYS that something wrote, by rising address. An unlisted address holds no written byte. -/
abbrev Memory := List Host.Cell

/-- The canonical form: addresses strictly rising. (An unlisted address stores no byte at all, so no entry can equal what one
stores; log 8.) -/
abbrev Memory.wf (m : Memory) : Prop := m.Pairwise fun x y => x.1 < y.1

/-- The byte written at `a`, if any was. -/
def Memory.stored (m : Memory) (a : Nat) : Option Byte :=
  match m with
  | [] => none
  | (x, b) :: rest => if x = a then some b else Memory.stored rest a

/-- The byte at `a`: the one written, else the power-up draw (10_state.md R33). -/
def Memory.read (m : Memory) (a : Nat) : Byte := (m.stored a).getD (Config.powerUpByte a)

/-- Writes one byte, keeping the canonical form. -/
def Memory.write (m : Memory) (a : Nat) (b : Byte) : Memory :=
  match m with
  | [] => [(a, b)]
  | (x, y) :: rest =>
    if a < x then (a, b) :: (x, y) :: rest
    else if a = x then (a, b) :: rest
    else (x, y) :: Memory.write rest a b

/-- `MemRead(a, n)`: the bytes at a .. a+n-1 (00_scope.md R11). -/
def Memory.readRun (m : Memory) (a : Nat) : Nat → List Byte
  | 0 => []
  | n + 1 => m.read a :: Memory.readRun m (a + 1) n

/-- `MemWrite(a, n, bytes)` (00_scope.md R11). -/
def Memory.writeRun (m : Memory) (a : Nat) : List Byte → Memory
  | [] => m
  | b :: rest => Memory.writeRun (m.write a b) (a + 1) rest

/-- The forward copy of 40_chunk_pool.md R103: byte by byte in ascending order. -/
def Memory.copyUp (m : Memory) (dst src : Nat) : Nat → Memory
  | 0 => m
  | n + 1 => Memory.copyUp (m.write dst (m.read src)) (dst + 1) (src + 1) n

/-- Of the `n` bytes at `a`, each byte `a + k` with `isOpen k` becomes the draw of its address. -/
def Memory.blur (m : Memory) (a : Nat) (isOpen : Nat → Bool) (draw : Nat → Byte) : Nat → Memory
  | 0 => m
  | n + 1 =>
    if isOpen n then (Memory.blur m a isOpen draw n).write (a + n) (draw (a + n)) else Memory.blur m a isOpen draw n

/-- `view_read` (40_chunk_pool.md R101) of element `i` of the chunk at `a`: little-endian 16-bit elements when the element
width is 2, bytes when it is 1 (20_memory.md R63). -/
def Memory.viewRead (m : Memory) (ew a i : Nat) : Half :=
  if ew = 1 then (m.read (a + i)).setWidth 16
  else m.read (a + 2 * i + 1) ++ m.read (a + 2 * i)

/-- `view_write` (40_chunk_pool.md R101). -/
def Memory.viewWrite (m : Memory) (ew a i : Nat) (v : Half) : Memory :=
  if ew = 1 then m.write (a + i) (v.extractLsb' 0 8)
  else (m.write (a + 2 * i) (v.extractLsb' 0 8)).write (a + 2 * i + 1) (v.extractLsb' 8 8)

end Sys2Proof.Machine
end

