-- ==== Sys2Proof/Machine/State.lean ====
section
/-! DEFINITION. The state of 10_state.md, field by field, the outcomes' reasons (60_exceptions.md R253), and the state right
after reset (70_reset_and_hazards.md R280). Plain data throughout. -/

namespace Sys2Proof.Machine

/-- The model's faults (60_exceptions.md R253). A fault ends the run, so it is sticky (log 10). -/
inductive Fault where
  /-- F1: raised by HOST: a register access that is not an aligned 32-bit word (45_command_port.md R228). Safe: the hardware
  ignores it or reads 0. -/
  | registerAccess
  /-- F2: raised by HOST, RX_GET and TX_PUT: an access to SYS bytes that are not host-owned (60_exceptions.md R254). Safe: the
  hardware goes on with some value. -/
  | sysNotHostOwned
  /-- F4: raised by DISP_SWTRIG and EXTIRQ: the id of a transmit channel whose peripheral is armed (70_reset_and_hazards.md
  R292). Safe: the hardware goes on. -/
  | txCompletionWhileArmed
  /-- Raised by HOST, PERIPH_c, RX_GET and TX_PUT: an access past the top of SYS, where no byte exists (20_memory.md R60,
  log 14). Safe: a legal configuration never reaches it from the block's side. -/
  | sysOutOfRange
deriving DecidableEq, Repr

/-- The steps the model does not have. -/
inductive Refusal where
  /-- Raised by `exec` for a command that has no meaning yet; no arm of this model raises it. Safe. -/
  | notModelled (mnemonic : String)
  /-- F3: raised by PERIPH_c: a completion while disabled or disarmed (46_peripheral.md R245, 60_exceptions.md R253). Safe:
  the spec's own refusal. -/
  | peripheralStep
  /-- Raised by EXTIRQ: a pulse on a line `irq_in[i]` with i >= M, which the block does not have (46_peripheral.md R243). Safe. -/
  | noSuchLine
deriving DecidableEq, Repr

/-- STATUS.CODE (60_exceptions.md R250). -/
inductive Code where
  | ok
  | invalidConfig
  | poolExhausted
  | queueFull
  | queueEmpty
  | alreadyBound
  | lengthError
  | invalidHandle
  | badState
  | illegalCommand
deriving DecidableEq, Repr

/-- `state_c` (10_state.md R23), in the order of its encoding 0 to 3. -/
inductive ChState where
  | uninit
  | idle
  /-- Value 2: ARMED on a receive channel, RUNNING on a transmit channel (log 19). -/
  | active
  /-- Value 3: STARVED, on a receive channel only. -/
  | starved
deriving DecidableEq, Repr

/-- The queue ring of a channel (10_state.md R27): slots, write pointer `Qw`, its producer's copy `Qrs` of the read pointer,
read pointer `Qr`, its consumer's copy `Qws` of the write pointer. Pointers are the binary values (log 17). -/
structure Queue where
  slots : List Handle
  w : Nat
  rs : Nat
  r : Nat
  ws : Nat
deriving DecidableEq, Repr

/-- The free ring of a channel (10_state.md R28): slots, `Fw`, `Fr`, `Fws`. -/
structure FreeRing where
  slots : List Handle
  w : Nat
  r : Nat
  ws : Nat
deriving DecidableEq, Repr

/-- The peripheral programming outputs and the peripheral's `armed` (10_state.md R30). -/
structure Periph where
  cfgAddr : Word
  cfgCount : Half
  cfgStride : BitVec 2
  en : Bool
  armed : Bool
deriving DecidableEq, Repr

/-- One channel (10_state.md §3, and `TxOut_c` of R34). -/
structure Chan where
  st : ChState
  inflight : Option Handle
  n : Byte
  used : List Half
  q : Queue
  f : FreeRing
  held : List Bool
  per : Periph
  txOut : List (List Byte)
deriving DecidableEq, Repr

/-- The four channels (00_scope.md R3). -/
structure Chans where
  arx : Chan
  atx : Chan
  srx : Chan
  stx : Chan
deriving DecidableEq, Repr

/-- A callback-table entry (10_state.md R32). -/
structure Entry where
  bound : Bool
  cb : BitVec 4
  ctx : Half
deriving DecidableEq, Repr

/-- An external-callback invocation (10_state.md R35). -/
structure CbEvent where
  irq : BitVec 4
  cb : BitVec 4
  ctx : Half
deriving DecidableEq, Repr

/-- The whole machine. `cfg` is never written (log 1); `rdata` and `sysRdata` are what the host last read (log 20); `host`,
`schedule`, `ticks`, `drawn` and `raced` are the model's own (log 4, 5, 9, 13). -/
structure State where
  cfg : Params
  /-- ARG0, ARG1: the operand registers (10_state.md R22, R40). -/
  arg0 : Word
  arg1 : Word
  /-- CMD_L, ARG0_L, ARG1_L: what was latched at issue (R22). -/
  cmdL : Word
  arg0L : Word
  arg1L : Word
  /-- BUSY, CODE, OVR: the fields of STATUS (R22, R41). -/
  busy : Bool
  code : Code
  ovr : Bool
  /-- RESULT (R22, R42). -/
  result : Word
  /-- The channels (R23 to R30, R34). -/
  chans : Chans
  /-- `pending[i]`, i < M (R31). -/
  pending : List Bool
  /-- `T[i]`, i < M (R32). -/
  table : List Entry
  /-- SYS (R33). -/
  sys : Memory
  /-- CbOut (R35). -/
  cbOut : List CbEvent
  rdata : Word
  sysRdata : List Byte
  host : List HostOp
  schedule : List Turn
  ticks : Nat
  drawn : Nat
  /-- The ranges (address, length) of SYS the host wrote while the last issued command had BUSY = 1 (20_memory.md R67,
  log 13). -/
  raced : List (Nat × Nat)
deriving DecidableEq, Repr

/-- A channel after reset (70_reset_and_hazards.md R280). -/
def Chan.reset (p : Params) (c : Ch) : Chan :=
  { st := .uninit, inflight := none, n := 0#8, used := List.replicate (p.chan c).nmax 0#16,
    q := { slots := List.replicate (p.chan c).k 0#8, w := 0, rs := 0, r := 0, ws := 0 },
    f := { slots := List.replicate (p.chan c).p 0#8, w := 0, r := 0, ws := 0 },
    held := List.replicate (if c.isRx then (p.chan c).nmax else 0) false,
    per := { cfgAddr := 0#32, cfgCount := 0#16, cfgStride := 0#2, en := false, armed := false },
    txOut := [] }

/-- The machine after power-up in a given configuration (R280); the model's own fields as logs 4, 5, 9, 13 and 20 say. -/
def State.resetWith (p : Params) : State :=
  { cfg := p, arg0 := 0#32, arg1 := 0#32, cmdL := 0#32, arg0L := 0#32, arg1L := 0#32,
    busy := false, code := .ok, ovr := false, result := 0#32,
    chans := { arx := Chan.reset p .arx, atx := Chan.reset p .atx, srx := Chan.reset p .srx, stx := Chan.reset p .stx },
    pending := List.replicate p.m false,
    table := List.replicate p.m { bound := false, cb := 0#4, ctx := 0#16 },
    sys := [], cbOut := [], rdata := 0#32, sysRdata := [], host := [], schedule := [], ticks := 0, drawn := 0, raced := [] }

/-- The machine right after power-up reset, in the default configuration (00_scope.md R6; log 2). -/
def State.reset : State := State.resetWith defaultParams

end Sys2Proof.Machine
end

