-- ==== Sys2Proof/Machine/Flags.lean ====
section
/-! DEFINITION. Every flag the spec computes: ring pointers and views (41_async_fifo.md R120 to R125, R133), the occupancies
(R137), HELD_N (10_state.md R29, R44), and the numeric codes of STATUS and CH_STAT (R23, R250). -/

namespace Sys2Proof.Machine

/-- `a -_W b` for the pointers of a ring of capacity `d`, W = log2(d) + 1 (00_scope.md R10, 41_async_fifo.md R123). -/
def ptrSub (d a b : Nat) : Nat := (a + (2 * d - b % (2 * d))) % (2 * d)

/-- `a +_W 1`. -/
def ptrSucc (d a : Nat) : Nat := (a + 1) % (2 * d)

/-- `gray_W(b) = b ^ (b >> 1)` (41_async_fifo.md R120). -/
def gray {w : Nat} (b : BitVec w) : BitVec w := b ^^^ (b >>> 1)

/-- `bin_W(g)`: each binary bit is the exclusive or of all gray bits at and above it (R121). -/
def bin {w : Nat} (g : BitVec w) : BitVec w := (List.range w).foldl (fun acc i => acc ^^^ (g >>> i)) 0#w

/-- True occupancy `occ(Q) = Qw -_QW Qr` of a queue of capacity `d` (R123). -/
def Queue.occ (d : Nat) (q : Queue) : Nat := ptrSub d q.w q.r

/-- `occ_w`: the producer's view (R124). -/
def Queue.occW (d : Nat) (q : Queue) : Nat := ptrSub d q.w q.rs

/-- `occ_r`: the consumer's view (R125). -/
def Queue.occR (d : Nat) (q : Queue) : Nat := ptrSub d q.ws q.r

/-- `ring_full_w` (R124). -/
def Queue.fullW (d : Nat) (q : Queue) : Bool := q.occW d == d

/-- `ring_empty_r` (R125). -/
def Queue.emptyR (q : Queue) : Bool := q.r == q.ws

/-- The producer-side `is_empty` (R133). -/
def Queue.emptyW (d : Nat) (q : Queue) : Bool := q.occW d == 0

/-- The consumer-side `is_full` (R133). -/
def Queue.fullR (d : Nat) (q : Queue) : Bool := q.occR d == d

/-- True occupancy of the free ring (R123). -/
def FreeRing.occ (d : Nat) (f : FreeRing) : Nat := ptrSub d f.w f.r

/-- The acquiring side's view `Fws -_PW Fr` (40_chunk_pool.md R108). -/
def FreeRing.occR (d : Nat) (f : FreeRing) : Nat := ptrSub d f.ws f.r

/-- `ring_empty_r(F)` (R125): acquire's test (40_chunk_pool.md R105). -/
def FreeRing.emptyR (f : FreeRing) : Bool := f.r == f.ws

/-- `OCC_T`: the occupancy the task side sees, the consumer's view on a receive channel, the producer's on a transmit
channel (10_state.md R45). -/
def occT (p : Params) (c : Ch) (x : Chan) : Nat :=
  if c.isRx then x.q.occR (p.chan c).k else x.q.occW (p.chan c).k

/-- `EMPTY_T`, the source's `is_empty()` on the task side (R45, 41_async_fifo.md R133). -/
def emptyT (p : Params) (c : Ch) (x : Chan) : Bool := occT p c x == 0

/-- `FULL_T`, the source's `is_full()` on the task side (R45, R133). -/
def fullT (p : Params) (c : Ch) (x : Chan) : Bool := occT p c x == (p.chan c).k

/-- `FREE_T`: the acquiring side's view on a transmit channel, 0 on a receive channel (R45). -/
def freeT (p : Params) (c : Ch) (x : Chan) : Nat := if c.isTx then x.f.occR (p.chan c).p else 0

/-- `HELD_N_c`, the number of chunks the host holds (10_state.md R29); 0 on a transmit channel (R44). -/
def heldN (c : Ch) (x : Chan) : Nat := if c.isRx then x.held.count true else 0

/-- The source's transmit flag `running` (10_state.md R23). -/
def Chan.running (x : Chan) : Bool := x.st == .active

/-- The encoding of STATUS.CODE (60_exceptions.md R250). -/
def Code.bits : Code → BitVec 4
  | .ok => 0#4
  | .invalidConfig => 1#4
  | .poolExhausted => 2#4
  | .queueFull => 3#4
  | .queueEmpty => 4#4
  | .alreadyBound => 5#4
  | .lengthError => 6#4
  | .invalidHandle => 7#4
  | .badState => 8#4
  | .illegalCommand => 9#4

/-- The encoding of `state_c` (10_state.md R23). -/
def ChState.bits : ChState → BitVec 2
  | .uninit => 0#2
  | .idle => 1#2
  | .active => 2#2
  | .starved => 3#2

/-- The three transient codes that RETRY repeats on (30_encoding.md R88). -/
def Code.transient : Code → Bool
  | .poolExhausted => true
  | .queueFull => true
  | .queueEmpty => true
  | .ok => false
  | .invalidConfig => false
  | .alreadyBound => false
  | .lengthError => false
  | .invalidHandle => false
  | .badState => false
  | .illegalCommand => false

end Sys2Proof.Machine
end

