-- ==== Sys2Proof/Machine/Operands.lean ====
section
/-! DEFINITION. The operands a command takes from the latched operand registers (30_encoding.md R82). The operands in the
command word itself are the fields of Instr (Decode.lean). -/

namespace Sys2Proof.Machine

/-- `addr = ARG0_L`, as an address (30_encoding.md R82). -/
def State.addrOp (s : State) : Nat := s.arg0L.toNat

/-- `len = ARG1_L[15:0]`; `ARG1_L[31:16]` is ignored (R82). -/
def State.lenOp (s : State) : Half := s.arg1L.extractLsb' 0 16

/-- ARG0_L is a SYS address: `ARG0_L < 2^ADDR_W` (R82). -/
def State.addrInSys (s : State) : Bool := s.addrOp < s.cfg.sysSize

/-- The range of `n` bytes at ARG0_L passes the top of SYS: `ARG0_L + n > 2^ADDR_W` (43_channel_rx.md R176, 44_channel_tx.md
R203). -/
def State.rangePastTop (s : State) (n : Nat) : Bool := s.cfg.sysSize < s.addrOp + n

end Sys2Proof.Machine
end

