-- ==== Sys2Proof/Machine/Ops.lean ====
section
/-! DEFINITION. The operations every rule is built from: reading and writing a piece of state, ending a command
(45_command_port.md R223), the ring operations (41_async_fifo.md R126 to R132), the pool operations (40_chunk_pool.md R102 to
R106), programming a peripheral (46_peripheral.md R240), host ownership (60_exceptions.md R254), entering an interrupt handler
(R259), and the reset action (70_reset_and_hazards.md R280). -/

namespace Sys2Proof.Machine

/-- The outcome of a step (00_scope.md R12). -/
abbrev Res := Host.Outcome State Fault Refusal

/-! ### State access -/

/-- Channel `c` of the state. -/
def State.ch (s : State) : Ch → Chan
  | .arx => s.chans.arx
  | .atx => s.chans.atx
  | .srx => s.chans.srx
  | .stx => s.chans.stx

/-- Writes channel `c`. -/
def State.setCh (s : State) (c : Ch) (x : Chan) : State :=
  match c with
  | .arx => { s with chans := { s.chans with arx := x } }
  | .atx => { s with chans := { s.chans with atx := x } }
  | .srx => { s with chans := { s.chans with srx := x } }
  | .stx => { s with chans := { s.chans with stx := x } }

/-- `pending[i]` (10_state.md R31). -/
def State.isPending (s : State) (i : Nat) : Bool := s.pending.getD i false

/-- Writes `pending[i]`. -/
def State.setPending (s : State) (i : Nat) (b : Bool) : State := { s with pending := s.pending.set i b }

/-- `T[i]` (10_state.md R32). -/
def State.entry (s : State) (i : Nat) : Entry := s.table.getD i { bound := false, cb := 0#4, ctx := 0#16 }

/-- `bind(irq, cb, ctx)` (42_dispatch.md R152), also the write of DISP_REG (R150). -/
def State.bind (s : State) (i : Nat) (cb : BitVec 4) (ctx : Half) : State :=
  { s with table := s.table.set i { bound := true, cb := cb, ctx := ctx } }

/-! ### Ending a command -/

/-- The normal end of a command: CODE = OK and its result (45_command_port.md R223, R224). -/
def complete (result : Word) (s : State) : Res := .next { s with code := .ok, result := result }

/-- `raise X`: CODE = X, RESULT = 0 and no other effect (00_scope.md R11, 45_command_port.md R223). -/
def raise (x : Code) (s : State) : Res := .next { s with code := x, result := 0#32 }

/-! ### Queue (41_async_fifo.md) -/

/-- `Qs[Qw mod K] <- h; Qw <- Qw +_QW 1`: the writes of Q_PUT (R130). -/
def Queue.push (d : Nat) (h : Handle) (q : Queue) : Queue :=
  { q with slots := q.slots.set (q.w % d) h, w := ptrSucc d q.w }

/-- The slot at the read pointer (R131). -/
def Queue.front (d : Nat) (q : Queue) : Handle := q.slots.getD (q.r % d) 0#8

/-- `Qr <- Qr +_QW 1` (R131). -/
def Queue.pop (d : Nat) (q : Queue) : Queue := { q with r := ptrSucc d q.r }

/-- Q_PUT: `none` is QueueFull, with nothing changed (R130). -/
def Queue.put (d : Nat) (h : Handle) (q : Queue) : Option Queue :=
  if q.fullW d then none else some (q.push d h)

/-- Q_GET: `none` is QueueEmpty, with nothing changed (R131). -/
def Queue.get (d : Nat) (q : Queue) : Option (Handle × Queue) :=
  if q.emptyR then none else some (q.front d, q.pop d)

/-- Q_HEAD: the head without removing it (R132). -/
def Queue.head (d : Nat) (q : Queue) : Option Handle :=
  if q.emptyR then none else some (q.front d)

/-- `SYNC_W2R(Q): Qws <- Qw` (R126). -/
def Queue.syncW2R (q : Queue) : Queue := { q with ws := q.w }

/-- `SYNC_R2W(Q): Qrs <- Qr` (R126). -/
def Queue.syncR2W (q : Queue) : Queue := { q with rs := q.r }

/-- `SYNC_W2R(F): Fws <- Fw` (R126). -/
def FreeRing.syncW2R (f : FreeRing) : FreeRing := { f with ws := f.w }

/-! ### Chunk and pool (40_chunk_pool.md) -/

/-- `used_c[h]` (10_state.md R26). -/
def Chan.usedOf (x : Chan) (h : Handle) : Half := x.used.getD h.toNat 0#16

/-- `used_c[h] <- u`; with u = 0 it is CHUNK_RESET (40_chunk_pool.md R102). -/
def Chan.setUsed (x : Chan) (h : Handle) (u : Half) : Chan := { x with used := x.used.set h.toNat u }

/-- ACQUIRE: `none` is PoolExhausted, with nothing changed (R105). -/
def acquire (p : Params) (c : Ch) (x : Chan) : Option (Handle × Chan) :=
  if x.f.emptyR then none
  else
    let h := x.f.slots.getD (x.f.r % (p.chan c).p) 0#8
    some (h, Chan.setUsed { x with f := { x.f with r := ptrSucc (p.chan c).p x.f.r } } h 0#16)

/-- RELEASE: the slot first, then the pointer (R106). -/
def release (p : Params) (c : Ch) (h : Handle) (x : Chan) : Chan :=
  { x with f := { x.f with slots := x.f.slots.set (x.f.w % (p.chan c).p) h, w := ptrSucc (p.chan c).p x.f.w } }

/-- `for j in 0..n-1: Fs[j] <- j` (R104). -/
def fillSlots (n : Nat) (slots : List Handle) : List Handle :=
  (List.range n).foldl (fun l j => l.set j (BitVec.ofNat 8 j)) slots

/-- POOL_INIT (R104), for a count the caller has checked. -/
def poolInit (p : Params) (c : Ch) (n : Byte) (x : Chan) : Chan :=
  { x with
    f := { slots := fillSlots n.toNat x.f.slots, w := n.toNat, r := 0, ws := n.toNat }
    n := n
    used := List.replicate (p.chan c).nmax 0#16 }

/-! ### Peripheral (46_peripheral.md R240) -/

/-- `program(c, h)`. -/
def program (p : Params) (c : Ch) (h : Handle) (x : Chan) : Chan :=
  { x with per :=
    { cfgAddr := BitVec.ofNat 32 (chunkAddr p c h)
      cfgStride := BitVec.ofNat 2 c.ew
      cfgCount := BitVec.ofNat 16 ((if c.isRx then (p.chan c).cap else (x.usedOf h).toNat) / c.ew)
      armed := true
      en := true } }

/-- `stop(c)`: the configuration keeps its values. -/
def stop (x : Chan) : Chan := { x with per := { x.per with en := false, armed := false } }

/-- `n = cfg_count_c * cfg_stride_c`, the bytes of the programmed transfer (46_peripheral.md R241, R242). -/
def Periph.transferBytes (x : Periph) : Nat := x.cfgCount.toNat * x.cfgStride.toNat

/-- The `n` bytes a receive peripheral delivers, each a draw (46_peripheral.md R241; log 9). -/
def rxBytes (start n : Nat) : List Byte := (List.range n).map fun k => Config.rxByte (start + k)

/-- The programmed range of channel `c` filled with draws (46_peripheral.md R241). -/
def receiveBytes (c : Ch) (s : State) : State :=
  let x := (s.ch c).per
  { s with
    sys := s.sys.writeRun x.cfgAddr.toNat (rxBytes s.drawn x.transferBytes)
    drawn := s.drawn + x.transferBytes }

/-- A transfer is in progress: its completion, if the handler runs now, is a simulated one (70_reset_and_hazards.md R292). -/
def Chan.inProgress (x : Chan) : Bool := x.st == .active && x.per.armed

/-- The bytes of a receive transfer that a simulated completion cuts off, "a draw in every case" (R292; log 32). -/
def partlyReceived (c : Ch) (s : State) : State := if (s.ch c).inProgress then receiveBytes c s else s

/-! ### Host ownership of SYS bytes (60_exceptions.md R254) -/

/-- The host holds chunk `h` of the receive channel (10_state.md R29). -/
def Chan.holds (x : Chan) (h : Handle) : Bool := x.held.getD h.toNat false

/-- Chunk `h` of channel `c` is the block's: the channel is initialised, h < n_c, and not (receive and held). -/
def State.ownsChunk (s : State) (c : Ch) (h : Handle) : Bool :=
  (s.ch c).st != .uninit && decide (h.toNat < (s.ch c).n.toNat) && !(c.isRx && (s.ch c).holds h)

/-- The chunk meets the `n` bytes at `a`. -/
def chunkMeets (p : Params) (c : Ch) (h : Handle) (a n : Nat) : Bool :=
  decide (0 < n) && decide (a < chunkAddr p c h + (p.chan c).cap) && decide (chunkAddr p c h < a + n)

/-- Every one of the `n` bytes at `a` is host-owned: none of them lies in a chunk that is the block's. -/
def State.hostOwns (s : State) (a n : Nat) : Bool :=
  Ch.all.all fun c => (List.range (s.ch c).n.toNat).all fun j =>
    !(s.ownsChunk c (BitVec.ofNat 8 j) && chunkMeets s.cfg c (BitVec.ofNat 8 j) a n)

/-! ### The copy between the host's buffer and a chunk (40_chunk_pool.md R103, 20_memory.md R67) -/

/-- The host wrote the byte at `x` while the copy was pending (R67; log 13). -/
def State.isRaced (s : State) (x : Nat) : Bool := s.raced.any fun r => decide (r.1 ≤ x) && decide (x < r.1 + r.2)

/-- SYS after the copy of `n` bytes from `src` to `dst`, one of which is the host's buffer at ARG0_L. A byte that the host wrote
in that buffer while the copy was pending raced with it, and its copy is a free value (R67; log 13). -/
def State.copyHost (s : State) (dst src n : Nat) : Memory :=
  (s.sys.copyUp dst src n).blur dst (fun k => s.isRaced (s.addrOp + k)) (Config.racedByte s.ticks) n

/-! ### Interrupt entry (60_exceptions.md R255, R259; 42_dispatch.md R153) -/

/-- Some transmit channel's peripheral is armed and `i` is its completion id: the condition of fault F4 (R253). -/
def State.armedTxIrq (s : State) (i : Nat) : Bool :=
  Ch.all.any fun c => c.isTx && (s.cfg.chan c).irq == i && (s.ch c).per.armed

/-- A software trigger or an external pulse on id `i` (R255): `pending[i] <- 1`, or fault F4, which is asked here alone (log 33). -/
def simulate (i : Nat) (s : State) (done : State → Res) : Res :=
  if s.armedTxIrq i then .fault .txCompletionWhileArmed else done (s.setPending i true)

/-- The least pending id, `i < M` (R258(a), 42_dispatch.md R155). -/
def State.leastPending (s : State) : Option Nat := (List.range s.cfg.m).find? fun i => s.isPending i

/-- Handler entry: selects the least pending id, clears its bit, and answers the entry that names its handler. Nothing is
saved and no mode changes (60_exceptions.md R259); a handler ends inside the step and nothing is restored (R260). -/
def State.enterHandler (s : State) : Option (Nat × Entry × State) :=
  match s.leastPending with
  | none => none
  | some i => some (i, s.entry i, s.setPending i false)

/-! ### Reset (70_reset_and_hazards.md R280) -/

/-- `reset_action()`: every piece of the block at its reset value; SYS, the configuration and what is the host's or the
model's own stay. That a receive transfer it cuts off has written no byte yet (R281) is the model's DESIGN CHOICE (log 35). -/
def resetAction (s : State) : State :=
  { State.resetWith s.cfg with
    sys := s.sys, rdata := s.rdata, sysRdata := s.sysRdata, host := s.host, schedule := s.schedule,
    ticks := s.ticks, drawn := s.drawn }

end Sys2Proof.Machine
end

