-- ==== Sys2Proof/Machine/ChannelRx.lean ====
section
/-! DEFINITION. The receive channel (43_channel_rx.md): CH_INIT and CH_START on it, the completion handler and the retry step,
and RX_GET, RX_GET_NC, RX_RELEASE. -/

namespace Sys2Proof.Machine

/-- The channel part of CH_INIT (R170): pool, empty queue, nothing held or in flight, peripheral outputs 0, IDLE. -/
def initRx (p : Params) (c : Ch) (count : Byte) (x : Chan) : Chan :=
  { poolInit p c count x with
    q := { x.q with w := 0, r := 0, ws := 0, rs := 0 }
    held := List.replicate (p.chan c).nmax false
    inflight := none
    per := { cfgAddr := 0#32, cfgCount := 0#16, cfgStride := 0#2, en := false, armed := false }
    st := .idle }

/-- CH_INIT on a receive channel (R170), the checks in the rule's order. -/
def chInitRx (c : Ch) (count : Byte) (s : State) : Res :=
  if (s.ch c).st ≠ .uninit then raise .badState s
  else if count = 0#8 ∨ (s.cfg.chan c).nmax < count.toNat then raise .invalidConfig s
  else if (s.entry (s.cfg.chan c).irq).bound then raise .alreadyBound s
  else complete 0#32
    ((s.setCh c (initRx s.cfg c count (s.ch c))).bind (s.cfg.chan c).irq 0#4 (c.bits.setWidth 16))

/-- `inflight_c <- some h; program(c, h); state_c <- ARMED`: the end of CH_START (R171) and of the retry step (R175). -/
def arm (p : Params) (c : Ch) (h : Handle) (x : Chan) : Chan :=
  program p c h { x with inflight := some h, st := .active }

/-- CH_START on a receive channel (R171). -/
def chStartRx (c : Ch) (s : State) : Res :=
  if (s.ch c).st ≠ .idle then raise .badState s
  else match acquire s.cfg c (s.ch c) with
    | none => raise .poolExhausted s
    | some (h, x) => complete (h.setWidth 32) (s.setCh c (arm s.cfg c h x))

/-- rx_complete(c), the RX_COMPLETE handler (R172, R173, R174, R182). The bytes of a chunk whose
transfer is still armed are `partlyReceived`'s (70_reset_and_hazards.md R292; log 32). -/
def rxComplete (p : Params) (c : Ch) (x : Chan) : Chan :=
  match x.st, x.inflight with
  | .active, some h =>
    let x1 := x.setUsed h (BitVec.ofNat 16 (p.chan c).cap)
    if x1.q.fullW (p.chan c).k then program p c h x1
    else
      let x2 := { x1 with q := x1.q.push (p.chan c).k h }
      match acquire p c x2 with
      | some (h2, x3) => program p c h2 { x3 with inflight := some h2 }
      | none => stop { x2 with inflight := none, st := .starved }
  | _, _ => x

/-- The Rx retry step is enabled: STARVED and the free ring's view non-empty (R175). -/
def rxRetryEnabled (x : Chan) : Bool := x.st == .starved && !x.f.emptyR

/-- Rx retry (R175); no step when it is not enabled. -/
def rxRetry (p : Params) (c : Ch) (x : Chan) : Chan :=
  if rxRetryEnabled x then
    match acquire p c x with
    | some (h, y) => arm p c h y
    | none => x
  else x

/-- RX_GET c (R176), the checks in the rule's order; fault F2 when a byte the copy writes is not host-owned (60_exceptions.md
R253; log 11, 12), asked after every check: DESIGN CHOICE (log 29). -/
def execRxGet (c : Ch) (s : State) : Res :=
  if c.isTx then raise .illegalCommand s
  else if (s.ch c).st = .uninit then raise .badState s
  else match (s.ch c).q.head (s.cfg.chan c).k with
    | none => raise .queueEmpty s
    | some h =>
      let u := ((s.ch c).usedOf h).toNat
      if !s.addrInSys then raise .lengthError s
      else if s.lenOp.toNat < u then raise .lengthError s
      else if s.rangePastTop u then raise .lengthError s
      else if !s.hostOwns s.addrOp u then .fault .sysNotHostOwned
      else if s.cfg.sysSize < chunkAddr s.cfg c h + u then .fault .sysOutOfRange
      else
        let x := { s.ch c with q := (s.ch c).q.pop (s.cfg.chan c).k }
        complete (BitVec.ofNat 32 u)
          { s.setCh c (release s.cfg c h x) with sys := s.copyHost s.addrOp (chunkAddr s.cfg c h) u }

/-- RX_GET_NC c (R177); RESULT is the used length in [31:16] and the handle in [7:0] (45_command_port.md R224). -/
def execRxGetNc (c : Ch) (s : State) : Res :=
  if c.isTx then raise .illegalCommand s
  else if (s.ch c).st = .uninit then raise .badState s
  else match (s.ch c).q.get (s.cfg.chan c).k with
    | none => raise .queueEmpty s
    | some (h, q) =>
      complete ((s.ch c).usedOf h ++ 0#8 ++ h)
        (s.setCh c { s.ch c with q := q, held := (s.ch c).held.set h.toNat true })

/-- RX_RELEASE c, h (R178). -/
def execRxRelease (c : Ch) (h : Handle) (s : State) : Res :=
  if c.isTx then raise .illegalCommand s
  else if (s.ch c).st = .uninit then raise .badState s
  else if (s.ch c).n.toNat ≤ h.toNat then raise .invalidHandle s
  else if !(s.ch c).holds h then raise .invalidHandle s
  else complete 0#32
    (s.setCh c (release s.cfg c h { s.ch c with held := (s.ch c).held.set h.toNat false }))

end Sys2Proof.Machine
end

