-- ==== Sys2Proof/Machine/ChannelTx.lean ====
section
/-! DEFINITION. The transmit channel (44_channel_tx.md): CH_INIT and CH_START on it, TX_PUT, the kick step and the completion
handler. -/

namespace Sys2Proof.Machine

/-- The channel part of CH_INIT (R200): pool, empty queue, nothing in flight, peripheral outputs 0, IDLE. -/
def initTx (p : Params) (c : Ch) (count : Byte) (x : Chan) : Chan :=
  { poolInit p c count x with
    q := { x.q with w := 0, r := 0, ws := 0, rs := 0 }
    inflight := none
    per := { cfgAddr := 0#32, cfgCount := 0#16, cfgStride := 0#2, en := false, armed := false }
    st := .idle }

/-- CH_INIT on a transmit channel (R200), the checks in the rule's order. -/
def chInitTx (c : Ch) (count : Byte) (s : State) : Res :=
  if (s.ch c).st ≠ .uninit then raise .badState s
  else if count = 0#8 ∨ (s.cfg.chan c).nmax < count.toNat then raise .invalidConfig s
  else if (s.entry (s.cfg.chan c).irq).bound then raise .alreadyBound s
  else complete 0#32
    ((s.setCh c (initTx s.cfg c count (s.ch c))).bind (s.cfg.chan c).irq 1#4 (c.bits.setWidth 16))

/-- CH_START on a transmit channel: no effect but CODE and RESULT (R201). -/
def chStartTx (c : Ch) (s : State) : Res :=
  if (s.ch c).st = .uninit then raise .badState s
  else complete 0#32 s

/-- The length TX_PUT refuses: `len = 0 or len > CAP_c or len mod ew_c ≠ 0` (R203). -/
def badTxLen (p : Params) (c : Ch) (len : Nat) : Bool :=
  len == 0 || decide ((p.chan c).cap < len) || len % c.ew != 0

/-- TX_PUT c (R203), the checks in the rule's order; fault F2 when a byte of the source is not host-owned (60_exceptions.md
R253; log 12), asked after every check, so that a TX_PUT that fails a check returns its code: DESIGN CHOICE (log 29). -/
def execTxPut (c : Ch) (s : State) : Res :=
  if c.isRx then raise .illegalCommand s
  else if (s.ch c).st = .uninit then raise .badState s
  else if badTxLen s.cfg c s.lenOp.toNat then raise .lengthError s
  else if !s.addrInSys || s.rangePastTop s.lenOp.toNat then raise .lengthError s
  else if (s.ch c).q.fullW (s.cfg.chan c).k then raise .queueFull s
  else match acquire s.cfg c (s.ch c) with
    | none => raise .poolExhausted s
    | some (h, x) =>
      if !s.hostOwns s.addrOp s.lenOp.toNat then .fault .sysNotHostOwned
      else if s.cfg.sysSize < chunkAddr s.cfg c h + s.lenOp.toNat then .fault .sysOutOfRange
      else
        let x1 := x.setUsed h s.lenOp
        complete (h.setWidth 32)
          { s.setCh c { x1 with q := x1.q.push (s.cfg.chan c).k h } with
            sys := s.copyHost (chunkAddr s.cfg c h) s.addrOp s.lenOp.toNat }

/-- The Tx kick step is enabled: IDLE and the queue's view non-empty (R204). -/
def txKickEnabled (x : Chan) : Bool := x.st == .idle && !x.q.emptyR

/-- Tx kick (R204); no step when it is not enabled. -/
def txKick (p : Params) (c : Ch) (x : Chan) : Chan :=
  if txKickEnabled x then
    match x.q.get (p.chan c).k with
    | some (h, q) => program p c h { x with q := q, inflight := some h, st := .active }
    | none => x
  else x

/-- tx_complete(c), the TX_COMPLETE handler (R205, R206). -/
def txComplete (p : Params) (c : Ch) (x : Chan) : Chan :=
  match x.st, x.inflight with
  | .active, some h =>
    let x1 := release p c h x
    match x1.q.get (p.chan c).k with
    | some (h2, q) => program p c h2 { x1 with q := q, inflight := some h2 }
    | none => stop { x1 with inflight := none, st := .idle }
  | _, _ => x

end Sys2Proof.Machine
end

