-- ==== Sys2Proof/Machine/ChannelCmd.lean ====
section
/-! DEFINITION. CH_INIT and CH_START: the direction of the channel selects the receive or the transmit rule (30_encoding.md
R83). -/

namespace Sys2Proof.Machine

/-- CH_INIT c, count (43_channel_rx.md R170, 44_channel_tx.md R200). -/
def execChInit (c : Ch) (count : Byte) (s : State) : Res :=
  if c.isTx then chInitTx c count s else chInitRx c count s

/-- CH_START c (43_channel_rx.md R171, 44_channel_tx.md R201). -/
def execChStart (c : Ch) (s : State) : Res :=
  if c.isTx then chStartTx c s else chStartRx c s

end Sys2Proof.Machine
end

