-- ==== Sys2Proof/Machine/DispCmd.lean ====
section
/-! DEFINITION. The dispatcher's commands (42_dispatch.md R150, R151). -/

namespace Sys2Proof.Machine

/-- DISP_REG irq, cb, ctx (R150), the checks in the rule's order. -/
def execDispReg (irq cb : BitVec 4) (ctx : Half) (s : State) : Res :=
  if s.cfg.m ≤ irq.toNat then raise .invalidConfig s
  else if cb = 0#4 ∨ cb = 1#4 then raise .invalidConfig s
  else if (s.entry irq.toNat).bound then raise .alreadyBound s
  else complete 0#32 (s.bind irq.toNat cb ctx)

/-- DISP_SWTRIG irq (R151), with fault F4 on an armed transmit channel's id (60_exceptions.md R253). -/
def execDispSwtrig (irq : BitVec 4) (s : State) : Res :=
  if s.cfg.m ≤ irq.toNat then raise .invalidConfig s
  else simulate irq.toNat s (complete 0#32)

end Sys2Proof.Machine
end

