-- ==== Sys2Proof/Machine/Port.lean ====
section
/-! DEFINITION. The commands of the command port itself: NOP and BLK_RESET (45_command_port.md R221, R222). -/

namespace Sys2Proof.Machine

/-- NOP: `CODE <- OK; RESULT <- 0` (R221). -/
def execNop (s : State) : Res := complete 0#32 s

/-- BLK_RESET: the reset action, which leaves CODE = OK, RESULT = 0, BUSY = 0, OVR = 0 (R222). -/
def execBlkReset (s : State) : Res := .next (resetAction s)

end Sys2Proof.Machine
end

