-- ==== Sys2Proof/Machine/Dispatch.lean ====
section
/-! DEFINITION. The one match from a command to its meaning (45_command_port.md R223). -/

namespace Sys2Proof.Machine

def exec (i : Instr) (s : State) : Host.Outcome State Fault Refusal :=
  match i with
  | .nop => Sys2Proof.Machine.execNop s
  | .blkReset => Sys2Proof.Machine.execBlkReset s
  | .dispReg irq cb ctx => Sys2Proof.Machine.execDispReg irq cb ctx s
  | .dispSwtrig irq => Sys2Proof.Machine.execDispSwtrig irq s
  | .chInit c count => Sys2Proof.Machine.execChInit c count s
  | .chStart c => Sys2Proof.Machine.execChStart c s
  | .rxGet c => Sys2Proof.Machine.execRxGet c s
  | .rxGetNc c => Sys2Proof.Machine.execRxGetNc c s
  | .rxRelease c h => Sys2Proof.Machine.execRxRelease c h s
  | .txPut c => Sys2Proof.Machine.execTxPut c s

end Sys2Proof.Machine
end

