-- ==== Sys2Proof/WellFormed.lean ====
section
/-! DEFINITION. Which commands the opcode map can spell: a receive command names a receive channel and TX_PUT a transmit
channel (30_encoding.md R83). Every other operand range is in its type. -/

namespace Sys2Proof

/-- The command is one a 32-bit word selects (30_encoding.md R83). -/
def Instr.wf : Instr → Bool
  | .nop => true
  | .blkReset => true
  | .dispReg _ _ _ => true
  | .dispSwtrig _ => true
  | .chInit _ _ => true
  | .chStart _ => true
  | .rxGet c => c.isRx
  | .rxGetNc c => c.isRx
  | .rxRelease c _ => c.isRx
  | .txPut c => c.isTx

end Sys2Proof
end

