-- ==== Sys2Proof/Decode.lean ====
section
/-! DEFINITION. Decoding a command word (30_encoding.md R80 to R85), total and rejecting by name; then the encoder (R86)
and the opcode map in the spec's own form of match and mask (R83). -/

namespace Sys2Proof

/-- Why a word is no command. Each of them completes with IllegalCommand (30_encoding.md R84). -/
inductive Illegal where
  /-- Opcodes 0xA to 0xF (R85). -/
  | reservedOpcode
  /-- A nonzero RSV bit, [7:6] (R80). -/
  | nonzeroReserved
  /-- A nonzero field the command does not use (R84). -/
  | nonzeroUnused
  /-- A receive-only command naming a transmit channel or the reverse (R84). -/
  | wrongDirection
deriving DecidableEq, Repr

/-- OPC, bits [3:0] (30_encoding.md R80). -/
def opcOf (w : Word) : BitVec 4 := w.extractLsb' 0 4
/-- CH, bits [5:4]. -/
def chOf (w : Word) : BitVec 2 := w.extractLsb' 4 2
/-- RSV, bits [7:6]. -/
def rsvOf (w : Word) : BitVec 2 := w.extractLsb' 6 2
/-- B, bits [15:8]. -/
def bOf (w : Word) : Byte := w.extractLsb' 8 8
/-- IRQ, bits [11:8]. -/
def irqOf (w : Word) : BitVec 4 := w.extractLsb' 8 4
/-- CB, bits [15:12]. -/
def cbOf (w : Word) : BitVec 4 := w.extractLsb' 12 4
/-- X, bits [31:16]. -/
def xOf (w : Word) : Half := w.extractLsb' 16 16

/-- A field the command does not use must be 0 (30_encoding.md R80). -/
def unusedZero (zero : Bool) (i : Instr) : Except Illegal Instr :=
  if zero then .ok i else .error .nonzeroUnused

/-- A command whose word fixes CH[0] (30_encoding.md R83): B and X as the row has them, then the direction. -/
def directed (zero dir : Bool) (i : Instr) : Except Illegal Instr :=
  if zero then (if dir then .ok i else .error .wrongDirection) else .error .nonzeroUnused

/-- The command a word selects, or why it selects none (30_encoding.md R83, R84). -/
def decode (w : Word) : Except Illegal Instr :=
  if rsvOf w = 0#2 then
    match (opcOf w).toNat with
    | 0 => unusedZero (chOf w = 0#2 ∧ bOf w = 0#8 ∧ xOf w = 0#16) .nop
    | 1 => unusedZero (chOf w = 0#2 ∧ bOf w = 0#8 ∧ xOf w = 0#16) .blkReset
    | 2 => unusedZero (chOf w = 0#2) (.dispReg (irqOf w) (cbOf w) (xOf w))
    | 3 => unusedZero (chOf w = 0#2 ∧ cbOf w = 0#4 ∧ xOf w = 0#16) (.dispSwtrig (irqOf w))
    | 4 => unusedZero (xOf w = 0#16) (.chInit (Ch.ofBits (chOf w)) (bOf w))
    | 5 => unusedZero (bOf w = 0#8 ∧ xOf w = 0#16) (.chStart (Ch.ofBits (chOf w)))
    | 6 => directed (bOf w = 0#8 ∧ xOf w = 0#16) (Ch.ofBits (chOf w)).isRx (.rxGet (Ch.ofBits (chOf w)))
    | 7 => directed (bOf w = 0#8 ∧ xOf w = 0#16) (Ch.ofBits (chOf w)).isRx (.rxGetNc (Ch.ofBits (chOf w)))
    | 8 => directed (xOf w = 0#16) (Ch.ofBits (chOf w)).isRx (.rxRelease (Ch.ofBits (chOf w)) (bOf w))
    | 9 => directed (bOf w = 0#8 ∧ xOf w = 0#16) (Ch.ofBits (chOf w)).isTx (.txPut (Ch.ofBits (chOf w)))
    | _ => .error .reservedOpcode
  else .error .nonzeroReserved

/-- What the decoder reads from the table's numbering of a word (bits above `nbits` are 0). -/
def decodeTableWord (nbits w : Nat) : Option Instr :=
  match decode (BitVec.ofNat 32 (w % 2 ^ nbits)) with
  | .ok i => some i
  | .error _ => none

/-- `enc(OPC, c, B, X) = OPC | (c << 4) | (B << 8) | (X << 16)` (30_encoding.md R86). -/
def enc (opc : BitVec 4) (c : BitVec 2) (b : Byte) (x : Half) : Word := x ++ b ++ 0#2 ++ c ++ opc

/-- The word of a command (30_encoding.md R86, R87). -/
def encode : Instr → Word
  | .nop => enc 0#4 0#2 0#8 0#16
  | .blkReset => enc 1#4 0#2 0#8 0#16
  | .dispReg irq cb ctx => enc 2#4 0#2 (cb ++ irq) ctx
  | .dispSwtrig irq => enc 3#4 0#2 (0#4 ++ irq) 0#16
  | .chInit c count => enc 4#4 c.bits count 0#16
  | .chStart c => enc 5#4 c.bits 0#8 0#16
  | .rxGet c => enc 6#4 c.bits 0#8 0#16
  | .rxGetNc c => enc 7#4 c.bits 0#8 0#16
  | .rxRelease c h => enc 8#4 c.bits h 0#16
  | .txPut c => enc 9#4 c.bits 0#8 0#16

/-- A row of the opcode map: a word `w` selects it when `w & mask = pattern` (30_encoding.md R83). -/
structure OpRow where
  mnemonic : String
  pattern : Word
  mask : Word
deriving DecidableEq, Repr

/-- The opcode map as 30_encoding.md R83 prints it. -/
def opcodeMap : List OpRow :=
  [⟨"NOP", 0x00000000#32, 0xFFFFFFFF#32⟩,
   ⟨"BLK_RESET", 0x00000001#32, 0xFFFFFFFF#32⟩,
   ⟨"DISP_REG", 0x00000002#32, 0x000000FF#32⟩,
   ⟨"DISP_SWTRIG", 0x00000003#32, 0xFFFFF0FF#32⟩,
   ⟨"CH_INIT", 0x00000004#32, 0xFFFF00CF#32⟩,
   ⟨"CH_START", 0x00000005#32, 0xFFFFFFCF#32⟩,
   ⟨"RX_GET", 0x00000006#32, 0xFFFFFFDF#32⟩,
   ⟨"RX_GET_NC", 0x00000007#32, 0xFFFFFFDF#32⟩,
   ⟨"RX_RELEASE", 0x00000008#32, 0xFFFF00DF#32⟩,
   ⟨"TX_PUT", 0x00000019#32, 0xFFFFFFDF#32⟩]

/-- The word selects the row. -/
def OpRow.selects (r : OpRow) (w : Word) : Bool := w &&& r.mask == r.pattern

/-- The mnemonic of a command, as the opcode map spells it. -/
def Instr.mnemonic : Instr → String
  | .nop => "NOP"
  | .blkReset => "BLK_RESET"
  | .dispReg _ _ _ => "DISP_REG"
  | .dispSwtrig _ => "DISP_SWTRIG"
  | .chInit _ _ => "CH_INIT"
  | .chStart _ => "CH_START"
  | .rxGet _ => "RX_GET"
  | .rxGetNc _ => "RX_GET_NC"
  | .rxRelease _ _ => "RX_RELEASE"
  | .txPut _ => "TX_PUT"

end Sys2Proof
end

