-- ==== Sys2Proof/Machine/Registers.lean ====
section
/-! DEFINITION. The register map (10_state.md R37 to R49), its reads and its writes (45_command_port.md R220, R226, R227). -/

namespace Sys2Proof.Machine

/-- A flag as one bit. -/
def bit (b : Bool) : BitVec 1 := BitVec.ofBool b

/-- STATUS (10_state.md R41): BUSY [31], OVR [8], CODE [3:0]. -/
def State.statusReg (s : State) : Word := bit s.busy ++ 0#22 ++ bit s.ovr ++ 0#4 ++ s.code.bits

/-- PARAM (R43): ASYNC [20], min(SYNC_STAGES, 15) [19:16], ADDR_W [13:8], M [4:0]. -/
def paramReg (p : Params) : Word :=
  0#11 ++ bit p.async ++ BitVec.ofNat 4 (min p.syncStages 15) ++ 0#2 ++ BitVec.ofNat 6 p.addrW ++ 0#3 ++ BitVec.ofNat 5 p.m

/-- CH_STAT_c (R44): HELD_N [31:24], POOL_N [23:16], IF_H [15:8], IF_V [2], STATE [1:0]. -/
def chStatReg (c : Ch) (x : Chan) : Word :=
  BitVec.ofNat 8 (heldN c x) ++ x.n ++ x.inflight.getD 0#8 ++ 0#5 ++ bit x.inflight.isSome ++ x.st.bits

/-- CH_QSTAT_c (R45): FREE_T [31:24], FULL_T [17], EMPTY_T [16], OCC_T [8:0]. -/
def chQstatReg (p : Params) (c : Ch) (x : Chan) : Word :=
  BitVec.ofNat 8 (freeT p c x) ++ 0#6 ++ bit (fullT p c x) ++ bit (emptyT p c x) ++ 0#7 ++ BitVec.ofNat 9 (occT p c x)

/-- CH_GEOM_c (R47): NMAX_c [31:24], ew_c - 1 [20], log2(K_c) [19:16], CAP_c [15:0]. -/
def chGeomReg (p : Params) (c : Ch) : Word :=
  BitVec.ofNat 8 (p.chan c).nmax ++ 0#3 ++ BitVec.ofNat 1 (c.ew - 1) ++ BitVec.ofNat 4 (p.chan c).logK ++
    BitVec.ofNat 16 (p.chan c).cap

/-- IRQ_PEND (R48): bit i is pending[i] for i < M. -/
def State.irqPendReg (s : State) : Word :=
  (List.range s.cfg.m).foldl (fun w i => w ||| ((bit (s.isPending i)).setWidth 32 <<< i)) 0#32

/-- DISP_ENT_i (R49): CTX [31:16], CB [7:4], BOUND [0]; 0 for i >= M. -/
def State.dispEntReg (s : State) (i : Nat) : Word :=
  if i < s.cfg.m then (s.entry i).ctx ++ 0#8 ++ (s.entry i).cb ++ 0#3 ++ bit (s.entry i).bound else 0#32

/-- The four registers of a channel, at 0x40 + 0x10 * c (R37). -/
def State.chReg (s : State) (c : Ch) (k : Nat) : Word :=
  if k = 0x0 then chStatReg c (s.ch c)
  else if k = 0x4 then chQstatReg s.cfg c (s.ch c)
  else if k = 0x8 then (s.cfg.chan c).base
  else if k = 0xC then chGeomReg s.cfg c
  else 0#32

/-- The value of the register at a window offset (45_command_port.md R226); an offset no register occupies reads 0 (R37). -/
def State.regRead (s : State) (off : Nat) : Word :=
  if off = 0x000 then 0x54430001#32
  else if off = 0x004 then 0#32
  else if off = 0x008 then s.arg0
  else if off = 0x00C then s.arg1
  else if off = 0x010 then s.statusReg
  else if off = 0x014 then s.result
  else if off = 0x018 then paramReg s.cfg
  else if 0x040 ≤ off ∧ off < 0x080 then s.chReg (Ch.ofBits (BitVec.ofNat 2 (off / 0x10))) (off % 0x10)
  else if off = 0x080 then s.irqPendReg
  else if 0x0C0 ≤ off ∧ off < 0x100 ∧ off % 4 = 0 then s.dispEntReg ((off - 0x0C0) / 4)
  else 0#32

/-- Command issue, a write to CMD (45_command_port.md R220): latched when BUSY = 0, else dropped with OVR set (R290). No host
write has raced with the new command's copy yet (log 13). -/
def issue (v : Word) (s : State) : State :=
  if s.busy then { s with ovr := true }
  else { s with cmdL := v, arg0L := s.arg0, arg1L := s.arg1, busy := true, raced := [] }

/-- A register write (R227): CMD, ARG0, ARG1, STATUS bit 8; every other offset ignores it (10_state.md R37). -/
def State.regWrite (s : State) (off : Nat) (v : Word) : State :=
  if off = 0x004 then issue v s
  else if off = 0x008 then { s with arg0 := v }
  else if off = 0x00C then { s with arg1 := v }
  else if off = 0x010 then (if v.getLsbD 8 then { s with ovr := false } else s)
  else s

/-- QEMPTY (30_encoding.md R88): bit 16 of a CH_QSTAT_c value. -/
def qempty (v : Word) : Bool := v.getLsbD 16

/-- QFULL (R88): bit 17 of a CH_QSTAT_c value. -/
def qfull (v : Word) : Bool := v.getLsbD 17

end Sys2Proof.Machine
end

