-- ==== Sys2Proof/Machine/HostBus.lean ====
section
/-! DEFINITION. The host (00_scope.md R8): bus accesses to the register window (45_command_port.md R226 to R228), its own SYS
accesses (20_memory.md R60(d), R67, R74), and the pseudo-operations of 30_encoding.md R87 and R88. -/

namespace Sys2Proof.Machine

/-- The number of bytes of a bus access. -/
def Width.bytes : Width → Nat
  | .byte => 1
  | .half => 2
  | .word => 4

/-- The access touches the 0x100-byte register window at REG_BASE (20_memory.md R61). -/
def touchesWindow (p : Params) (width : Width) (addr : Word) : Bool :=
  decide (p.regBase.toNat < addr.toNat + width.bytes) && decide (addr.toNat < p.regBase.toNat + 0x100)

/-- An aligned 32-bit word access, the only defined one (45_command_port.md R228). -/
def alignedWord (width : Width) (addr : Word) : Bool := width == .word && addr.toNat % 4 == 0

/-- A host read of the bus (R226): the register's value, no other change. Fault F1 on another width or alignment (R228); an
access outside the window is not an access to the block (log 21). -/
def hostReadReg (width : Width) (addr : Word) (s : State) : Res :=
  if !touchesWindow s.cfg width addr then .next s
  else if !alignedWord width addr then .fault .registerAccess
  else .next { s with rdata := s.regRead (addr.toNat - s.cfg.regBase.toNat) }

/-- A host write of the bus (R227); otherwise as the read. -/
def hostWriteReg (width : Width) (addr v : Word) (s : State) : Res :=
  if !touchesWindow s.cfg width addr then .next s
  else if !alignedWord width addr then .fault .registerAccess
  else .next (s.regWrite (addr.toNat - s.cfg.regBase.toNat) v)

/-- How many bytes at ARG0_L a pending RX_GET would write were it executed now: its used length, and none where it would fail.
Nothing it waits for is taken back while BUSY = 1, so a copy that could not be made now has not begun (20_memory.md R67;
log 13). -/
def State.pendingCopy (s : State) : Nat :=
  if s.busy then
    match decode s.cmdL with
    | .ok (.rxGet c) => copied (execRxGet c s)
    | .ok _ => 0
    | .error _ => 0
  else 0
where
  /-- A copy is made exactly when RX_GET ends with OK, and its RESULT is then the number of bytes (43_channel_rx.md R176). -/
  copied (r : Res) : Nat :=
    match r with
    | .next t => if t.code = .ok then t.result.toNat else 0
    | .fault _ => 0
    | .refused _ => 0

/-- The pending copy writes the byte at `x`. -/
def State.copyWrites (s : State) (x : Nat) : Bool := decide (s.addrOp ≤ x) && decide (x < s.addrOp + s.pendingCopy)

/-- The byte a host read of `x` returns: SYS's, but a free value where the pending copy may or may not have written it yet (R67;
log 13). -/
def State.hostByte (s : State) (x : Nat) : Byte := if s.copyWrites x then Config.racedByte s.ticks x else s.sys.read x

/-- The conditions of a host access to the `n` bytes of SYS at `a`: they exist (20_memory.md R60) and they are host-owned (fault
F2, 60_exceptions.md R253). -/
def hostSys (a n : Nat) (s : State) (done : State) : Res :=
  if s.cfg.sysSize < a + n then .fault .sysOutOfRange
  else if !s.hostOwns a n then .fault .sysNotHostOwned
  else .next done

/-- A host read of `n` bytes of SYS. -/
def hostReadSys (addr : Word) (n : Nat) (s : State) : Res :=
  hostSys addr.toNat n s { s with sysRdata := (List.range n).map fun k => s.hostByte (addr.toNat + k) }

/-- A host write of bytes of SYS; while BUSY = 1 it is remembered, for a copy that may meet it (R67; log 13). -/
def hostWriteSys (addr : Word) (bytes : List Byte) (s : State) : Res :=
  hostSys addr.toNat bytes.length s { s with
    sys := s.sys.writeRun addr.toNat bytes
    raced := if s.busy then (addr.toNat, bytes.length) :: s.raced else s.raced }

/-- Whether a line's syntax writes ARG0 and ARG1 (30_encoding.md R87). -/
def usesArgs : Instr → Bool
  | .rxGet _ => true
  | .txPut _ => true
  | .nop => false
  | .blkReset => false
  | .dispReg _ _ _ => false
  | .dispSwtrig _ => false
  | .chInit _ _ => false
  | .chStart _ => false
  | .rxGetNc _ => false
  | .rxRelease _ _ => false

/-- The host actions an assembler line stands for (R87), without its implicit WAIT. -/
def Line.writes (p : Params) (l : Line) : List HostOp :=
  (if usesArgs l.instr then
    [.writeReg .word (p.regAddr 0x008) l.arg0, .writeReg .word (p.regAddr 0x00C) l.arg1] else []) ++
  [.writeReg .word (p.regAddr 0x004) (encode l.instr)]

/-- An assembler line with its implicit WAIT (R87). -/
def Line.ops (p : Params) (l : Line) : List HostOp := l.writes p ++ [.wait]

/-- CLR_OVR (R88): `STATUS <- 0x0000_0100`. -/
def clrOvr (p : Params) : HostOp := .writeReg .word (p.regAddr 0x010) 0x00000100#32

/-- The read of QEMPTY and QFULL (R88): CH_QSTAT_c; `qempty` and `qfull` take its bit 16 and bit 17. -/
def readQstat (p : Params) (c : Ch) : HostOp := .readReg .word (p.regAddr (0x044 + 0x10 * c.bits.toNat))

/-- WAIT (R88): one poll of STATUS; while BUSY = 1 it stays the host's next action. -/
def hostWait (s : State) : Res :=
  .next { s with rdata := s.statusReg, host := if s.busy then .wait :: s.host else s.host }

/-- RETRY n, cmd (R88): with no repetition left it is done; else the command, its WAIT, and the test. -/
def hostRetry (times : Option Nat) (l : Line) (s : State) : Res :=
  match times with
  | some 0 => .next s
  | some (n + 1) => .next { s with host := l.ops s.cfg ++ .retryTest (some n) l :: s.host }
  | none => .next { s with host := l.ops s.cfg ++ .retryTest none l :: s.host }

/-- The test of RETRY (R88): repeat when STATUS[3:0] is 2, 3 or 4, else stop. -/
def hostRetryTest (times : Option Nat) (l : Line) (s : State) : Res :=
  .next { s with
    rdata := s.statusReg
    host := if s.code.transient then .retry times l :: s.host else s.host }

/-- One action of the host. -/
def hostAct (op : HostOp) (s : State) : Res :=
  match op with
  | .readReg width addr => hostReadReg width addr s
  | .writeReg width addr v => hostWriteReg width addr v s
  | .readSys addr n => hostReadSys addr n s
  | .writeSys addr bytes => hostWriteSys addr bytes s
  | .wait => hostWait s
  | .retry times l => hostRetry times l s
  | .retryTest times l => hostRetryTest times l s

/-- A HOST turn: the next pending action, else a free one (00_scope.md R8, 70_reset_and_hazards.md R296; log 5). -/
def hostTurn (s : State) : Res :=
  match s.host with
  | op :: rest => hostAct op { s with host := rest }
  | [] => hostAct (Config.freeHostOp s.ticks) s

end Sys2Proof.Machine
end

