-- ==== Sys2Proof/Machine/Agents.lean ====
section
/-! DEFINITION. The step of each agent (00_scope.md R8): the command engine, the synchronisers, the dispatcher, the channel
FSMs, the peripherals, the external lines and the reset input; and how the next turn is chosen (log 4). -/

namespace Sys2Proof.Machine

/-- `BUSY <- 0`, the end of every command (45_command_port.md R223). -/
def clearBusy : Res → Res
  | .next s => .next { s with busy := false }
  | .fault f => .fault f
  | .refused r => .refused r

/-- CMDENG (45_command_port.md R223): decode CMD_L, run the command's rule or end with IllegalCommand, clear BUSY. With
BUSY = 0 there is no step (log 6). -/
def cmdengTurn (s : State) : Res :=
  if s.busy then
    match decode s.cmdL with
    | .ok i => clearBusy (exec i s)
    | .error _ => clearBusy (raise .illegalCommand s)
  else .next s

/-- SYNC: `SYNC_W2R(Q_c)` (41_async_fifo.md R126). -/
def syncQueueW2R (c : Ch) (s : State) : State := s.setCh c { s.ch c with q := (s.ch c).q.syncW2R }

/-- SYNC: `SYNC_R2W(Q_c)` (R126). -/
def syncQueueR2W (c : Ch) (s : State) : State := s.setCh c { s.ch c with q := (s.ch c).q.syncR2W }

/-- SYNC: `SYNC_W2R(F_c)` (R126). -/
def syncFreeW2R (c : Ch) (s : State) : State := s.setCh c { s.ch c with f := (s.ch c).f.syncW2R }

/-- The handler an entry names (42_dispatch.md R153): RX_COMPLETE, TX_COMPLETE, an external callback, or nothing when the
entry is unbound (R154). The bytes of a receive transfer still armed are draws (70_reset_and_hazards.md R292; log 32); a transmit
transfer still armed is ended like any other (log 33). -/
def runHandler (i : Nat) (e : Entry) (s : State) : State :=
  if e.bound then
    if e.cb = 0#4 then
      let c := Ch.ofBits (e.ctx.extractLsb' 0 2)
      (partlyReceived c s).setCh c (rxComplete s.cfg c (s.ch c))
    else if e.cb = 1#4 then
      let c := Ch.ofBits (e.ctx.extractLsb' 0 2)
      s.setCh c (txComplete s.cfg c (s.ch c))
    else { s with cbOut := s.cbOut ++ [{ irq := BitVec.ofNat 4 i, cb := e.cb, ctx := e.ctx }] }
  else s

/-- DISPATCH (42_dispatch.md R153): enter the handler of the least pending id and run it to its end, in one step. With
nothing pending there is no step (log 6). -/
def dispTurn (s : State) : State :=
  match s.enterHandler with
  | some (i, e, s1) => runHandler i e s1
  | none => s

/-- FSM_c: the Rx retry step (43_channel_rx.md R175) or the Tx kick step (44_channel_tx.md R204). -/
def fsmTurn (c : Ch) (s : State) : State :=
  s.setCh c (if c.isTx then txKick s.cfg c (s.ch c) else rxRetry s.cfg c (s.ch c))

/-- `armed_c <- 0; pending[irq_of_c] <- 1`, the completion pulse (46_peripheral.md R241, R242). -/
def signalDone (c : Ch) (s : State) : State :=
  (s.setCh c { s.ch c with per := { (s.ch c).per with armed := false } }).setPending (s.cfg.chan c).irq true

/-- A receive completion: `n` drawn bytes at cfg_addr_c (R241). -/
def rxTransfer (c : Ch) (s : State) : State := signalDone c (receiveBytes c s)

/-- A transmit completion: TxOut_c gains the `n` bytes at cfg_addr_c (R242). -/
def txTransfer (c : Ch) (s : State) : State :=
  let x := s.ch c
  signalDone c (s.setCh c { x with txOut := x.txOut ++ [s.sys.readRun x.per.cfgAddr.toNat x.per.transferBytes] })

/-- PERIPH_c (46_peripheral.md R241, R242): one completion, only while enabled and armed (R245; refused otherwise,
60_exceptions.md R253 F3). -/
def periphTurn (c : Ch) (s : State) : Res :=
  if !((s.ch c).per.en && (s.ch c).per.armed) then .refused .peripheralStep
  else if s.cfg.sysSize < (s.ch c).per.cfgAddr.toNat + (s.ch c).per.transferBytes then .fault .sysOutOfRange
  else if c.isTx then .next (txTransfer c s)
  else .next (rxTransfer c s)

/-- EXTIRQ: a pulse on `irq_in[i]`, i < M (46_peripheral.md R243), with fault F4 on an armed transmit channel's id. -/
def extIrqTurn (i : Nat) (s : State) : Res :=
  if s.cfg.m ≤ i then .refused .noSuchLine else simulate i s .next

/-- One turn of one agent (00_scope.md R8). -/
def takeTurn (t : Turn) (s : State) : Res :=
  match t with
  | .host => hostTurn s
  | .cmdeng => cmdengTurn s
  | .syncQueueW2R c => .next (syncQueueW2R c s)
  | .syncQueueR2W c => .next (syncQueueR2W c s)
  | .syncFreeW2R c => .next (syncFreeW2R c s)
  | .disp => .next (dispTurn s)
  | .fsm c => .next (fsmTurn c s)
  | .periph c => periphTurn c s
  | .extIrq i => extIrqTurn i s
  | .rstN => .next (resetAction s)

/-- The next turn: the schedule's, else a free one (log 4). -/
def State.turn (s : State) : Turn :=
  match s.schedule with
  | t :: _ => t
  | [] => Config.freeTurn s.ticks

/-- The state with that turn taken off the schedule and the step counted. -/
def State.advance (s : State) : State := { s with schedule := s.schedule.tail, ticks := s.ticks + 1 }

end Sys2Proof.Machine
end

