-- ==== Sys2Proof/Machine/Step.lean ====
section
/-! DEFINITION. One step of the machine: one turn of one agent (00_scope.md R8). -/

namespace Sys2Proof.Machine

/-- One atomic step of the interleaving (00_scope.md R8, 20_memory.md R69). -/
def step (s : State) : Host.Outcome State Fault Refusal := takeTurn s.turn s.advance

/-- `s` with the word `w` latched as the command the very next step executes (log 22): the effect of the host's write to CMD
(45_command_port.md R220) on the latch and BUSY, and CMDENG next in the schedule. -/
def State.withFetchWord (s : State) (nbits w : Nat) : State :=
  { s with cmdL := BitVec.ofNat 32 (w % 2 ^ nbits), busy := true, raced := [], schedule := .cmdeng :: s.schedule }

end Sys2Proof.Machine
end

