-- ==== Sys2Proof/Machine/Ports.lean ====
section
/-! DEFINITION. The block's ports. Levels are computed from the state: the FIFO instances (41_async_fifo.md R141), the peripheral
ports (46_peripheral.md R244), BUSY (45_command_port.md R230). What lasts one step is computed from the state before and the
state after it: the FIFO requests (R141, log 24), the arm strobe (R244) and the external-callback pulse (42_dispatch.md R159). -/

namespace Sys2Proof.Machine

/-- `wr_full` of a queue instance (R141). -/
def wrFull (p : Params) (c : Ch) (x : Chan) : Bool := x.q.fullW (p.chan c).k

/-- `wr_occ`. -/
def wrOcc (p : Params) (c : Ch) (x : Chan) : BitVec (p.chan c).qw := BitVec.ofNat _ (x.q.occW (p.chan c).k)

/-- `rd_empty`. -/
def rdEmpty (x : Chan) : Bool := x.q.emptyR

/-- `rd_occ`. -/
def rdOcc (p : Params) (c : Ch) (x : Chan) : BitVec (p.chan c).qw := BitVec.ofNat _ (x.q.occR (p.chan c).k)

/-- `rd_data`, the slot at Qr; valid when the instance is not empty. -/
def rdData (p : Params) (c : Ch) (x : Chan) : Handle := x.q.front (p.chan c).k

/-- `wgray`, the gray code of Qw that crosses to the read side (R126, R141). -/
def wgray (p : Params) (c : Ch) (x : Chan) : BitVec (p.chan c).qw := gray (BitVec.ofNat _ x.q.w)

/-- `rgray`, the gray code of Qr that crosses to the write side. -/
def rgray (p : Params) (c : Ch) (x : Chan) : BitVec (p.chan c).qw := gray (BitVec.ofNat _ x.q.r)

/-- `wgray` of a free-ring instance. -/
def freeWgray (p : Params) (c : Ch) (x : Chan) : BitVec (p.chan c).pw := gray (BitVec.ofNat _ x.f.w)

/-- `rd_empty` of a free-ring instance (R125, R141). -/
def freeRdEmpty (x : Chan) : Bool := x.f.emptyR

/-- `rd_occ` of a free-ring instance. -/
def freeRdOcc (p : Params) (c : Ch) (x : Chan) : BitVec (p.chan c).pw := BitVec.ofNat _ (x.f.occR (p.chan c).p)

/-- `rd_data` of a free-ring instance: the handle the next acquire takes (40_chunk_pool.md R105). -/
def freeRdData (p : Params) (c : Ch) (x : Chan) : Handle := x.f.slots.getD (x.f.r % (p.chan c).p) 0#8

/-- Neither a reset nor CH_INIT lies between the channel before a step and after it: those set the pointers of its rings with no
request (R129). -/
def portsLive (x y : Chan) : Bool := x.st != .uninit && y.st != .uninit

/-- `wr_req` of a queue instance in a step from `x` to `y`: a request that was accepted, a Q_PUT (R130, R141; log 24). -/
def wrReq (x y : Chan) : Bool := portsLive x y && x.q.w != y.q.w

/-- `wr_data` with `wr_req`: the handle in the slot that was written. -/
def wrData (p : Params) (c : Ch) (x y : Chan) : Handle := y.q.slots.getD (x.q.w % (p.chan c).k) 0#8

/-- `rd_req` of a queue instance: an accepted request, a Q_GET of `rd_data` (R131, R141). -/
def rdReq (x y : Chan) : Bool := portsLive x y && x.q.r != y.q.r

/-- `wr_req` of a free-ring instance: a release (R106, R141). -/
def freeWrReq (x y : Chan) : Bool := portsLive x y && x.f.w != y.f.w

/-- `wr_data` of a free-ring instance with its `wr_req`. -/
def freeWrData (p : Params) (c : Ch) (x y : Chan) : Handle := y.f.slots.getD (x.f.w % (p.chan c).p) 0#8

/-- `rd_req` of a free-ring instance: an acquire of its `rd_data` (R105, R141). -/
def freeRdReq (x y : Chan) : Bool := portsLive x y && x.f.r != y.f.r

/-- `cfg_addr_c`, `cfg_count_c`, `cfg_stride_c`, `en_c` (46_peripheral.md R244). -/
def periphPorts (x : Chan) : Word × Half × BitVec 2 × Bool := (x.per.cfgAddr, x.per.cfgCount, x.per.cfgStride, x.per.en)

/-- A completion handler of channel `c`, which is in use, ran in the step: only a dispatch clears its pending bit
(42_dispatch.md R153). -/
def handlerRan (c : Ch) (s t : State) : Bool :=
  portsLive (s.ch c) (t.ch c) && s.isPending (s.cfg.chan c).irq && !t.isPending (s.cfg.chan c).irq

/-- The strobe `arm_c` of one step (R244): the step ran `program`. That leaves the peripheral armed, and either it was not armed
before, or a handler programmed it again. -/
def armPort (c : Ch) (s t : State) : Bool :=
  (t.ch c).per.armed && (!(s.ch c).per.armed || handlerRan c s t)

/-- The level output `busy`, equal to STATUS.BUSY (45_command_port.md R230). -/
def busyPort (s : State) : Bool := s.busy

/-- `cb_valid` with `cb_irq`, `cb_id`, `cb_ctx` of one step: the invocation the step appended (42_dispatch.md R159). -/
def cbPort (s t : State) : Option CbEvent := if s.cbOut.length < t.cbOut.length then t.cbOut.getLast? else none

end Sys2Proof.Machine
end

