-- ==== Sys2Proof/Safety.lean ====
section
/-! DEFINITION. The predicates that claims are stated in: the invariant of every run (10_state.md R23 to R32, R51, R52;
42_dispatch.md R152), the conditions under which each command executes normally, what a step leaves unchanged, launch and
quiescence (70_reset_and_hazards.md R284, R298), observation (00_scope.md R13) and weak fairness (R296). -/

namespace Sys2Proof.Machine

/-! ### Rings and ownership -/

/-- The handles of a ring of capacity `d` between its read and write pointers, oldest first (41_async_fifo.md R135). -/
def ringContents (d : Nat) (slots : List Handle) (w r : Nat) : List Handle :=
  (List.range (ptrSub d w r)).map fun i => slots.getD ((r + i) % d) 0#8

/-- The queue's entries (10_state.md R51: between Qr_c and Qw_c). -/
def Queue.contents (d : Nat) (q : Queue) : List Handle := ringContents d q.slots q.w q.r

/-- The free ring's entries (R51: between Fr_c and Fw_c). -/
def FreeRing.contents (d : Nat) (f : FreeRing) : List Handle := ringContents d f.slots f.w f.r

/-- The handles the host holds (10_state.md R29). -/
def Chan.heldHandles (x : Chan) : List Handle :=
  ((List.range x.held.length).filter fun j => x.held.getD j false).map fun j => BitVec.ofNat 8 j

/-- Every place a handle of the channel can be (R51). -/
def Chan.places (p : Params) (c : Ch) (x : Chan) : List Handle :=
  x.f.contents (p.chan c).p ++ (x.q.contents (p.chan c).k ++ (x.inflight.toList ++ x.heldHandles))

/-- The pointer invariant of a ring of capacity `d` between writer, reader and the reader's copy of the writer (10_state.md
R52). -/
abbrev ringOk (d w r ws : Nat) : Prop :=
  w < 2 * d ∧ r < 2 * d ∧ ws < 2 * d ∧ ptrSub d w r ≤ d ∧ ptrSub d ws r + ptrSub d w ws = ptrSub d w r

/-- The pointer invariant of a queue, with the producer's copy of the reader (R52). -/
abbrev Queue.Ok (d : Nat) (q : Queue) : Prop :=
  q.slots.length = d ∧ ringOk d q.w q.r q.ws ∧ q.rs < 2 * d ∧ ptrSub d q.w q.rs ≤ d ∧
  ptrSub d q.w q.r + ptrSub d q.r q.rs = ptrSub d q.w q.rs

/-- The pointer invariant of a free ring (R52). -/
abbrev FreeRing.Ok (d : Nat) (f : FreeRing) : Prop := f.slots.length = d ∧ ringOk d f.w f.r f.ws

/-- The used length a chunk that is queued, in flight or held has: CAP_c on a receive channel (43_channel_rx.md R176), a
legal transmit length on a transmit channel (44_channel_tx.md R203). -/
abbrev usedLegal (p : Params) (c : Ch) (u : Nat) : Prop :=
  if c.isRx then u = (p.chan c).cap else 1 ≤ u ∧ u ≤ (p.chan c).cap ∧ u % c.ew = 0

/-- The elements of the transfer of chunk `h` (46_peripheral.md R240). -/
def transferCount (p : Params) (c : Ch) (x : Chan) (h : Handle) : Half :=
  BitVec.ofNat 16 ((if c.isRx then (p.chan c).cap else (x.usedOf h).toNat) / c.ew)

/-- The peripheral outputs are those `program(c, h)` left, the transfer armed or completed (R240). -/
abbrev programmedFor (p : Params) (c : Ch) (h : Handle) (x : Chan) : Prop :=
  x.per.cfgAddr = BitVec.ofNat 32 (chunkAddr p c h) ∧ x.per.cfgStride = BitVec.ofNat 2 c.ew ∧
  x.per.cfgCount = transferCount p c x h ∧ x.per.en = true

/-- The invariant of an initialised channel (10_state.md R23 to R30, R51, R52). -/
structure Chan.Live (p : Params) (c : Ch) (x : Chan) : Prop where
  /-- `1 <= n_c <= NMAX_c` (R25). -/
  n_pos : 1 ≤ x.n.toNat
  n_le : x.n.toNat ≤ (p.chan c).nmax
  used_length : x.used.length = (p.chan c).nmax
  /-- Receive channels only (R29). -/
  held_length : x.held.length = if c.isRx then (p.chan c).nmax else 0
  /-- R52. -/
  queue_ok : x.q.Ok (p.chan c).k
  free_ok : x.f.Ok (p.chan c).p
  /-- R51: every handle h < n_c is in exactly one place, and nothing else is in any. -/
  ownership : (x.places p c).Perm ((List.range x.n.toNat).map fun j => BitVec.ofNat 8 j)
  /-- `used_c[h] <= CAP_c` (R26). -/
  used_le : ∀ u ∈ x.used, u.toNat ≤ (p.chan c).cap
  used_legal : ∀ h ∈ x.q.contents (p.chan c).k ++ x.heldHandles, usedLegal p c (x.usedOf h).toNat
  /-- Value 3 never occurs on a transmit channel (R23). -/
  tx_not_starved : c.isTx = true → x.st ≠ .starved
  /-- Something is in flight exactly in ARMED and RUNNING (R24). -/
  inflight_iff : x.st = .active ↔ x.inflight.isSome = true
  programmed : ∀ h, x.inflight = some h → programmedFor p c h x
  tx_used : c.isTx = true → ∀ h, x.inflight = some h → usedLegal p c (x.usedOf h).toNat
  /-- With nothing in flight the peripheral is stopped (60_exceptions.md R256). -/
  stopped : x.inflight = none → x.per.en = false ∧ x.per.armed = false

/-- The invariant of a channel: as reset leaves it while UNINIT (only CH_INIT leaves UNINIT, only reset returns to it; D31). -/
structure Chan.Ok (p : Params) (c : Ch) (x : Chan) : Prop where
  uninit : x.st = .uninit → x = Chan.reset p c
  live : x.st ≠ .uninit → x.Live p c

/-- The callback id CH_INIT binds (42_dispatch.md R152). -/
def internalCb (c : Ch) : BitVec 4 := if c.isRx then 0#4 else 1#4

/-- The entry CH_INIT binds for channel `c` (R152, R170, R200). -/
def channelEntry (c : Ch) : Entry := { bound := true, cb := internalCb c, ctx := c.bits.setWidth 16 }

/-- The invariant of the callback table (10_state.md R32, 42_dispatch.md R152). -/
structure State.TableOk (s : State) : Prop where
  length : s.table.length = s.cfg.m
  /-- "When bound = 0, cb and ctx are 0" (R32). -/
  unbound : ∀ e ∈ s.table, e.bound = false → e.cb = 0#4 ∧ e.ctx = 0#16
  /-- Every internal entry is one CH_INIT bound, at the id of a channel that is initialised (R152). -/
  bound_internal : ∀ i, (s.entry i).bound = true → (s.entry i).cb = 0#4 ∨ (s.entry i).cb = 1#4 →
    ∃ c, (s.ch c).st ≠ .uninit ∧ i = (s.cfg.chan c).irq ∧ s.entry i = channelEntry c
  /-- Every initialised channel has its entry (R170, R200). -/
  initialised : ∀ c, (s.ch c).st ≠ .uninit → s.entry (s.cfg.chan c).irq = channelEntry c

/-- The invariant of SYS: canonical, and every written address exists (20_memory.md R60). -/
structure State.SysOk (s : State) : Prop where
  canonical : s.sys.wf
  inRange : ∀ x ∈ s.sys, x.1 < s.cfg.sysSize

/-- The invariant of every run from reset in a legal configuration. -/
structure State.Inv (s : State) : Prop where
  legal : s.cfg.Legal
  pending_length : s.pending.length = s.cfg.m
  table : s.TableOk
  sys : s.SysOk
  chan : ∀ c, (s.ch c).Ok s.cfg c

/-! ### What a step leaves unchanged -/

/-- Everything but the channels, CODE, RESULT, the pending bits, the table, SYS and CbOut is unchanged. -/
abbrev SamePort (s t : State) : Prop :=
  t.cfg = s.cfg ∧ t.arg0 = s.arg0 ∧ t.arg1 = s.arg1 ∧ t.cmdL = s.cmdL ∧ t.arg0L = s.arg0L ∧ t.arg1L = s.arg1L ∧
  t.busy = s.busy ∧ t.ovr = s.ovr ∧ t.rdata = s.rdata ∧ t.sysRdata = s.sysRdata ∧ t.host = s.host ∧
  t.schedule = s.schedule ∧ t.ticks = s.ticks ∧ t.drawn = s.drawn ∧ t.raced = s.raced

/-- The dispatcher's state is unchanged. -/
abbrev SameDispatcher (s t : State) : Prop := t.pending = s.pending ∧ t.table = s.table ∧ t.cbOut = s.cbOut

/-- Every channel but `c` is unchanged. -/
abbrev OtherChans (c : Ch) (s t : State) : Prop := ∀ d, d ≠ c → t.ch d = s.ch d

/-- Every byte of SYS outside the `n` bytes at `a` reads as before. -/
abbrev SysSameOutside (a n : Nat) (s t : State) : Prop :=
  ∀ x, x < a ∨ a + n ≤ x → t.sys.read x = s.sys.read x

/-- Every byte of SYS reads as before. -/
abbrev SameSys (s t : State) : Prop := ∀ x, t.sys.read x = s.sys.read x

/-- A command that writes channel `c` alone, besides CODE and RESULT. -/
abbrev OnlyChan (c : Ch) (s t : State) : Prop := SamePort s t ∧ SameDispatcher s t ∧ OtherChans c s t ∧ SameSys s t

/-! ### When a command executes normally -/

/-- RX_GET finds a head chunk, a destination that takes it and that the host owns (43_channel_rx.md R176, 60_exceptions.md
R253). -/
abbrev RxGetReady (c : Ch) (s : State) : Prop :=
  c.isRx = true ∧ (s.ch c).st ≠ .uninit ∧ (s.ch c).q.emptyR = false ∧
  s.addrOp < s.cfg.sysSize ∧ ((s.ch c).usedOf ((s.ch c).q.front (s.cfg.chan c).k)).toNat ≤ s.lenOp.toNat ∧
  s.addrOp + ((s.ch c).usedOf ((s.ch c).q.front (s.cfg.chan c).k)).toNat ≤ s.cfg.sysSize ∧
  s.hostOwns s.addrOp ((s.ch c).usedOf ((s.ch c).q.front (s.cfg.chan c).k)).toNat = true

/-- RX_GET_NC finds a head chunk (R177). -/
abbrev RxGetNcReady (c : Ch) (s : State) : Prop :=
  c.isRx = true ∧ (s.ch c).st ≠ .uninit ∧ (s.ch c).q.emptyR = false

/-- RX_RELEASE names a held chunk (R178). -/
abbrev RxReleaseReady (c : Ch) (h : Handle) (s : State) : Prop :=
  c.isRx = true ∧ (s.ch c).st ≠ .uninit ∧ h.toNat < (s.ch c).n.toNat ∧ (s.ch c).holds h = true

/-- TX_PUT has a legal length, a source the host owns, room in the queue's view and a chunk in the free ring's view
(44_channel_tx.md R203, 60_exceptions.md R253). -/
abbrev TxPutReady (c : Ch) (s : State) : Prop :=
  c.isTx = true ∧ (s.ch c).st ≠ .uninit ∧
  1 ≤ s.lenOp.toNat ∧ s.lenOp.toNat ≤ (s.cfg.chan c).cap ∧ s.lenOp.toNat % c.ew = 0 ∧
  s.addrOp + s.lenOp.toNat ≤ s.cfg.sysSize ∧
  (s.ch c).q.fullW (s.cfg.chan c).k = false ∧ (s.ch c).f.emptyR = false ∧
  s.hostOwns s.addrOp s.lenOp.toNat = true

/-- CH_INIT passes its checks (43_channel_rx.md R170, 44_channel_tx.md R200). -/
abbrev ChInitReady (c : Ch) (count : Byte) (s : State) : Prop :=
  (s.ch c).st = .uninit ∧ 1 ≤ count.toNat ∧ count.toNat ≤ (s.cfg.chan c).nmax ∧
  (s.entry (s.cfg.chan c).irq).bound = false

/-- The command ends with code `x`, RESULT 0 and no other effect (00_scope.md R11, 45_command_port.md R223). -/
abbrev Raises (i : Instr) (s : State) (x : Code) : Prop := exec i s = .next { s with code := x, result := 0#32 }

/-- The handle an acquire takes next (40_chunk_pool.md R105). -/
def State.nextFree (s : State) (c : Ch) : Handle := (s.ch c).f.slots.getD ((s.ch c).f.r % (s.cfg.chan c).p) 0#8

/-! ### Reset, launch, quiescence -/

/-- Channel `c` has every value of the reset table (70_reset_and_hazards.md R280). -/
abbrev Chan.AtReset (x : Chan) : Prop :=
  x.st = .uninit ∧ x.inflight = none ∧ x.n = 0#8 ∧ (∀ u ∈ x.used, u = 0#16) ∧
  (∀ h ∈ x.q.slots, h = 0#8) ∧ x.q.w = 0 ∧ x.q.rs = 0 ∧ x.q.r = 0 ∧ x.q.ws = 0 ∧
  (∀ h ∈ x.f.slots, h = 0#8) ∧ x.f.w = 0 ∧ x.f.r = 0 ∧ x.f.ws = 0 ∧ (∀ b ∈ x.held, b = false) ∧
  x.per.cfgAddr = 0#32 ∧ x.per.cfgCount = 0#16 ∧ x.per.cfgStride = 0#2 ∧ x.per.en = false ∧ x.per.armed = false ∧
  x.txOut = []

/-- Every piece of the block's state has the value of the reset table (R280). -/
abbrev State.AtReset (s : State) : Prop :=
  s.arg0 = 0#32 ∧ s.arg1 = 0#32 ∧ s.cmdL = 0#32 ∧ s.arg0L = 0#32 ∧ s.arg1L = 0#32 ∧
  s.busy = false ∧ s.ovr = false ∧ s.code = .ok ∧ s.result = 0#32 ∧ (∀ c, (s.ch c).AtReset) ∧
  (∀ b ∈ s.pending, b = false) ∧ (∀ e ∈ s.table, e = { bound := false, cb := 0#4, ctx := 0#16 }) ∧ s.cbOut = []

/-- What the registers read after a reset (R280). -/
abbrev State.ReadsReset (s : State) : Prop :=
  s.regRead 0x000 = 0x54430001#32 ∧ s.regRead 0x010 = 0#32 ∧ s.regRead 0x014 = 0#32 ∧
  (∀ c : Ch, s.regRead (0x040 + 0x10 * c.bits.toNat) = 0#32 ∧ s.regRead (0x044 + 0x10 * c.bits.toNat) = 0x00010000#32) ∧
  s.regRead 0x018 = paramReg s.cfg ∧
  (∀ c : Ch, s.regRead (0x048 + 0x10 * c.bits.toNat) = (s.cfg.chan c).base ∧
    s.regRead (0x04C + 0x10 * c.bits.toNat) = chGeomReg s.cfg c) ∧
  s.regRead 0x080 = 0#32 ∧ ∀ i, i < 16 → s.regRead (0x0C0 + 4 * i) = 0#32

/-- The launch premises of a run that starts after reset (70_reset_and_hazards.md R284); SYS is arbitrary. -/
abbrev State.Launch (s : State) : Prop :=
  s.busy = false ∧ (∀ c, (s.ch c).st = .uninit ∧ (s.ch c).inflight = none) ∧
  (∀ c, (s.ch c).q.w = (s.ch c).q.r ∧ (s.ch c).q.ws = (s.ch c).q.w ∧ (s.ch c).q.rs = (s.ch c).q.r) ∧
  (∀ c, (s.ch c).f.w = (s.ch c).f.r ∧ (s.ch c).f.ws = (s.ch c).f.w) ∧
  (∀ b ∈ s.pending, b = false) ∧ (∀ e ∈ s.table, e.bound = false) ∧
  (∀ c, (s.ch c).txOut = []) ∧ s.cbOut = []

/-- FSM_c has an enabled step (43_channel_rx.md R175, 44_channel_tx.md R204). -/
def State.fsmEnabled (s : State) (c : Ch) : Bool :=
  if c.isTx then txKickEnabled (s.ch c) else rxRetryEnabled (s.ch c)

/-- Quiescence (70_reset_and_hazards.md R298): where a run is observed (`ObservedAt`). -/
abbrev State.Quiescent (s : State) : Prop :=
  s.busy = false ∧ s.leastPending = none ∧
  (∀ c, (s.ch c).q.ws = (s.ch c).q.w ∧ (s.ch c).q.rs = (s.ch c).q.r ∧ (s.ch c).f.ws = (s.ch c).f.w) ∧
  ∀ c, s.fsmEnabled c = false

/-! ### The transmit trace (44_channel_tx.md R209) -/

/-- The used bytes of chunk `h` of channel `c`. -/
def State.chunkBytes (s : State) (c : Ch) (h : Handle) : List Byte :=
  s.sys.readRun (chunkAddr s.cfg c h) ((s.ch c).usedOf h).toNat

/-- `bytes` are what a TX_PUT of this state sends: the bytes of its source (44_channel_tx.md R203), but for those the host wrote
while the copy was pending (20_memory.md R67; log 13). -/
abbrev State.Payload (s : State) (bytes : List Byte) : Prop :=
  bytes.length = s.lenOp.toNat ∧
  ∀ k, k < s.lenOp.toNat → s.isRaced (s.addrOp + k) = false → bytes[k]? = some (s.sys.read (s.addrOp + k))

/-- The payloads channel `c` has sent and has still to send, in order: the trace, the chunk of a transfer not yet completed,
the queue. -/
def State.backlog (s : State) (c : Ch) : List (List Byte) :=
  (s.ch c).txOut ++ (if (s.ch c).per.armed then ((s.ch c).inflight.toList.map (s.chunkBytes c)) else []) ++
    ((s.ch c).q.contents (s.cfg.chan c).k).map (s.chunkBytes c)

/-- The completion id of channel `c` is pending only for a transfer that has completed: no software trigger and no external
pulse stands behind the bit. -/
abbrev State.Unsimulated (s : State) (c : Ch) : Prop :=
  s.isPending (s.cfg.chan c).irq = true → (s.ch c).st = .active ∧ (s.ch c).per.armed = false

/-- The step executes command `i`. -/
abbrev State.Executes (s : State) (i : Instr) : Prop := s.turn = .cmdeng ∧ s.busy = true ∧ decode s.cmdL = .ok i

/-- The step is a software trigger of id `i`, an external pulse on it, or a reset. 44_channel_tx.md R209 names the trigger and the
reset; the pulse, which acts as the trigger does (46_peripheral.md R243), is the model's DESIGN CHOICE (log 33). -/
abbrev State.Disturbs (s : State) (i : Nat) : Prop :=
  (∃ irq : BitVec 4, s.Executes (.dispSwtrig irq) ∧ irq.toNat = i) ∨ s.turn = .extIrq i ∨ s.Executes .blkReset ∨
    s.turn = .rstN

/-! ### Runs, observation and fairness -/

/-- The agent has an enabled step (00_scope.md R8). -/
def Turn.enabled (t : Turn) (s : State) : Bool :=
  match t with
  | .host => true
  | .cmdeng => s.busy
  | .syncQueueW2R _ => true
  | .syncQueueR2W _ => true
  | .syncFreeW2R _ => true
  | .disp => s.leastPending.isSome
  | .fsm c => s.fsmEnabled c
  | .periph c => (s.ch c).per.en && (s.ch c).per.armed
  | .extIrq i => decide (i < s.cfg.m)
  | .rstN => true

/-- The agents whose steps are weakly fair (70_reset_and_hazards.md R296). -/
def Turn.fair : Turn → Bool
  | .host => false
  | .cmdeng => true
  | .syncQueueW2R _ => true
  | .syncQueueR2W _ => true
  | .syncFreeW2R _ => true
  | .disp => true
  | .fsm _ => true
  | .periph _ => false
  | .extIrq _ => false
  | .rstN => false

/-- A run that neither faults nor is refused: at step `n` agent `τ n` moves. `step` is `takeTurn` of the turn the state
itself holds, so a run is a run of `step` with the interleaving written beside the states instead of in them. -/
def IsRun (τ : Nat → Turn) (σ : Nat → State) : Prop := ∀ n, takeTurn (τ n) (σ n).advance = .next (σ (n + 1))

/-- The first `n` steps of a run: none of them faults or is refused, so no fault is recorded at `σ n` (log 10). -/
def IsRunTo (τ : Nat → Turn) (σ : Nat → State) (n : Nat) : Prop :=
  ∀ m, m < n → takeTurn (τ m) (σ m).advance = .next (σ (m + 1))

/-- What a run is observed through (00_scope.md R13), with the in-flight list of its end state (R298). -/
structure Observation where
  /-- (a) STATUS and RESULT as each executed command left them, oldest first. -/
  commands : List (Word × Word)
  /-- (b) The bytes of SYS. -/
  sys : Nat → Byte
  /-- (c) The trace of each transmit channel. -/
  txOutAtx : List (List Byte)
  txOutStx : List (List Byte)
  /-- (d) The external-callback invocations. -/
  cbOut : List CbEvent
  /-- `inflight_c` and `armed_c` of each channel, part of the end state (R298). -/
  inflight : List (Option Handle × Bool)

/-- The STATUS and RESULT that each command executed in the first `n` steps left (R13(a)). -/
def commandResults (τ : Nat → Turn) (σ : Nat → State) (n : Nat) : List (Word × Word) :=
  ((List.range n).filter fun m => τ m = .cmdeng && (σ m).busy).map fun m => ((σ (m + 1)).statusReg, (σ (m + 1)).result)

/-- What there is to observe after `n` steps (00_scope.md R13); `ObservedAt` says when it is an observation. -/
def observe (τ : Nat → Turn) (σ : Nat → State) (n : Nat) : Observation :=
  { commands := commandResults τ σ n, sys := (σ n).sys.read,
    txOutAtx := (σ n).chans.atx.txOut, txOutStx := (σ n).chans.stx.txOut, cbOut := (σ n).cbOut,
    inflight := Ch.all.map fun c => (((σ n).ch c).inflight, ((σ n).ch c).per.armed) }

/-- `o` is the observation of the run at step `n`: it is read at a quiescent state with no fault recorded, and transfers may
still be armed there (70_reset_and_hazards.md R298). -/
def ObservedAt (τ : Nat → Turn) (σ : Nat → State) (n : Nat) (o : Observation) : Prop :=
  IsRunTo τ σ n ∧ (σ n).Quiescent ∧ o = observe τ σ n

/-- Weak fairness (R296): a fair step that stays enabled is eventually taken. -/
def WeaklyFair (τ : Nat → Turn) (σ : Nat → State) : Prop :=
  ∀ t : Turn, t.fair = true → ∀ n, (∀ m, n ≤ m → t.enabled (σ m) = true) → ∃ m, n ≤ m ∧ τ m = t

end Sys2Proof.Machine
end

