-- ==== Sys2Proof/Certificates/Slice0/Obligations.lean ====
section
/-! DEFINITION. The statements for the provers. Each docstring names the rule of spec/ it formalises. -/

section

open Sys2Proof Sys2Proof.Machine

/-! ### Encoding (30_encoding.md) -/

/-- R86, R87: no bit of an encoding is dropped, for every command at every operand. -/
def Obligations.EncodedCommandDecodesBack : Prop := ∀ i : Instr, i.wf = true → decode (encode i) = .ok i

/-- R83, R84: a word has one meaning; what decodes is well formed, and its word is the word decoded. -/
def Obligations.DecodedWordEncodesBack : Prop :=
  ∀ (w : Word) (i : Instr), decode w = .ok i → i.wf = true ∧ encode i = w

/-- R83: a word selects the row whose `(w & mask) = match`, and no two rows overlap. -/
def Obligations.DecodingFollowsOpcodeMap : Prop :=
  ∀ w : Word,
    (∀ r ∈ opcodeMap, r.selects w = true ↔ ∃ i, decode w = .ok i ∧ i.mnemonic = r.mnemonic) ∧
    ∀ r ∈ opcodeMap, ∀ r' ∈ opcodeMap, r.selects w = true → r'.selects w = true → r = r'

/-- R82: the operands are the named fields of CMD_L, and ARG0_L and ARG1_L[15:0]. -/
def Obligations.OperandsAreFields : Prop :=
  (∀ (w : Word) (irq cb : BitVec 4) (ctx : Half), decode w = .ok (.dispReg irq cb ctx) →
    irq = w.extractLsb' 8 4 ∧ cb = w.extractLsb' 12 4 ∧ ctx = w.extractLsb' 16 16) ∧
  (∀ (w : Word) (irq : BitVec 4), decode w = .ok (.dispSwtrig irq) → irq = w.extractLsb' 8 4) ∧
  (∀ (w : Word) (c : Ch) (n : Byte), decode w = .ok (.chInit c n) →
    c.bits = w.extractLsb' 4 2 ∧ n = w.extractLsb' 8 8) ∧
  (∀ (w : Word) (c : Ch) (h : Handle), decode w = .ok (.rxRelease c h) →
    c.bits = w.extractLsb' 4 2 ∧ h = w.extractLsb' 8 8) ∧
  (∀ (w : Word) (c : Ch) (i : Instr), i ∈ [Instr.chStart c, .rxGet c, .rxGetNc c, .txPut c] → decode w = .ok i →
    c.bits = w.extractLsb' 4 2) ∧
  ∀ s : State, s.addrOp = s.arg0L.toNat ∧ s.lenOp = s.arg1L.extractLsb' 0 16

/-- R86: `enc(OPC, c, B, X) = OPC | (c << 4) | (B << 8) | (X << 16)`, with its examples. -/
def Obligations.EncodingFunction : Prop :=
  (∀ (opc : BitVec 4) (c : BitVec 2) (b : Byte) (x : Half),
    enc opc c b x = opc.setWidth 32 ||| (c.setWidth 32 <<< 4) ||| (b.setWidth 32 <<< 8) ||| (x.setWidth 32 <<< 16)) ∧
  (∀ (irq cb : BitVec 4) (ctx : Half),
    encode (.dispReg irq cb ctx) = enc 0x2#4 0#2 ((cb.setWidth 8 <<< 4) ||| irq.setWidth 8) ctx) ∧
  (∀ irq : BitVec 4, encode (.dispSwtrig irq) = enc 0x3#4 0#2 (irq.setWidth 8) 0#16) ∧
  encode (.chInit .srx 6#8) = 0x00000624#32 ∧ encode (.chStart .srx) = 0x00000025#32 ∧
  encode (.rxGet .arx) = 0x00000006#32 ∧ encode (.rxGetNc .srx) = 0x00000027#32 ∧
  encode (.rxRelease .srx 3#8) = 0x00000328#32 ∧ encode (.txPut .stx) = 0x00000039#32 ∧
  encode (.txPut .atx) = 0x00000019#32 ∧ encode (.dispReg 5#4 2#4 0xBEEF#16) = 0xBEEF2502#32 ∧
  encode (.dispSwtrig 7#4) = 0x00000703#32 ∧ encode .blkReset = 0x00000001#32

/-- Words of 95_test_vectors.md V-DEC, one of each family and one of each way to be no command. -/
def Obligations.ExampleWordsDecode : Prop :=
  decode 0x00000000#32 = .ok .nop ∧ decode 0xBEEF2502#32 = .ok (.dispReg 5#4 2#4 0xBEEF#16) ∧
  decode 0x00000624#32 = .ok (.chInit .srx 6#8) ∧ decode 0x00000026#32 = .ok (.rxGet .srx) ∧
  decode 0x00000328#32 = .ok (.rxRelease .srx 3#8) ∧ decode 0x00000039#32 = .ok (.txPut .stx) ∧
  decode 0x0000000A#32 = .error .reservedOpcode ∧ decode 0x00000084#32 = .error .nonzeroReserved ∧
  decode 0x00000105#32 = .error .nonzeroUnused ∧ decode 0x00000016#32 = .error .wrongDirection

/-! ### The command engine (45_command_port.md) -/

/-- R223: the CMDENG step runs the decoded command, then clears BUSY; a fault of it is the step's. -/
def Obligations.StepRunsDecodedCommand : Prop :=
  ∀ (s : State) (i : Instr), s.Executes i →
    (∀ t, exec i s.advance = .next t → step s = .next { t with busy := false }) ∧
    ∀ f, exec i s.advance = .fault f → step s = .fault f

/-- R84: every word selects exactly one row or is IllegalCommand, which changes CODE, RESULT and BUSY alone. -/
def Obligations.UndecodableWordIsIllegalCommand : Prop :=
  (∀ w : Word, (∃ r ∈ opcodeMap, r.selects w = true ∧ (∀ r' ∈ opcodeMap, r'.selects w = true → r' = r) ∧
      ∃ i, decode w = .ok i ∧ i.mnemonic = r.mnemonic) ∨
    (∀ r ∈ opcodeMap, r.selects w = false) ∧ ∃ e, decode w = .error e) ∧
  ∀ s : State, s.turn = .cmdeng → s.busy = true → (∀ r ∈ opcodeMap, r.selects s.cmdL = false) →
    step s = .next { s.advance with code := .illegalCommand, result := 0#32, busy := false }

/-- R223: "on any non-OK code nothing but CODE and RESULT changes". -/
def Obligations.FailingCommandChangesNothingElse : Prop :=
  ∀ (i : Instr) (s t : State), exec i s = .next t → t.code ≠ .ok → t = { s with code := t.code, result := 0#32 }

/-- R253: of the model's faults a command can raise only F2 (RX_GET, TX_PUT) and F4 (DISP_SWTRIG), and none is refused. -/
def Obligations.CommandsRaiseOnlyTheirFaults : Prop :=
  ∀ (i : Instr) (s : State), s.Inv →
    (∃ t, exec i s = .next t) ∨
    (exec i s = .fault .sysNotHostOwned ∧ ∃ c, i = .rxGet c ∨ i = .txPut c) ∨
    (exec i s = .fault .txCompletionWhileArmed ∧ ∃ irq, i = .dispSwtrig irq)

/-- R296, R299: until CMDENG executes it, a latched command and its operands stay latched. -/
def Obligations.LatchedCommandStaysLatched : Prop :=
  ∀ s t : State, step s = .next t → s.busy = true → s.turn ≠ .cmdeng → s.turn ≠ .rstN →
    t.busy = true ∧ t.cmdL = s.cmdL ∧ t.arg0L = s.arg0L ∧ t.arg1L = s.arg1L

/-- R296: "every issued command executes", in a weakly fair run without a reset, with the operands latched at issue. -/
def Obligations.EveryIssuedCommandExecutes : Prop :=
  ∀ (τ : Nat → Turn) (σ : Nat → State), IsRun τ σ → WeaklyFair τ σ → (∀ m, τ m ≠ .rstN) →
    ∀ n, (σ n).busy = true → ∃ m, n ≤ m ∧ τ m = .cmdeng ∧ (σ m).busy = true ∧
      (σ m).cmdL = (σ n).cmdL ∧ (σ m).arg0L = (σ n).arg0L ∧ (σ m).arg1L = (σ n).arg1L

/-- R221, with its corner case: any nonzero bit in [31:4] makes the word IllegalCommand. -/
def Obligations.NopOnlyClearsCodeAndResult : Prop :=
  (∀ s : State, exec .nop s = .next { s with code := .ok, result := 0#32 }) ∧
  ∀ w : Word, w.extractLsb' 0 4 = 0#4 → w ≠ 0#32 → ∃ e, decode w = .error e

/-- R280, R222: BLK_RESET, the assertion of `rst_n` and power-up leave every piece of state at its reset value; the first two
leave SYS as it was; power-up meets the launch premises of R284. The last clauses of the frame name the model's own
fields (log 13, 20, 27). That SYS holds no byte of a receive transfer cut off by the reset is the model's choice (log 35). -/
def Obligations.ResetValues : Prop :=
  (∀ s : State, ∃ t, exec .blkReset s = .next t ∧ t.AtReset ∧ t.ReadsReset ∧ t.sys = s.sys ∧ t.cfg = s.cfg ∧
    t.rdata = s.rdata ∧ t.sysRdata = s.sysRdata ∧ t.host = s.host ∧ t.schedule = s.schedule ∧ t.ticks = s.ticks ∧
    t.drawn = s.drawn ∧ t.raced = []) ∧
  (∀ s : State, s.turn = .rstN → ∃ t, step s = .next t ∧ t.AtReset ∧ t.ReadsReset ∧ t.sys = s.sys ∧
    t.cfg = s.cfg) ∧
  ∀ p : Params, (State.resetWith p).AtReset ∧ (State.resetWith p).ReadsReset ∧ (State.resetWith p).Launch

/-! ### The register window (10_state.md §7, 45_command_port.md §2) -/

/-- R227, R220: what an aligned 32-bit host write does at each offset of the window. The model's own `raced` starts empty for the
new command: the model's choice (log 13). -/
def Obligations.HostRegisterWrite : Prop :=
  ∀ (s u : State) (off : Nat) (v : Word) (rest : List HostOp),
    s.cfg.Legal → off < 0x100 → off % 4 = 0 → s.turn = .host →
    s.host = .writeReg .word (s.cfg.regAddr off) v :: rest → u = { s.advance with host := rest } →
    (off = 0x004 → s.busy = false →
      step s = .next { u with cmdL := v, arg0L := s.arg0, arg1L := s.arg1, busy := true, raced := [] }) ∧
    (off = 0x004 → s.busy = true → step s = .next { u with ovr := true }) ∧
    (off = 0x008 → step s = .next { u with arg0 := v }) ∧
    (off = 0x00C → step s = .next { u with arg1 := v }) ∧
    (off = 0x010 → v.getLsbD 8 = true → step s = .next { u with ovr := false }) ∧
    (off = 0x010 → v.getLsbD 8 = false → step s = .next u) ∧
    (off ≠ 0x004 → off ≠ 0x008 → off ≠ 0x00C → off ≠ 0x010 → step s = .next u)

/-- R226, R37: an aligned 32-bit host read returns the register at the offset, changes nothing else, and reads 0 at CMD and
where no register is. The value lands in the model's own `rdata` (log 20). -/
def Obligations.HostRegisterRead : Prop :=
  ∀ (s : State) (off : Nat) (rest : List HostOp),
    s.cfg.Legal → off < 0x100 → off % 4 = 0 → s.turn = .host →
    s.host = .readReg .word (s.cfg.regAddr off) :: rest →
    step s = .next { s.advance with host := rest, rdata := s.regRead off } ∧
    (off = 0x004 ∨ (0x01C ≤ off ∧ off < 0x040) ∨ (0x084 ≤ off ∧ off < 0x0C0) → s.regRead off = 0#32)

/-- R38, R40 to R43: the registers of the command port, field by field; and the number of each code (60_exceptions.md R250). -/
def Obligations.CommandPortRegisters : Prop :=
  (Code.ok.bits = 0#4 ∧ Code.invalidConfig.bits = 1#4 ∧ Code.poolExhausted.bits = 2#4 ∧ Code.queueFull.bits = 3#4 ∧
    Code.queueEmpty.bits = 4#4 ∧ Code.alreadyBound.bits = 5#4 ∧ Code.lengthError.bits = 6#4 ∧
    Code.invalidHandle.bits = 7#4 ∧ Code.badState.bits = 8#4 ∧ Code.illegalCommand.bits = 9#4) ∧
  ∀ s : State, s.cfg.Legal →
    s.regRead 0x000 = 0x54430001#32 ∧ s.regRead 0x008 = s.arg0 ∧ s.regRead 0x00C = s.arg1 ∧ s.regRead 0x014 = s.result ∧
    (s.regRead 0x010).extractLsb' 0 4 = s.code.bits ∧ (s.regRead 0x010).extractLsb' 4 4 = 0#4 ∧
    (s.regRead 0x010).getLsbD 8 = s.ovr ∧ (s.regRead 0x010).extractLsb' 9 22 = 0#22 ∧
    (s.regRead 0x010).getLsbD 31 = s.busy ∧
    ((s.regRead 0x018).extractLsb' 0 5).toNat = s.cfg.m ∧ (s.regRead 0x018).extractLsb' 5 3 = 0#3 ∧
    ((s.regRead 0x018).extractLsb' 8 6).toNat = s.cfg.addrW ∧ (s.regRead 0x018).extractLsb' 14 2 = 0#2 ∧
    ((s.regRead 0x018).extractLsb' 16 4).toNat = min s.cfg.syncStages 15 ∧
    (s.regRead 0x018).getLsbD 20 = s.cfg.async ∧ (s.regRead 0x018).extractLsb' 21 11 = 0#11

/-- R44 to R47: the four registers of each channel, field by field; and the number of each channel state (R23). -/
def Obligations.ChannelRegisters : Prop :=
  (ChState.uninit.bits = 0#2 ∧ ChState.idle.bits = 1#2 ∧ ChState.active.bits = 2#2 ∧ ChState.starved.bits = 3#2) ∧
  ∀ (s : State) (c : Ch) (stat qstat geom : Word), s.Inv →
    stat = s.regRead (0x040 + 0x10 * c.bits.toNat) → qstat = s.regRead (0x044 + 0x10 * c.bits.toNat) →
    geom = s.regRead (0x04C + 0x10 * c.bits.toNat) →
    (stat.extractLsb' 0 2 = (s.ch c).st.bits ∧ stat.getLsbD 2 = (s.ch c).inflight.isSome ∧ stat.extractLsb' 3 5 = 0#5 ∧
      stat.extractLsb' 8 8 = (s.ch c).inflight.getD 0#8 ∧ stat.extractLsb' 16 8 = (s.ch c).n ∧
      (stat.extractLsb' 24 8).toNat = (s.ch c).held.count true) ∧
    ((c.isRx = true → (qstat.extractLsb' 0 9).toNat = (s.ch c).q.occR (s.cfg.chan c).k) ∧
      (c.isTx = true → (qstat.extractLsb' 0 9).toNat = (s.ch c).q.occW (s.cfg.chan c).k) ∧
      qstat.extractLsb' 9 7 = 0#7 ∧
      (qstat.getLsbD 16 = true ↔ (qstat.extractLsb' 0 9).toNat = 0) ∧
      (qstat.getLsbD 17 = true ↔ (qstat.extractLsb' 0 9).toNat = (s.cfg.chan c).k) ∧
      qstat.extractLsb' 18 6 = 0#6 ∧
      (c.isTx = true → (qstat.extractLsb' 24 8).toNat = (s.ch c).f.occR (s.cfg.chan c).p) ∧
      (c.isRx = true → qstat.extractLsb' 24 8 = 0#8)) ∧
    s.regRead (0x048 + 0x10 * c.bits.toNat) = (s.cfg.chan c).base ∧
    ((geom.extractLsb' 0 16).toNat = (s.cfg.chan c).cap ∧ 2 ^ (geom.extractLsb' 16 4).toNat = (s.cfg.chan c).k ∧
      (geom.extractLsb' 20 1).toNat + 1 = c.ew ∧ geom.extractLsb' 21 3 = 0#3 ∧
      (geom.extractLsb' 24 8).toNat = (s.cfg.chan c).nmax)

/-- R48, R49: IRQ_PEND and DISP_ENT_i, bit by bit. -/
def Obligations.DispatcherRegisters : Prop :=
  ∀ s : State, s.cfg.Legal →
    (∀ i, i < s.cfg.m → (s.regRead 0x080).getLsbD i = s.isPending i) ∧
    (∀ i, s.cfg.m ≤ i → (s.regRead 0x080).getLsbD i = false) ∧
    (∀ i, i < s.cfg.m →
      (s.regRead (0x0C0 + 4 * i)).getLsbD 0 = (s.entry i).bound ∧ (s.regRead (0x0C0 + 4 * i)).extractLsb' 1 3 = 0#3 ∧
      (s.regRead (0x0C0 + 4 * i)).extractLsb' 4 4 = (s.entry i).cb ∧
      (s.regRead (0x0C0 + 4 * i)).extractLsb' 8 8 = 0#8 ∧
      (s.regRead (0x0C0 + 4 * i)).extractLsb' 16 16 = (s.entry i).ctx) ∧
    ∀ i, s.cfg.m ≤ i → i < 16 → s.regRead (0x0C0 + 4 * i) = 0#32

/-- R228: an access to the window that is not an aligned 32-bit word faults (F1 of 60_exceptions.md R253); an access outside it
is not an access to the block. -/
def Obligations.MisalignedRegisterAccessFaults : Prop :=
  ∀ (s : State) (width : Width) (addr v : Word) (op : HostOp) (rest : List HostOp),
    s.turn = .host → op = .readReg width addr ∨ op = .writeReg width addr v → s.host = op :: rest →
    (s.cfg.regBase.toNat < addr.toNat + width.bytes → addr.toNat < s.cfg.regBase.toNat + 0x100 →
      width ≠ .word ∨ addr.toNat % 4 ≠ 0 → step s = .fault .registerAccess) ∧
    (addr.toNat + width.bytes ≤ s.cfg.regBase.toNat ∨ s.cfg.regBase.toNat + 0x100 ≤ addr.toNat →
      step s = .next { s.advance with host := rest })

/-! ### The host and SYS (20_memory.md, 60_exceptions.md R254) -/

/-- R254: a range is host-owned when no byte of it lies in a chunk of an initialised channel, but for the chunks of a receive
channel that the host holds. -/
def Obligations.HostOwnershipOfBytes : Prop :=
  ∀ (s : State) (a n : Nat), s.cfg.Legal →
    (s.hostOwns a n = true ↔ ∀ x, a ≤ x → x < a + n → ∀ (c : Ch) (h : Handle),
      chunkAddr s.cfg c h ≤ x → x < chunkAddr s.cfg c h + (s.cfg.chan c).cap → h.toNat < (s.ch c).n.toNat →
      (s.ch c).st ≠ .uninit → c.isRx = true ∧ (s.ch c).holds h = true)

/-- R253 (F2), R74, R69: a host access to bytes of SYS that are not host-owned faults; a read of host-owned bytes gives them, but
for those that a pending copy writes, which are free (R67; log 13); a write of them changes them and no other byte. That the
bytes lie in SYS is a premise (log 14). That one step moves all n bytes (log 30) and that what was read is the field `sysRdata`
(log 20) are the model's choices. -/
def Obligations.HostSysAccess : Prop :=
  ∀ (s u : State) (addr : Word) (n : Nat) (bytes : List Byte) (rest : List HostOp),
    s.Inv → s.turn = .host → u = { s.advance with host := rest } → bytes.length = n → addr.toNat + n ≤ s.cfg.sysSize →
    (s.host = .readSys addr n :: rest ∨ s.host = .writeSys addr bytes :: rest → s.hostOwns addr.toNat n = false →
      step s = .fault .sysNotHostOwned) ∧
    (s.host = .readSys addr n :: rest → s.hostOwns addr.toNat n = true →
      ∃ t, step s = .next t ∧ t.sysRdata.length = n ∧
        (∀ k, k < n → u.copyWrites (addr.toNat + k) = false → t.sysRdata[k]? = some (s.sys.read (addr.toNat + k))) ∧
        t = { u with sysRdata := t.sysRdata }) ∧
    (s.host = .writeSys addr bytes :: rest → s.hostOwns addr.toNat n = true →
      ∃ t, step s = .next t ∧ (∀ k, k < n → bytes[k]? = some (t.sys.read (addr.toNat + k))) ∧
        SysSameOutside addr.toNat n s t ∧ t = { u with sys := t.sys, raced := t.raced } ∧
        (s.busy = false → t.raced = s.raced) ∧
        (s.busy = true → ∀ x, t.isRaced x = true ↔ addr.toNat ≤ x ∧ x < addr.toNat + n ∨ s.isRaced x = true))

/-- R63, R101: an element reads back as it was written, in the view of its width, and no other byte changes. -/
def Obligations.ViewElementReadsBack : Prop :=
  ∀ (m : Memory) (a i : Nat) (v : Half), m.wf →
    ((m.viewWrite 2 a i v).viewRead 2 a i = v ∧ (m.viewWrite 1 a i v).viewRead 1 a i = (v.extractLsb' 0 8).setWidth 16) ∧
    ((m.viewWrite 2 a i v).viewRead 1 a (2 * i) = (v.extractLsb' 0 8).setWidth 16 ∧
      (m.viewWrite 2 a i v).viewRead 1 a (2 * i + 1) = (v.extractLsb' 8 8).setWidth 16) ∧
    (∀ x, x ≠ a + 2 * i → x ≠ a + 2 * i + 1 → (m.viewWrite 2 a i v).read x = m.read x) ∧
    ∀ x, x ≠ a + i → (m.viewWrite 1 a i v).read x = m.read x

/-- R103: a copy writes byte k after the bytes below it, so overlapping ranges are copied forward; disjoint ranges end equal. -/
def Obligations.CopyIsForwardByteByByte : Prop :=
  (∀ (m : Memory) (dst src n : Nat),
    m.copyUp dst src (n + 1) = (m.copyUp dst src n).write (dst + n) ((m.copyUp dst src n).read (src + n))) ∧
  ∀ (m : Memory) (dst src n : Nat), m.wf → dst + n ≤ src ∨ src + n ≤ dst →
    (m.copyUp dst src n).readRun dst n = m.readRun src n ∧
    ∀ x, x < dst ∨ dst + n ≤ x → (m.copyUp dst src n).read x = m.read x

/-! ### The dispatcher (42_dispatch.md) -/

/-- R150: DISP_REG, its checks in order and its effect. -/
def Obligations.DispRegBindsOrRefuses : Prop :=
  ∀ (s : State) (irq cb : BitVec 4) (ctx : Half), s.Inv →
    (s.cfg.m ≤ irq.toNat ∨ cb = 0#4 ∨ cb = 1#4 → Raises (.dispReg irq cb ctx) s .invalidConfig) ∧
    (irq.toNat < s.cfg.m → cb ≠ 0#4 → cb ≠ 1#4 → (s.entry irq.toNat).bound = true →
      Raises (.dispReg irq cb ctx) s .alreadyBound) ∧
    (irq.toNat < s.cfg.m → cb ≠ 0#4 → cb ≠ 1#4 → (s.entry irq.toNat).bound = false →
      ∃ t, exec (.dispReg irq cb ctx) s = .next t ∧ t.code = .ok ∧ t.result = 0#32 ∧
        t.entry irq.toNat = { bound := true, cb := cb, ctx := ctx } ∧ (∀ j, j ≠ irq.toNat → t.entry j = s.entry j) ∧
        t.pending = s.pending ∧ t.cbOut = s.cbOut ∧ t.chans = s.chans ∧ SameSys s t ∧ SamePort s t)

/-- R151, R253 (F4): DISP_SWTRIG. -/
def Obligations.DispSwtrigSetsPending : Prop :=
  ∀ (s : State) (irq : BitVec 4), s.Inv →
    (s.cfg.m ≤ irq.toNat → Raises (.dispSwtrig irq) s .invalidConfig) ∧
    (irq.toNat < s.cfg.m → (∃ c : Ch, c.isTx = true ∧ (s.cfg.chan c).irq = irq.toNat ∧ (s.ch c).per.armed = true) →
      exec (.dispSwtrig irq) s = .fault .txCompletionWhileArmed) ∧
    (irq.toNat < s.cfg.m → (∀ c : Ch, c.isTx = true → (s.cfg.chan c).irq = irq.toNat → (s.ch c).per.armed = false) →
      ∃ t, exec (.dispSwtrig irq) s = .next t ∧ t.code = .ok ∧ t.result = 0#32 ∧ t.isPending irq.toNat = true ∧
        (∀ j, j ≠ irq.toNat → t.isPending j = s.isPending j) ∧ t.table = s.table ∧ t.cbOut = s.cbOut ∧ t.chans = s.chans ∧
        SameSys s t ∧ SamePort s t)

/-- R153, R155: a dispatch serves the least pending id and runs the handler its entry names: by ctx[1:0] alone
(log 28). SYS is unchanged, but for the programmed range of a receive transfer still armed, whose bytes are free (R292; log 32). -/
def Obligations.DispatchServesLeastPending : Prop :=
  ∀ (s : State) (i : Nat), s.turn = .disp → i < s.cfg.m → s.isPending i = true →
    (∀ j, j < i → s.isPending j = false) →
    ∃ t, step s = .next t ∧ t.isPending i = false ∧ (∀ j, j ≠ i → t.isPending j = s.isPending j) ∧ t.table = s.table ∧
      t.code = s.code ∧ t.result = s.result ∧ SamePort { s.advance with drawn := t.drawn } t ∧
      (∀ c : Ch, (s.entry i).bound = true → (s.entry i).cb = 0#4 → c.bits = (s.entry i).ctx.extractLsb' 0 2 →
        (s.ch c).st = .active → (s.ch c).per.armed = true →
        (s.sys.wf → (∀ k, k < (s.ch c).per.transferBytes →
            t.sys.read ((s.ch c).per.cfgAddr.toNat + k) = Config.rxByte (s.drawn + k)) ∧
          SysSameOutside (s.ch c).per.cfgAddr.toNat (s.ch c).per.transferBytes s t) ∧
        t.drawn = s.drawn + (s.ch c).per.transferBytes) ∧
      ((s.entry i).bound = false ∨ (s.entry i).cb ≠ 0#4 ∨
          (∀ c : Ch, c.bits = (s.entry i).ctx.extractLsb' 0 2 → (s.ch c).st ≠ .active ∨ (s.ch c).per.armed = false) →
        SameSys s t ∧ t.drawn = s.drawn) ∧
      (∀ c : Ch, (s.entry i).bound = true → (s.entry i).cb = 0#4 → c.bits = (s.entry i).ctx.extractLsb' 0 2 →
        t.ch c = rxComplete s.cfg c (s.ch c) ∧ OtherChans c s t ∧ t.cbOut = s.cbOut) ∧
      (∀ c : Ch, (s.entry i).bound = true → (s.entry i).cb = 1#4 → c.bits = (s.entry i).ctx.extractLsb' 0 2 →
        t.ch c = txComplete s.cfg c (s.ch c) ∧ OtherChans c s t ∧ t.cbOut = s.cbOut) ∧
      ((s.entry i).bound = true → (s.entry i).cb ≠ 0#4 → (s.entry i).cb ≠ 1#4 → t.chans = s.chans ∧
        t.cbOut = s.cbOut ++ [{ irq := BitVec.ofNat 4 i, cb := (s.entry i).cb, ctx := (s.entry i).ctx }]) ∧
      ((s.entry i).bound = false → t.chans = s.chans ∧ t.cbOut = s.cbOut)

/-- R158, R157(a), R32: a bound entry is never removed and never overwritten, except by a reset; only DISP_REG of the id and
CH_INIT of its channel bind one. -/
def Obligations.BoundEntriesPersist : Prop :=
  ∀ (s t : State) (i : Nat), step s = .next t → ¬s.Executes .blkReset → s.turn ≠ .rstN →
    ((s.entry i).bound = true → t.entry i = s.entry i) ∧
    ((s.entry i).bound = false → (t.entry i).bound = true →
      (∃ irq cb ctx, s.Executes (.dispReg irq cb ctx) ∧ irq.toNat = i) ∨
      ∃ c count, s.Executes (.chInit c count) ∧ (s.cfg.chan c).irq = i)

/-- R243, R253 (F4), R292: a pulse on an external line. -/
def Obligations.ExternalPulseSetsPending : Prop :=
  ∀ (s : State) (i : Nat), s.Inv → s.turn = .extIrq i → i < s.cfg.m →
    ((∃ c : Ch, c.isTx = true ∧ (s.cfg.chan c).irq = i ∧ (s.ch c).per.armed = true) →
      step s = .fault .txCompletionWhileArmed) ∧
    ((∀ c : Ch, c.isTx = true → (s.cfg.chan c).irq = i → (s.ch c).per.armed = false) →
      ∃ t, step s = .next t ∧ t.isPending i = true ∧ (∀ j, j ≠ i → t.isPending j = s.isPending j) ∧
        t = { s.advance with pending := t.pending })

/-! ### Rings and pools (41_async_fifo.md, 40_chunk_pool.md) -/

/-- R121: `bin_W(gray_W(b)) = b` for every b, and each binary bit is the exclusive or of the gray bits at and above it. -/
def Obligations.GrayDecodesBack : Prop :=
  ∀ (w : Nat) (b : BitVec w), bin (gray b) = b ∧
    ∀ i, (bin b).getLsbD i = ((List.range w).map fun k => b.getLsbD (i + k)).foldl xor false

/-- R122: one step of a pointer changes exactly one bit of its gray code, the wrap included. -/
def Obligations.GrayStepChangesOneBit : Prop :=
  ∀ (w : Nat) (b : BitVec w), 0 < w →
    ∃ i, i < w ∧ ∀ j, (gray (b + 1)).getLsbD j = ((gray b).getLsbD j ^^ decide (j = i))

/-- R124: the producer's full test, on the binary values and on the gray codes. -/
def Obligations.FullTestsAgree : Prop :=
  ∀ (k a b : Nat), a < 2 * 2 ^ k → b < 2 * 2 ^ k →
    (ptrSub (2 ^ k) a b = 2 ^ k ↔ BitVec.ofNat (k + 1) a ^^^ BitVec.ofNat (k + 1) b = BitVec.twoPow (k + 1) k) ∧
    (1 ≤ k → (ptrSub (2 ^ k) a b = 2 ^ k ↔
      gray (BitVec.ofNat (k + 1) a) ^^^ gray (BitVec.ofNat (k + 1) b) = 3#(k + 1) <<< (k - 1))) ∧
    (k = 0 → (ptrSub (2 ^ k) a b = 2 ^ k ↔ gray (BitVec.ofNat (k + 1) a) ≠ gray (BitVec.ofNat (k + 1) b)))

/-- R126: the SYNC steps are always enabled and write the receiving domain's copy alone. -/
def Obligations.SyncStepsCopyPointers : Prop :=
  ∀ (s : State) (c : Ch),
    (s.turn = .syncQueueW2R c → step s = .next (s.advance.setCh c { s.ch c with q := { (s.ch c).q with ws := (s.ch c).q.w } })) ∧
    (s.turn = .syncQueueR2W c → step s = .next (s.advance.setCh c { s.ch c with q := { (s.ch c).q with rs := (s.ch c).q.r } })) ∧
    (s.turn = .syncFreeW2R c → step s = .next (s.advance.setCh c { s.ch c with f := { (s.ch c).f with ws := (s.ch c).f.w } }))

/-- R127, R136: the consumer sees at most what is there, the producer at least, and the queue never holds more than K_c. -/
def Obligations.ViewsBoundOccupancy : Prop :=
  ∀ (s : State) (c : Ch), s.Inv → (s.ch c).st ≠ .uninit →
    (s.ch c).q.occR (s.cfg.chan c).k ≤ (s.ch c).q.occ (s.cfg.chan c).k ∧
    (s.ch c).q.occ (s.cfg.chan c).k ≤ (s.ch c).q.occW (s.cfg.chan c).k ∧
    (s.ch c).q.occW (s.cfg.chan c).k ≤ (s.cfg.chan c).k ∧
    (s.ch c).f.occR (s.cfg.chan c).p ≤ (s.ch c).f.occ (s.cfg.chan c).p ∧
    (s.ch c).f.occ (s.cfg.chan c).p ≤ (s.ch c).n.toNat

/-- R51: each handle of an initialised channel is in exactly one place, and the places add up to n_c. -/
def Obligations.EachHandleInOnePlace : Prop :=
  ∀ (s : State) (c : Ch), s.Inv → (s.ch c).st ≠ .uninit →
    (∀ h : Handle, h.toNat < (s.ch c).n.toNat →
      ((s.ch c).f.contents (s.cfg.chan c).p).count h + ((s.ch c).q.contents (s.cfg.chan c).k).count h +
        (if (s.ch c).inflight = some h then 1 else 0) + (if (s.ch c).holds h then 1 else 0) = 1) ∧
    (s.ch c).f.occ (s.cfg.chan c).p + (s.ch c).q.occ (s.cfg.chan c).k + (s.ch c).inflight.toList.length +
      (s.ch c).held.count true = (s.ch c).n.toNat

/-- R130, R131, R132, R135: Q_PUT appends at the tail or fails with nothing changed, Q_GET takes the head or fails with nothing
changed, Q_HEAD looks at it. -/
def Obligations.QueueIsFifo : Prop :=
  ∀ (d : Nat) (q : Queue) (h : Handle), q.Ok d →
    (q.occW d = d → q.put d h = none) ∧
    (q.occW d ≠ d → ∃ q', q.put d h = some q' ∧ q'.Ok d ∧ q'.contents d = q.contents d ++ [h] ∧
      q'.r = q.r ∧ q'.ws = q.ws ∧ q'.rs = q.rs) ∧
    (q.r = q.ws → q.get d = none ∧ q.head d = none) ∧
    (q.r ≠ q.ws → ∃ g q', q.get d = some (g, q') ∧ q.head d = some g ∧ q'.Ok d ∧ q.contents d = g :: q'.contents d ∧
      q'.w = q.w ∧ q'.ws = q.ws ∧ q'.rs = q.rs ∧ q'.slots = q.slots)

/-- R105, R106, R109: acquire takes the oldest free handle in its view and resets its used length, or fails with nothing
changed; release appends a handle of the channel that is outside the ring. -/
def Obligations.PoolIsFifo : Prop :=
  ∀ (p : Params) (c : Ch) (x : Chan), p.Legal → x.Live p c →
    (x.f.r = x.f.ws → acquire p c x = none) ∧
    (x.f.r ≠ x.f.ws → ∃ h y, acquire p c x = some (h, y) ∧ x.f.contents (p.chan c).p = h :: y.f.contents (p.chan c).p ∧
      y.usedOf h = 0#16 ∧ (∀ g, g ≠ h → y.usedOf g = x.usedOf g) ∧ y.f.w = x.f.w ∧ y.f.ws = x.f.ws ∧
      y = { x with f := y.f, used := y.used }) ∧
    ∀ h : Handle, h.toNat < x.n.toNat → h ∉ x.f.contents (p.chan c).p →
      (release p c h x).f.contents (p.chan c).p = x.f.contents (p.chan c).p ++ [h] ∧
      (release p c h x).f.r = x.f.r ∧ (release p c h x).f.ws = x.f.ws ∧
      release p c h x = { x with f := (release p c h x).f }

/-! ### Channel configuration (43_channel_rx.md R170, R171; 44_channel_tx.md R200, R201) -/

/-- R170, R200: CH_INIT, its checks in order and its effect, for both directions. -/
def Obligations.ChInitFillsThePool : Prop :=
  ∀ (s : State) (c : Ch) (count : Byte), s.Inv →
    ((s.ch c).st ≠ .uninit → Raises (.chInit c count) s .badState) ∧
    ((s.ch c).st = .uninit → count = 0#8 ∨ (s.cfg.chan c).nmax < count.toNat → Raises (.chInit c count) s .invalidConfig) ∧
    ((s.ch c).st = .uninit → count ≠ 0#8 → count.toNat ≤ (s.cfg.chan c).nmax →
      (s.entry (s.cfg.chan c).irq).bound = true → Raises (.chInit c count) s .alreadyBound) ∧
    (ChInitReady c count s → ∃ t, exec (.chInit c count) s = .next t ∧ t.code = .ok ∧ t.result = 0#32 ∧
      (t.ch c).st = .idle ∧ (t.ch c).n = count ∧ (t.ch c).inflight = none ∧
      (t.ch c).f.contents (s.cfg.chan c).p = (List.range count.toNat).map (BitVec.ofNat 8) ∧
      (t.ch c).f.w = count.toNat ∧ (t.ch c).f.r = 0 ∧ (t.ch c).f.ws = count.toNat ∧
      (t.ch c).q.w = 0 ∧ (t.ch c).q.r = 0 ∧ (t.ch c).q.ws = 0 ∧ (t.ch c).q.rs = 0 ∧
      (∀ h, (t.ch c).usedOf h = 0#16) ∧ (∀ h, (t.ch c).holds h = false) ∧
      (t.ch c).per = { cfgAddr := 0#32, cfgCount := 0#16, cfgStride := 0#2, en := false, armed := false } ∧
      (t.ch c).txOut = (s.ch c).txOut ∧
      t.entry (s.cfg.chan c).irq =
        { bound := true, cb := if c.isRx then 0#4 else 1#4, ctx := c.bits.setWidth 16 } ∧
      (∀ j, j ≠ (s.cfg.chan c).irq → t.entry j = s.entry j) ∧ t.pending = s.pending ∧ t.cbOut = s.cbOut ∧
      OtherChans c s t ∧ SameSys s t ∧ SamePort s t)

/-- R171: CH_START on a receive channel, its checks in order and its effect. -/
def Obligations.ChStartArmsReceive : Prop :=
  ∀ (s : State) (c : Ch), s.Inv → c.isRx = true →
    ((s.ch c).st ≠ .idle → Raises (.chStart c) s .badState) ∧
    ((s.ch c).st = .idle → (s.ch c).f.r = (s.ch c).f.ws → Raises (.chStart c) s .poolExhausted) ∧
    ((s.ch c).st = .idle → (s.ch c).f.r ≠ (s.ch c).f.ws →
      ∃ t h, exec (.chStart c) s = .next t ∧ t.code = .ok ∧ t.result = h.setWidth 32 ∧
        (s.ch c).f.contents (s.cfg.chan c).p = h :: (t.ch c).f.contents (s.cfg.chan c).p ∧
        (t.ch c).st = .active ∧ (t.ch c).inflight = some h ∧ (t.ch c).usedOf h = 0#16 ∧
        (∀ g, g ≠ h → (t.ch c).usedOf g = (s.ch c).usedOf g) ∧
        (t.ch c).per.cfgAddr.toNat = chunkAddr s.cfg c h ∧ (t.ch c).per.cfgStride.toNat = c.ew ∧
        (t.ch c).per.cfgCount.toNat = (s.cfg.chan c).cap / c.ew ∧ (t.ch c).per.en = true ∧ (t.ch c).per.armed = true ∧
        (t.ch c).f.w = (s.ch c).f.w ∧ (t.ch c).f.ws = (s.ch c).f.ws ∧ (t.ch c).q = (s.ch c).q ∧
        (t.ch c).n = (s.ch c).n ∧ (t.ch c).held = (s.ch c).held ∧ (t.ch c).txOut = (s.ch c).txOut ∧ OnlyChan c s t)

/-- R201: CH_START on a transmit channel. -/
def Obligations.ChStartOnTransmitDoesNothing : Prop :=
  ∀ (s : State) (c : Ch), c.isTx = true →
    ((s.ch c).st = .uninit → Raises (.chStart c) s .badState) ∧
    ((s.ch c).st ≠ .uninit → exec (.chStart c) s = .next { s with code := .ok, result := 0#32 })

/-! ### Receive channel (43_channel_rx.md) -/

/-- R172, R173, R174, R182: the RX_COMPLETE handler, on every path; with nothing in flight it does nothing, whatever the
channel holds. -/
def Obligations.RxCompletePaths : Prop :=
  ∀ (p : Params) (c : Ch) (x y : Chan) (h : Handle), y = rxComplete p c x →
    (x.st ≠ .active → y = x) ∧
    (p.Legal → c.isRx = true → x.Live p c → x.inflight = some h →
      (y.usedOf h = BitVec.ofNat 16 (p.chan c).cap ∧ (∀ g, g ≠ h → y.inflight ≠ some g → y.usedOf g = x.usedOf g) ∧
        y.n = x.n ∧ y.held = x.held ∧ y.txOut = x.txOut ∧ y.q.r = x.q.r ∧ y.q.ws = x.q.ws ∧ y.q.rs = x.q.rs ∧
        y.f.w = x.f.w ∧ y.f.ws = x.f.ws) ∧
      (x.q.occW (p.chan c).k = (p.chan c).k →
        y.q = x.q ∧ y.f = x.f ∧ y.inflight = some h ∧ y.st = .active ∧ programmedFor p c h y ∧ y.per.armed = true) ∧
      (x.q.occW (p.chan c).k ≠ (p.chan c).k → y.q.contents (p.chan c).k = x.q.contents (p.chan c).k ++ [h]) ∧
      (x.q.occW (p.chan c).k ≠ (p.chan c).k → x.f.r ≠ x.f.ws →
        ∃ g, x.f.contents (p.chan c).p = g :: y.f.contents (p.chan c).p ∧ y.inflight = some g ∧ y.st = .active ∧
          y.usedOf g = 0#16 ∧ programmedFor p c g y ∧ y.per.armed = true) ∧
      (x.q.occW (p.chan c).k ≠ (p.chan c).k → x.f.r = x.f.ws →
        y.f = x.f ∧ y.inflight = none ∧ y.st = .starved ∧ y.per = { x.per with en := false, armed := false }))

/-- R175: the Rx retry step, where it is enabled. -/
def Obligations.RxRetryRearms : Prop :=
  ∀ (s : State) (c : Ch), s.Inv → c.isRx = true → s.turn = .fsm c → (s.ch c).st = .starved →
    (s.ch c).f.r ≠ (s.ch c).f.ws →
    ∃ t h, step s = .next t ∧ (s.ch c).f.contents (s.cfg.chan c).p = h :: (t.ch c).f.contents (s.cfg.chan c).p ∧
      (t.ch c).inflight = some h ∧ (t.ch c).st = .active ∧ programmedFor s.cfg c h (t.ch c) ∧ (t.ch c).per.armed = true ∧
      (t.ch c).usedOf h = 0#16 ∧ (∀ g, g ≠ h → (t.ch c).usedOf g = (s.ch c).usedOf g) ∧
      (t.ch c).f.w = (s.ch c).f.w ∧ (t.ch c).f.ws = (s.ch c).f.ws ∧ (t.ch c).f.slots = (s.ch c).f.slots ∧
      (t.ch c).q = (s.ch c).q ∧ (t.ch c).n = (s.ch c).n ∧ (t.ch c).held = (s.ch c).held ∧
      (t.ch c).txOut = (s.ch c).txOut ∧ t.code = s.code ∧ t.result = s.result ∧ OnlyChan c s.advance t

/-- R176: RX_GET, its checks in order and its effect; the bytes stored are the chunk's, at ARG0_L and nowhere else. A byte the host
wrote there while the copy was pending raced with it and is free (R67; log 13). -/
def Obligations.RxGetCopiesAndReleases : Prop :=
  ∀ (s : State) (c : Ch) (h : Handle) (u : Nat), s.Inv → c.isRx = true →
    h = (s.ch c).q.front (s.cfg.chan c).k → u = ((s.ch c).usedOf h).toNat →
    ((s.ch c).st = .uninit → Raises (.rxGet c) s .badState) ∧
    ((s.ch c).st ≠ .uninit → (s.ch c).q.r = (s.ch c).q.ws → Raises (.rxGet c) s .queueEmpty) ∧
    ((s.ch c).st ≠ .uninit → (s.ch c).q.r ≠ (s.ch c).q.ws →
      s.cfg.sysSize ≤ s.addrOp ∨ s.lenOp.toNat < u ∨ s.cfg.sysSize < s.addrOp + u → Raises (.rxGet c) s .lengthError) ∧
    (RxGetReady c s → ∃ t, exec (.rxGet c) s = .next t ∧ t.code = .ok ∧ t.result.toNat = u ∧ u = (s.cfg.chan c).cap ∧
      (∀ k, k < u → s.isRaced (s.addrOp + k) = false →
        t.sys.read (s.addrOp + k) = s.sys.read (chunkAddr s.cfg c h + k)) ∧ SysSameOutside s.addrOp u s t ∧
      (s.ch c).q.contents (s.cfg.chan c).k = h :: (t.ch c).q.contents (s.cfg.chan c).k ∧
      (t.ch c).q.w = (s.ch c).q.w ∧ (t.ch c).q.rs = (s.ch c).q.rs ∧ (t.ch c).q.ws = (s.ch c).q.ws ∧
      (t.ch c).q.slots = (s.ch c).q.slots ∧
      (t.ch c).f.contents (s.cfg.chan c).p = (s.ch c).f.contents (s.cfg.chan c).p ++ [h] ∧
      (t.ch c).f.r = (s.ch c).f.r ∧ (t.ch c).f.ws = (s.ch c).f.ws ∧
      (t.ch c).st = (s.ch c).st ∧ (t.ch c).inflight = (s.ch c).inflight ∧ (t.ch c).n = (s.ch c).n ∧
      (t.ch c).used = (s.ch c).used ∧ (t.ch c).held = (s.ch c).held ∧ (t.ch c).per = (s.ch c).per ∧
      (t.ch c).txOut = (s.ch c).txOut ∧ OtherChans c s t ∧ SameDispatcher s t ∧ SamePort s t)

/-- R177: RX_GET_NC, its checks in order and its effect. -/
def Obligations.RxGetNcHandsOver : Prop :=
  ∀ (s : State) (c : Ch), s.Inv → c.isRx = true →
    ((s.ch c).st = .uninit → Raises (.rxGetNc c) s .badState) ∧
    ((s.ch c).st ≠ .uninit → (s.ch c).q.r = (s.ch c).q.ws → Raises (.rxGetNc c) s .queueEmpty) ∧
    (RxGetNcReady c s → ∃ t h, exec (.rxGetNc c) s = .next t ∧ t.code = .ok ∧
      t.result = ((s.ch c).usedOf h).setWidth 32 <<< 16 ||| h.setWidth 32 ∧
      (s.ch c).q.contents (s.cfg.chan c).k = h :: (t.ch c).q.contents (s.cfg.chan c).k ∧
      (s.ch c).holds h = false ∧ (t.ch c).holds h = true ∧ (∀ g, g ≠ h → (t.ch c).holds g = (s.ch c).holds g) ∧
      (t.ch c).q.w = (s.ch c).q.w ∧ (t.ch c).q.rs = (s.ch c).q.rs ∧ (t.ch c).q.ws = (s.ch c).q.ws ∧
      (t.ch c).q.slots = (s.ch c).q.slots ∧ (t.ch c).f = (s.ch c).f ∧
      (t.ch c).st = (s.ch c).st ∧ (t.ch c).inflight = (s.ch c).inflight ∧ (t.ch c).n = (s.ch c).n ∧
      (t.ch c).used = (s.ch c).used ∧ (t.ch c).per = (s.ch c).per ∧ (t.ch c).txOut = (s.ch c).txOut ∧ OnlyChan c s t)

/-- R253 (F2), R293: an RX_GET whose checks pass and whose destination bytes are not all host-owned faults, and so does a
TX_PUT whose source bytes are not. Which bytes, at which state, and that it is asked after every check: log 11, 12, 29. -/
def Obligations.CopyOnBlockMemoryFaults : Prop :=
  (∀ (s : State) (c : Ch) (u : Nat), c.isRx = true → (s.ch c).st ≠ .uninit → (s.ch c).q.r ≠ (s.ch c).q.ws →
    u = ((s.ch c).usedOf ((s.ch c).q.front (s.cfg.chan c).k)).toNat → s.addrOp < s.cfg.sysSize → u ≤ s.lenOp.toNat →
    s.addrOp + u ≤ s.cfg.sysSize → s.hostOwns s.addrOp u = false → exec (.rxGet c) s = .fault .sysNotHostOwned) ∧
  ∀ (s : State) (c : Ch), c.isTx = true → (s.ch c).st ≠ .uninit → 1 ≤ s.lenOp.toNat →
    s.lenOp.toNat ≤ (s.cfg.chan c).cap → s.lenOp.toNat % c.ew = 0 → s.addrOp + s.lenOp.toNat ≤ s.cfg.sysSize →
    (s.ch c).q.occW (s.cfg.chan c).k ≠ (s.cfg.chan c).k → (s.ch c).f.r ≠ (s.ch c).f.ws →
    s.hostOwns s.addrOp s.lenOp.toNat = false → exec (.txPut c) s = .fault .sysNotHostOwned

/-- R178: RX_RELEASE, its checks in order and its effect. -/
def Obligations.RxReleaseReturnsChunk : Prop :=
  ∀ (s : State) (c : Ch) (h : Handle), s.Inv → c.isRx = true →
    ((s.ch c).st = .uninit → Raises (.rxRelease c h) s .badState) ∧
    ((s.ch c).st ≠ .uninit → (s.ch c).n.toNat ≤ h.toNat ∨ (s.ch c).holds h = false →
      Raises (.rxRelease c h) s .invalidHandle) ∧
    (RxReleaseReady c h s → ∃ t, exec (.rxRelease c h) s = .next t ∧ t.code = .ok ∧ t.result = 0#32 ∧
      (t.ch c).holds h = false ∧ (∀ g, g ≠ h → (t.ch c).holds g = (s.ch c).holds g) ∧
      (t.ch c).f.contents (s.cfg.chan c).p = (s.ch c).f.contents (s.cfg.chan c).p ++ [h] ∧
      (t.ch c).f.r = (s.ch c).f.r ∧ (t.ch c).f.ws = (s.ch c).f.ws ∧ (t.ch c).q = (s.ch c).q ∧
      (t.ch c).st = (s.ch c).st ∧ (t.ch c).inflight = (s.ch c).inflight ∧ (t.ch c).n = (s.ch c).n ∧
      (t.ch c).used = (s.ch c).used ∧ (t.ch c).per = (s.ch c).per ∧ (t.ch c).txOut = (s.ch c).txOut ∧ OnlyChan c s t)

/-- R180: a receive channel under load. With n_c >= K_c + 1 exactly K_c chunks are retained and every later completion re-uses
handle K_c; with n_c <= K_c the pool runs out and the channel ends STARVED with all n_c chunks queued. -/
def Obligations.ReceiveUnderLoad : Prop :=
  ∀ (s : State) (c : Ch) (count : Byte), s.Inv → c.isRx = true → ChInitReady c count s →
    ∃ s1 s2, exec (.chInit c count) s = .next s1 ∧ exec (.chStart c) s1 = .next s2 ∧
      ∀ (m : Nat) (x : Chan), x = (rxComplete s.cfg c)^[m] (s2.ch c) →
        x.n = count ∧
        ((s.cfg.chan c).k + 1 ≤ count.toNat →
          x.q.contents (s.cfg.chan c).k = (List.range (min m (s.cfg.chan c).k)).map (BitVec.ofNat 8) ∧ x.st = .active ∧
          x.inflight = some (BitVec.ofNat 8 (min m (s.cfg.chan c).k)) ∧
          programmedFor s.cfg c (BitVec.ofNat 8 (min m (s.cfg.chan c).k)) x ∧ x.per.armed = true) ∧
        (count.toNat ≤ (s.cfg.chan c).k → count.toNat ≤ m →
          x.q.contents (s.cfg.chan c).k = (List.range count.toNat).map (BitVec.ofNat 8) ∧ x.st = .starved ∧
          x.inflight = none ∧ x.per.en = false ∧ x.per.armed = false)

/-! ### Transmit channel (44_channel_tx.md) -/

/-- R203: TX_PUT, its checks in order and its effect; the bytes stored are the source's, in the acquired chunk and nowhere
else. The copy of a byte the host wrote in the source while the copy was pending is free (R67; log 13). -/
def Obligations.TxPutEnqueuesCopy : Prop :=
  ∀ (s : State) (c : Ch) (len : Nat), s.Inv → c.isTx = true → len = s.lenOp.toNat →
    ((s.ch c).st = .uninit → Raises (.txPut c) s .badState) ∧
    ((s.ch c).st ≠ .uninit →
      (len = 0 ∨ (s.cfg.chan c).cap < len ∨ len % c.ew ≠ 0) ∨ s.cfg.sysSize ≤ s.addrOp ∨ s.cfg.sysSize < s.addrOp + len →
      Raises (.txPut c) s .lengthError) ∧
    ((s.ch c).st ≠ .uninit → 0 < len → len ≤ (s.cfg.chan c).cap → len % c.ew = 0 → s.addrOp + len ≤ s.cfg.sysSize →
      (s.ch c).q.occW (s.cfg.chan c).k = (s.cfg.chan c).k → Raises (.txPut c) s .queueFull) ∧
    ((s.ch c).st ≠ .uninit → 0 < len → len ≤ (s.cfg.chan c).cap → len % c.ew = 0 → s.addrOp + len ≤ s.cfg.sysSize →
      (s.ch c).q.occW (s.cfg.chan c).k ≠ (s.cfg.chan c).k → (s.ch c).f.r = (s.ch c).f.ws →
      Raises (.txPut c) s .poolExhausted) ∧
    (TxPutReady c s → ∃ t, exec (.txPut c) s = .next t ∧ t.code = .ok ∧ t.result = (s.nextFree c).setWidth 32 ∧
      (∀ k, k < len → s.isRaced (s.addrOp + k) = false →
        t.sys.read (chunkAddr s.cfg c (s.nextFree c) + k) = s.sys.read (s.addrOp + k)) ∧
      SysSameOutside (chunkAddr s.cfg c (s.nextFree c)) len s t ∧
      (t.ch c).q.contents (s.cfg.chan c).k = (s.ch c).q.contents (s.cfg.chan c).k ++ [s.nextFree c] ∧
      (t.ch c).q.r = (s.ch c).q.r ∧ (t.ch c).q.rs = (s.ch c).q.rs ∧ (t.ch c).q.ws = (s.ch c).q.ws ∧
      (s.ch c).f.contents (s.cfg.chan c).p = s.nextFree c :: (t.ch c).f.contents (s.cfg.chan c).p ∧
      (t.ch c).f.w = (s.ch c).f.w ∧ (t.ch c).f.ws = (s.ch c).f.ws ∧ (t.ch c).f.slots = (s.ch c).f.slots ∧
      ((t.ch c).usedOf (s.nextFree c)).toNat = len ∧
      (∀ g, g ≠ s.nextFree c → (t.ch c).usedOf g = (s.ch c).usedOf g) ∧
      (t.ch c).st = (s.ch c).st ∧ (t.ch c).inflight = (s.ch c).inflight ∧ (t.ch c).n = (s.ch c).n ∧
      (t.ch c).held = (s.ch c).held ∧ (t.ch c).per = (s.ch c).per ∧ (t.ch c).txOut = (s.ch c).txOut ∧
      OtherChans c s t ∧ SameDispatcher s t ∧ SamePort s t)

/-- R204: the Tx kick step, where it is enabled. -/
def Obligations.TxKickStartsTransfer : Prop :=
  ∀ (s : State) (c : Ch), s.Inv → c.isTx = true → s.turn = .fsm c → (s.ch c).st = .idle →
    (s.ch c).q.r ≠ (s.ch c).q.ws →
    ∃ t h, step s = .next t ∧ (s.ch c).q.contents (s.cfg.chan c).k = h :: (t.ch c).q.contents (s.cfg.chan c).k ∧
      (t.ch c).inflight = some h ∧ (t.ch c).st = .active ∧ (t.ch c).per.cfgAddr.toNat = chunkAddr s.cfg c h ∧
      (t.ch c).per.cfgStride.toNat = c.ew ∧ (t.ch c).per.cfgCount.toNat * c.ew = ((s.ch c).usedOf h).toNat ∧
      (t.ch c).per.en = true ∧ (t.ch c).per.armed = true ∧
      (t.ch c).q.w = (s.ch c).q.w ∧ (t.ch c).q.ws = (s.ch c).q.ws ∧ (t.ch c).q.rs = (s.ch c).q.rs ∧
      (t.ch c).f = (s.ch c).f ∧ (t.ch c).n = (s.ch c).n ∧ (t.ch c).used = (s.ch c).used ∧
      (t.ch c).held = (s.ch c).held ∧ (t.ch c).txOut = (s.ch c).txOut ∧ t.code = s.code ∧ t.result = s.result ∧
      OnlyChan c s.advance t

/-- R205, R206: the TX_COMPLETE handler, on every path; with nothing in flight it does nothing, whatever the channel holds. -/
def Obligations.TxCompletePaths : Prop :=
  ∀ (p : Params) (c : Ch) (x y : Chan) (h : Handle), y = txComplete p c x →
    (x.st ≠ .active → y = x) ∧
    (p.Legal → c.isTx = true → x.Live p c → x.inflight = some h →
      (y.f.contents (p.chan c).p = x.f.contents (p.chan c).p ++ [h] ∧ y.f.r = x.f.r ∧ y.f.ws = x.f.ws ∧
        y.used = x.used ∧ y.n = x.n ∧ y.held = x.held ∧ y.txOut = x.txOut ∧ y.q.w = x.q.w ∧ y.q.ws = x.q.ws ∧
        y.q.rs = x.q.rs) ∧
      (x.q.r ≠ x.q.ws → ∃ g, x.q.contents (p.chan c).k = g :: y.q.contents (p.chan c).k ∧ y.inflight = some g ∧
        y.st = .active ∧ programmedFor p c g y ∧ y.per.armed = true) ∧
      (x.q.r = x.q.ws → y.q = x.q ∧ y.inflight = none ∧ y.st = .idle ∧
        y.per = { x.per with en := false, armed := false }))

/-- R208: idle to running to idle. One TX_PUT on an idle channel with an empty queue, a SYNC_W2R, the kick, the transfer and
the handler send exactly the bytes put (raced bytes: log 13) and leave the channel IDLE, its queue empty and the chunk free
again. -/
def Obligations.TransmitCycle : Prop :=
  ∀ (s : State) (c : Ch), s.Inv → TxPutReady c s → (s.ch c).st = .idle → (s.ch c).q.w = (s.ch c).q.r →
    ∃ s1 s3 s4, exec (.txPut c) s = .next s1 ∧ s3 = fsmTurn c (syncQueueW2R c s1) ∧
      (s3.ch c).st = .active ∧ (s3.ch c).inflight = some (s.nextFree c) ∧ (s3.ch c).q.contents (s.cfg.chan c).k = [] ∧
      programmedFor s.cfg c (s.nextFree c) (s3.ch c) ∧ (s3.ch c).per.armed = true ∧
      periphTurn c s3 = .next s4 ∧ (∃ sent, s.Payload sent ∧ (s4.ch c).txOut = (s.ch c).txOut ++ [sent]) ∧
      s4.isPending (s.cfg.chan c).irq = true ∧
      ∀ y, y = txComplete s.cfg c (s4.ch c) → y.st = .idle ∧ y.inflight = none ∧ y.q.contents (s.cfg.chan c).k = [] ∧
        y.per.en = false ∧ (s.ch c).f.contents (s.cfg.chan c).p ++ [s.nextFree c] =
          s.nextFree c :: y.f.contents (s.cfg.chan c).p

/-- R209: what a transmit channel has sent and has still to send changes only by a successful TX_PUT on it, which appends its
payload (raced bytes: log 13). By R209's own proviso no software trigger of the channel's id and no reset intervenes; that no
pulse on its line does is the model's (log 33). -/
def Obligations.TransmitOrder : Prop :=
  ∀ (s t : State) (c : Ch), s.Inv → c.isTx = true → s.Unsimulated c → ¬s.Disturbs (s.cfg.chan c).irq → step s = .next t →
    t.Unsimulated c ∧
    (s.Executes (.txPut c) → t.code = .ok →
      ∃ put, s.Payload put ∧ t.backlog c = s.backlog c ++ [put]) ∧
    (¬s.Executes (.txPut c) ∨ t.code ≠ .ok → t.backlog c = s.backlog c)

/-! ### Peripherals (46_peripheral.md) -/

/-- R241: a receive completion fills the programmed chunk with free bytes, disarms the peripheral and sets the pending bit. -/
def Obligations.ReceiveCompletion : Prop :=
  ∀ (s : State) (c : Ch), s.Inv → c.isRx = true → s.turn = .periph c → (s.ch c).per.en = true →
    (s.ch c).per.armed = true →
    ∃ t, step s = .next t ∧
      (∀ k, k < (s.cfg.chan c).cap → t.sys.read ((s.ch c).per.cfgAddr.toNat + k) = Config.rxByte (s.drawn + k)) ∧
      SysSameOutside (s.ch c).per.cfgAddr.toNat (s.cfg.chan c).cap s t ∧
      t.ch c = { s.ch c with per := { (s.ch c).per with armed := false } } ∧ OtherChans c s t ∧
      t.isPending (s.cfg.chan c).irq = true ∧ (∀ j, j ≠ (s.cfg.chan c).irq → t.isPending j = s.isPending j) ∧
      t.table = s.table ∧ t.cbOut = s.cbOut ∧ t.code = s.code ∧ t.result = s.result ∧
      SamePort { s.advance with drawn := s.drawn + (s.cfg.chan c).cap } t

/-- R242: a transmit completion appends the in-flight chunk's used bytes to TxOut_c. -/
def Obligations.TransmitCompletion : Prop :=
  ∀ (s : State) (c : Ch) (h : Handle), s.Inv → c.isTx = true → s.turn = .periph c → (s.ch c).per.armed = true →
    (s.ch c).inflight = some h →
    ∃ t, step s = .next t ∧ (t.ch c).txOut = (s.ch c).txOut ++ [s.chunkBytes c h] ∧
      t.ch c = { s.ch c with per := { (s.ch c).per with armed := false }, txOut := (t.ch c).txOut } ∧ OtherChans c s t ∧
      t.isPending (s.cfg.chan c).irq = true ∧ (∀ j, j ≠ (s.cfg.chan c).irq → t.isPending j = s.isPending j) ∧
      SameSys s t ∧ t.table = s.table ∧ t.cbOut = s.cbOut ∧ t.code = s.code ∧ t.result = s.result ∧ SamePort s.advance t

/-- R245, R253 (F3): a peripheral that is disabled or disarmed has no step. -/
def Obligations.DisarmedPeripheralIsRefused : Prop :=
  ∀ (s : State) (c : Ch), s.turn = .periph c → (s.ch c).per.en = false ∨ (s.ch c).per.armed = false →
    step s = .refused .peripheralStep

/-! ### Invariants -/

/-- The invariant holds after reset, in every legal configuration; the default one is legal (00_scope.md R6, R7; log 2). -/
def Obligations.ResetSatisfiesInvariant : Prop :=
  (∀ p : Params, p.Legal → (State.resetWith p).Inv) ∧ State.reset.Inv

/-- R23 to R32, R51, R52, R152: every step of every agent keeps the invariant. -/
def Obligations.StepKeepsInvariant : Prop := ∀ s t : State, s.Inv → step s = .next t → t.Inv

/-- The memory's canonical form is kept by every step of every state, whatever else the state holds (log 8). -/
def Obligations.StepKeepsMemoryCanonical : Prop := ∀ s t : State, s.sys.wf → step s = .next t → t.sys.wf

/-- R179, R207: which events change `state_c`, and to what. -/
def Obligations.ChannelStateTransitions : Prop :=
  ∀ (s t : State) (c : Ch), s.Inv → step s = .next t → (t.ch c).st ≠ (s.ch c).st →
    (s.Executes .blkReset ∨ s.turn = .rstN) ∧ (t.ch c).st = .uninit ∨
    (∃ count, s.Executes (.chInit c count)) ∧ (s.ch c).st = .uninit ∧ (t.ch c).st = .idle ∨
    s.Executes (.chStart c) ∧ c.isRx = true ∧ (s.ch c).st = .idle ∧ (t.ch c).st = .active ∨
    s.turn = .disp ∧ c.isRx = true ∧ (s.ch c).st = .active ∧ (t.ch c).st = .starved ∨
    s.turn = .fsm c ∧ c.isRx = true ∧ (s.ch c).st = .starved ∧ (t.ch c).st = .active ∨
    s.turn = .fsm c ∧ c.isTx = true ∧ (s.ch c).st = .idle ∧ (t.ch c).st = .active ∨
    s.turn = .disp ∧ c.isTx = true ∧ (s.ch c).st = .active ∧ (t.ch c).st = .idle

/-- R255: what sets a pending bit, and what clears it. -/
def Obligations.PendingBitEvents : Prop :=
  ∀ (s t : State) (i : Nat), s.Inv → step s = .next t →
    (s.isPending i = false → t.isPending i = true →
      (∃ c, s.turn = .periph c ∧ (s.cfg.chan c).irq = i) ∨ s.turn = .extIrq i ∨
        ∃ irq : BitVec 4, s.Executes (.dispSwtrig irq) ∧ irq.toNat = i) ∧
    (s.isPending i = true → t.isPending i = false →
      s.turn = .disp ∧ s.leastPending = some i ∨ s.Executes .blkReset ∨ s.turn = .rstN)

end
end

