-- ==== Sys2Proof/Laws/Ring.lean ====
section
/-! SUPPORT. Ring pointers as plain arithmetic, and a ring's contents under a write and a read of it (41_async_fifo.md R123,
R135). -/

namespace Sys2Proof.Machine

/-- `a -_W b` of two pointers of the ring, without the modulus. -/
theorem ptrSub_eq {d a b : Nat} (ha : a < 2 * d) (hb : b < 2 * d) :
    ptrSub d a b = if b ≤ a then a - b else a + 2 * d - b := by
  unfold ptrSub
  rw [Nat.mod_eq_of_lt hb]
  split
  · have : a + (2 * d - b) = (a - b) + 2 * d := by omega
    rw [this, Nat.add_mod_right, Nat.mod_eq_of_lt (by omega)]
  · rw [Nat.mod_eq_of_lt (by omega)]; omega

/-- `a +_W 1` of a pointer of the ring, without the modulus. -/
theorem ptrSucc_eq {d a : Nat} (ha : a < 2 * d) : ptrSucc d a = if a + 1 = 2 * d then 0 else a + 1 := by
  unfold ptrSucc
  split
  · next h => rw [h, Nat.mod_self]
  · rw [Nat.mod_eq_of_lt (by omega)]

theorem ptrSub_lt {d a b : Nat} (hd : 0 < d) : ptrSub d a b < 2 * d := Nat.mod_lt _ (by omega)

theorem ptrSucc_lt {d a : Nat} (hd : 0 < d) : ptrSucc d a < 2 * d := Nat.mod_lt _ (by omega)

@[simp] theorem ptrSub_self {d a : Nat} (ha : a < 2 * d) : ptrSub d a a = 0 := by rw [ptrSub_eq ha ha]; simp

theorem ptrSub_eq_zero {d a b : Nat} (ha : a < 2 * d) (hb : b < 2 * d) : ptrSub d a b = 0 ↔ a = b := by
  rw [ptrSub_eq ha hb]; split <;> omega

/-- The slot the reader reaches after `i` reads. -/
theorem succ_slot {d r i : Nat} : (ptrSucc d r + i) % d = (r + (i + 1)) % d := by
  unfold ptrSucc
  rw [Nat.add_mod, Nat.mod_mod_of_dvd _ (Nat.dvd_mul_left d 2), ← Nat.add_mod]
  congr 1; omega

/-- The slot the writer writes is the one after the last entry. -/
theorem writer_slot {d w r : Nat} (hw : w < 2 * d) (hr : r < 2 * d) : (r + ptrSub d w r) % d = w % d := by
  rw [ptrSub_eq hw hr]
  split
  · congr 1; omega
  · have : r + (w + 2 * d - r) = w + d + d := by omega
    rw [this, Nat.add_mod_right, Nat.add_mod_right]

/-- Different entries of a ring that is not over-full lie in different slots. -/
theorem slot_ne {d r i n : Nat} (hi : i < n) (hn : n < d) : (r + i) % d ≠ (r + n) % d := by
  intro h
  have h1 : (r + i) ≡ (r + n) [MOD d] := h
  have h2 : i ≡ n [MOD d] := Nat.ModEq.add_left_cancel' r h1
  have h3 : i % d = n % d := h2
  rw [Nat.mod_eq_of_lt (by omega), Nat.mod_eq_of_lt hn] at h3
  omega

theorem ringContents_length (d : Nat) (l : List Handle) (w r : Nat) : (ringContents d l w r).length = ptrSub d w r := by
  simp [ringContents]

/-- Writing a slot and advancing the write pointer appends the handle (R130, R106). -/
theorem ringContents_write {d w r : Nat} {l : List Handle} (h : Handle) (hw : w < 2 * d) (hr : r < 2 * d)
    (hl : l.length = d) (hocc : ptrSub d w r < d) :
    ringContents d (l.set (w % d) h) (ptrSucc d w) r = ringContents d l w r ++ [h] := by
  have hd : 0 < d := by omega
  have hsucc : ptrSub d (ptrSucc d w) r = ptrSub d w r + 1 := by
    have h1 := ptrSucc_lt (d := d) (a := w) hd
    rw [ptrSub_eq h1 hr, ptrSub_eq hw hr] at *
    rw [ptrSucc_eq hw] at *
    split_ifs at * <;> omega
  have hslot : w % d < l.length := by rw [hl]; exact Nat.mod_lt _ hd
  unfold ringContents
  rw [hsucc, List.range_succ, List.map_append]
  congr 1
  · refine List.map_congr_left fun i hi => ?_
    have hi := List.mem_range.1 hi
    have hne : w % d ≠ (r + i) % d := by rw [← writer_slot hw hr]; exact (slot_ne hi hocc).symm
    simp [List.getD_eq_getElem?_getD, hne]
  · have : (r + ptrSub d w r) % d = w % d := writer_slot hw hr
    simp [this, List.getD_eq_getElem?_getD, hslot]

/-- Advancing the read pointer of a ring that is not empty removes the oldest entry (R131, R105). -/
theorem ringContents_read {d w r : Nat} {l : List Handle} (hw : w < 2 * d) (hr : r < 2 * d) (hocc : 0 < ptrSub d w r) :
    ringContents d l w r = l.getD (r % d) 0#8 :: ringContents d l w (ptrSucc d r) := by
  have hd : 0 < d := by omega
  have hsucc : ptrSub d w r = ptrSub d w (ptrSucc d r) + 1 := by
    have h1 := ptrSucc_lt (d := d) (a := r) hd
    rw [ptrSub_eq hw h1, ptrSub_eq hw hr] at *
    rw [ptrSucc_eq hr] at *
    split_ifs at * <;> omega
  unfold ringContents
  rw [hsucc, List.range_succ_eq_map, List.map_cons, List.map_map]
  congr 1
  refine List.map_congr_left fun i _ => ?_
  simp only [Function.comp_apply, Nat.succ_eq_add_one, succ_slot]

/-- An empty ring has no entries. -/
theorem ringContents_empty {d w : Nat} (l : List Handle) (hw : w < 2 * d) : ringContents d l w w = [] := by
  simp [ringContents, ptrSub_self hw]

/-! ### The pointer invariant (10_state.md R52) -/

theorem ringOk_write {d w r ws : Nat} (h : ringOk d w r ws) (hocc : ptrSub d w r < d) : ringOk d (ptrSucc d w) r ws := by
  obtain ⟨hw, hr, hs, h1, h2⟩ := h
  have h3 := ptrSucc_lt (d := d) (a := w) (by omega)
  have e := ptrSucc_eq hw
  rw [ptrSub_eq hw hr] at h1 h2 hocc
  rw [ptrSub_eq hs hr, ptrSub_eq hw hs] at h2
  refine ⟨h3, hr, hs, ?_, ?_⟩
  · rw [ptrSub_eq h3 hr]; split_ifs at * <;> omega
  · rw [ptrSub_eq hs hr, ptrSub_eq h3 hs, ptrSub_eq h3 hr]; split_ifs at * <;> omega

theorem ringOk_read {d w r ws : Nat} (h : ringOk d w r ws) (hne : r ≠ ws) : ringOk d w (ptrSucc d r) ws := by
  obtain ⟨hw, hr, hs, h1, h2⟩ := h
  have h3 := ptrSucc_lt (d := d) (a := r) (by omega)
  have e := ptrSucc_eq hr
  rw [ptrSub_eq hw hr] at h1 h2
  rw [ptrSub_eq hs hr, ptrSub_eq hw hs] at h2
  refine ⟨hw, h3, hs, ?_, ?_⟩
  · rw [ptrSub_eq hw h3]; split_ifs at * <;> omega
  · rw [ptrSub_eq hs h3, ptrSub_eq hw hs, ptrSub_eq hw h3]; split_ifs at * <;> omega

theorem ringOk_sync {d w r ws : Nat} (h : ringOk d w r ws) : ringOk d w r w := by
  obtain ⟨hw, hr, -, h1, -⟩ := h
  exact ⟨hw, hr, hw, h1, by rw [ptrSub_self hw, Nat.add_zero]⟩

/-- A consumer that sees an entry has one (R127). -/
theorem occ_pos_of_view {d w r ws : Nat} (h : ringOk d w r ws) (hne : r ≠ ws) : 0 < ptrSub d w r := by
  obtain ⟨hw, hr, hs, h1, h2⟩ := h
  have : ptrSub d ws r ≠ 0 := fun e => hne ((ptrSub_eq_zero hs hr).1 e).symm
  omega

end Sys2Proof.Machine
end

