-- ==== Sys2Proof/Laws/State.lean ====
section
/-! SUPPORT. One lemma per field per update of State, so that no proof unfolds a record update. -/

namespace Sys2Proof

theorem Ch.mem_all (c : Ch) : c ∈ Ch.all := by cases c <;> decide

@[simp] theorem Ch.ofBits_bits (c : Ch) : Ch.ofBits c.bits = c := by cases c <;> decide

theorem Ch.isRx_eq_not_isTx (c : Ch) : c.isRx = !c.isTx := rfl

namespace Machine

/-! ### setCh -/

@[simp] theorem ch_setCh_same (s : State) (c : Ch) (x : Chan) : (s.setCh c x).ch c = x := by cases c <;> rfl
theorem ch_setCh_other (s : State) {c d : Ch} (x : Chan) (h : d ≠ c) : (s.setCh c x).ch d = s.ch d := by
  cases c <;> cases d <;> first | rfl | exact absurd rfl h
theorem ch_setCh (s : State) (c d : Ch) (x : Chan) : (s.setCh c x).ch d = if d = c then x else s.ch d := by
  by_cases h : d = c
  · simp [h]
  · simp [h, ch_setCh_other]
theorem setCh_self (s : State) (c : Ch) : s.setCh c (s.ch c) = s := by cases c <;> rfl
@[simp] theorem setCh_cfg (s : State) (c : Ch) (x : Chan) : (s.setCh c x).cfg = s.cfg := by cases c <;> rfl
@[simp] theorem setCh_arg0 (s : State) (c : Ch) (x : Chan) : (s.setCh c x).arg0 = s.arg0 := by cases c <;> rfl
@[simp] theorem setCh_arg1 (s : State) (c : Ch) (x : Chan) : (s.setCh c x).arg1 = s.arg1 := by cases c <;> rfl
@[simp] theorem setCh_cmdL (s : State) (c : Ch) (x : Chan) : (s.setCh c x).cmdL = s.cmdL := by cases c <;> rfl
@[simp] theorem setCh_arg0L (s : State) (c : Ch) (x : Chan) : (s.setCh c x).arg0L = s.arg0L := by cases c <;> rfl
@[simp] theorem setCh_arg1L (s : State) (c : Ch) (x : Chan) : (s.setCh c x).arg1L = s.arg1L := by cases c <;> rfl
@[simp] theorem setCh_busy (s : State) (c : Ch) (x : Chan) : (s.setCh c x).busy = s.busy := by cases c <;> rfl
@[simp] theorem setCh_code (s : State) (c : Ch) (x : Chan) : (s.setCh c x).code = s.code := by cases c <;> rfl
@[simp] theorem setCh_ovr (s : State) (c : Ch) (x : Chan) : (s.setCh c x).ovr = s.ovr := by cases c <;> rfl
@[simp] theorem setCh_result (s : State) (c : Ch) (x : Chan) : (s.setCh c x).result = s.result := by cases c <;> rfl
@[simp] theorem setCh_pending (s : State) (c : Ch) (x : Chan) : (s.setCh c x).pending = s.pending := by cases c <;> rfl
@[simp] theorem setCh_table (s : State) (c : Ch) (x : Chan) : (s.setCh c x).table = s.table := by cases c <;> rfl
@[simp] theorem setCh_sys (s : State) (c : Ch) (x : Chan) : (s.setCh c x).sys = s.sys := by cases c <;> rfl
@[simp] theorem setCh_cbOut (s : State) (c : Ch) (x : Chan) : (s.setCh c x).cbOut = s.cbOut := by cases c <;> rfl
@[simp] theorem setCh_rdata (s : State) (c : Ch) (x : Chan) : (s.setCh c x).rdata = s.rdata := by cases c <;> rfl
@[simp] theorem setCh_sysRdata (s : State) (c : Ch) (x : Chan) : (s.setCh c x).sysRdata = s.sysRdata := by cases c <;> rfl
@[simp] theorem setCh_host (s : State) (c : Ch) (x : Chan) : (s.setCh c x).host = s.host := by cases c <;> rfl
@[simp] theorem setCh_schedule (s : State) (c : Ch) (x : Chan) : (s.setCh c x).schedule = s.schedule := by cases c <;> rfl
@[simp] theorem setCh_ticks (s : State) (c : Ch) (x : Chan) : (s.setCh c x).ticks = s.ticks := by cases c <;> rfl
@[simp] theorem setCh_drawn (s : State) (c : Ch) (x : Chan) : (s.setCh c x).drawn = s.drawn := by cases c <;> rfl
@[simp] theorem setCh_raced (s : State) (c : Ch) (x : Chan) : (s.setCh c x).raced = s.raced := by cases c <;> rfl
@[simp] theorem setCh_entry (s : State) (c : Ch) (x : Chan) (i : Nat) : (s.setCh c x).entry i = s.entry i := by cases c <;> rfl
@[simp] theorem setCh_isPending (s : State) (c : Ch) (x : Chan) (i : Nat) :
    (s.setCh c x).isPending i = s.isPending i := by cases c <;> rfl
/-- Reading a channel sees only `chans`. -/
theorem ch_congr {s t : State} (h : t.chans = s.chans) (c : Ch) : t.ch c = s.ch c := by
  cases c <;> simp [State.ch, h]

/-! ### setPending -/

@[simp] theorem setPending_ch (s : State) (i : Nat) (b : Bool) (c : Ch) : (s.setPending i b).ch c = s.ch c := by cases c <;> rfl
@[simp] theorem setPending_cfg (s : State) (i : Nat) (b : Bool) : (s.setPending i b).cfg = s.cfg := rfl
@[simp] theorem setPending_arg0 (s : State) (i : Nat) (b : Bool) : (s.setPending i b).arg0 = s.arg0 := rfl
@[simp] theorem setPending_arg1 (s : State) (i : Nat) (b : Bool) : (s.setPending i b).arg1 = s.arg1 := rfl
@[simp] theorem setPending_cmdL (s : State) (i : Nat) (b : Bool) : (s.setPending i b).cmdL = s.cmdL := rfl
@[simp] theorem setPending_arg0L (s : State) (i : Nat) (b : Bool) : (s.setPending i b).arg0L = s.arg0L := rfl
@[simp] theorem setPending_arg1L (s : State) (i : Nat) (b : Bool) : (s.setPending i b).arg1L = s.arg1L := rfl
@[simp] theorem setPending_busy (s : State) (i : Nat) (b : Bool) : (s.setPending i b).busy = s.busy := rfl
@[simp] theorem setPending_code (s : State) (i : Nat) (b : Bool) : (s.setPending i b).code = s.code := rfl
@[simp] theorem setPending_ovr (s : State) (i : Nat) (b : Bool) : (s.setPending i b).ovr = s.ovr := rfl
@[simp] theorem setPending_result (s : State) (i : Nat) (b : Bool) : (s.setPending i b).result = s.result := rfl
@[simp] theorem setPending_chans (s : State) (i : Nat) (b : Bool) : (s.setPending i b).chans = s.chans := rfl
@[simp] theorem setPending_table (s : State) (i : Nat) (b : Bool) : (s.setPending i b).table = s.table := rfl
@[simp] theorem setPending_sys (s : State) (i : Nat) (b : Bool) : (s.setPending i b).sys = s.sys := rfl
@[simp] theorem setPending_cbOut (s : State) (i : Nat) (b : Bool) : (s.setPending i b).cbOut = s.cbOut := rfl
@[simp] theorem setPending_rdata (s : State) (i : Nat) (b : Bool) : (s.setPending i b).rdata = s.rdata := rfl
@[simp] theorem setPending_sysRdata (s : State) (i : Nat) (b : Bool) : (s.setPending i b).sysRdata = s.sysRdata := rfl
@[simp] theorem setPending_host (s : State) (i : Nat) (b : Bool) : (s.setPending i b).host = s.host := rfl
@[simp] theorem setPending_schedule (s : State) (i : Nat) (b : Bool) : (s.setPending i b).schedule = s.schedule := rfl
@[simp] theorem setPending_ticks (s : State) (i : Nat) (b : Bool) : (s.setPending i b).ticks = s.ticks := rfl
@[simp] theorem setPending_drawn (s : State) (i : Nat) (b : Bool) : (s.setPending i b).drawn = s.drawn := rfl
@[simp] theorem setPending_raced (s : State) (i : Nat) (b : Bool) : (s.setPending i b).raced = s.raced := rfl
@[simp] theorem setPending_entry (s : State) (i : Nat) (b : Bool) (j : Nat) : (s.setPending i b).entry j = s.entry j := rfl
@[simp] theorem setPending_pending_length (s : State) (i : Nat) (b : Bool) :
    (s.setPending i b).pending.length = s.pending.length := by simp [State.setPending]
theorem isPending_setPending (s : State) (i j : Nat) (b : Bool) (h : i < s.pending.length) :
    (s.setPending i b).isPending j = if j = i then b else s.isPending j := by
  by_cases hij : j = i
  · subst hij; simp [State.setPending, State.isPending, List.getD_eq_getElem?_getD, h]
  · simp [State.setPending, State.isPending, List.getD_eq_getElem?_getD, hij, Ne.symm hij]

/-! ### bind -/

@[simp] theorem bind_ch (s : State) (i : Nat) (cb : BitVec 4) (ctx : Half) (c : Ch) : (s.bind i cb ctx).ch c = s.ch c := by cases c <;> rfl
@[simp] theorem bind_cfg (s : State) (i : Nat) (cb : BitVec 4) (ctx : Half) : (s.bind i cb ctx).cfg = s.cfg := rfl
@[simp] theorem bind_arg0 (s : State) (i : Nat) (cb : BitVec 4) (ctx : Half) : (s.bind i cb ctx).arg0 = s.arg0 := rfl
@[simp] theorem bind_arg1 (s : State) (i : Nat) (cb : BitVec 4) (ctx : Half) : (s.bind i cb ctx).arg1 = s.arg1 := rfl
@[simp] theorem bind_cmdL (s : State) (i : Nat) (cb : BitVec 4) (ctx : Half) : (s.bind i cb ctx).cmdL = s.cmdL := rfl
@[simp] theorem bind_arg0L (s : State) (i : Nat) (cb : BitVec 4) (ctx : Half) : (s.bind i cb ctx).arg0L = s.arg0L := rfl
@[simp] theorem bind_arg1L (s : State) (i : Nat) (cb : BitVec 4) (ctx : Half) : (s.bind i cb ctx).arg1L = s.arg1L := rfl
@[simp] theorem bind_busy (s : State) (i : Nat) (cb : BitVec 4) (ctx : Half) : (s.bind i cb ctx).busy = s.busy := rfl
@[simp] theorem bind_code (s : State) (i : Nat) (cb : BitVec 4) (ctx : Half) : (s.bind i cb ctx).code = s.code := rfl
@[simp] theorem bind_ovr (s : State) (i : Nat) (cb : BitVec 4) (ctx : Half) : (s.bind i cb ctx).ovr = s.ovr := rfl
@[simp] theorem bind_result (s : State) (i : Nat) (cb : BitVec 4) (ctx : Half) : (s.bind i cb ctx).result = s.result := rfl
@[simp] theorem bind_chans (s : State) (i : Nat) (cb : BitVec 4) (ctx : Half) : (s.bind i cb ctx).chans = s.chans := rfl
@[simp] theorem bind_pending (s : State) (i : Nat) (cb : BitVec 4) (ctx : Half) : (s.bind i cb ctx).pending = s.pending := rfl
@[simp] theorem bind_sys (s : State) (i : Nat) (cb : BitVec 4) (ctx : Half) : (s.bind i cb ctx).sys = s.sys := rfl
@[simp] theorem bind_cbOut (s : State) (i : Nat) (cb : BitVec 4) (ctx : Half) : (s.bind i cb ctx).cbOut = s.cbOut := rfl
@[simp] theorem bind_rdata (s : State) (i : Nat) (cb : BitVec 4) (ctx : Half) : (s.bind i cb ctx).rdata = s.rdata := rfl
@[simp] theorem bind_sysRdata (s : State) (i : Nat) (cb : BitVec 4) (ctx : Half) : (s.bind i cb ctx).sysRdata = s.sysRdata := rfl
@[simp] theorem bind_host (s : State) (i : Nat) (cb : BitVec 4) (ctx : Half) : (s.bind i cb ctx).host = s.host := rfl
@[simp] theorem bind_schedule (s : State) (i : Nat) (cb : BitVec 4) (ctx : Half) : (s.bind i cb ctx).schedule = s.schedule := rfl
@[simp] theorem bind_ticks (s : State) (i : Nat) (cb : BitVec 4) (ctx : Half) : (s.bind i cb ctx).ticks = s.ticks := rfl
@[simp] theorem bind_drawn (s : State) (i : Nat) (cb : BitVec 4) (ctx : Half) : (s.bind i cb ctx).drawn = s.drawn := rfl
@[simp] theorem bind_raced (s : State) (i : Nat) (cb : BitVec 4) (ctx : Half) : (s.bind i cb ctx).raced = s.raced := rfl
theorem entry_bind (s : State) (i j : Nat) (cb : BitVec 4) (ctx : Half) (h : i < s.table.length) :
    (s.bind i cb ctx).entry j = if j = i then { bound := true, cb := cb, ctx := ctx } else s.entry j := by
  by_cases hij : j = i
  · subst hij; simp [State.bind, State.entry, List.getD_eq_getElem?_getD, h]
  · simp [State.bind, State.entry, List.getD_eq_getElem?_getD, hij, Ne.symm hij]

/-! ### The parts of a channel that the pool, queue and peripheral operations leave alone -/

@[simp] theorem setUsed_st (x : Chan) (h : Handle) (u : Half) : (x.setUsed h u).st = x.st := rfl
@[simp] theorem setUsed_inflight (x : Chan) (h : Handle) (u : Half) : (x.setUsed h u).inflight = x.inflight := rfl
@[simp] theorem setUsed_n (x : Chan) (h : Handle) (u : Half) : (x.setUsed h u).n = x.n := rfl
@[simp] theorem setUsed_q (x : Chan) (h : Handle) (u : Half) : (x.setUsed h u).q = x.q := rfl
@[simp] theorem setUsed_f (x : Chan) (h : Handle) (u : Half) : (x.setUsed h u).f = x.f := rfl
@[simp] theorem setUsed_held (x : Chan) (h : Handle) (u : Half) : (x.setUsed h u).held = x.held := rfl
@[simp] theorem setUsed_per (x : Chan) (h : Handle) (u : Half) : (x.setUsed h u).per = x.per := rfl
@[simp] theorem setUsed_txOut (x : Chan) (h : Handle) (u : Half) : (x.setUsed h u).txOut = x.txOut := rfl
@[simp] theorem setUsed_used_length (x : Chan) (h : Handle) (u : Half) : (x.setUsed h u).used.length = x.used.length := by
  simp [Chan.setUsed]
theorem usedOf_setUsed (x : Chan) (h g : Handle) (u : Half) (hl : h.toNat < x.used.length) :
    (x.setUsed h u).usedOf g = if g = h then u else x.usedOf g := by
  by_cases hgh : g = h
  · subst hgh; simp [Chan.setUsed, Chan.usedOf, List.getD_eq_getElem?_getD, hl]
  · have hne : h.toNat ≠ g.toNat := fun e => hgh (BitVec.eq_of_toNat_eq e.symm)
    simp [Chan.setUsed, Chan.usedOf, List.getD_eq_getElem?_getD, hgh, hne]

@[simp] theorem program_st (p : Params) (c : Ch) (h : Handle) (x : Chan) : (program p c h x).st = x.st := rfl
@[simp] theorem program_inflight (p : Params) (c : Ch) (h : Handle) (x : Chan) : (program p c h x).inflight = x.inflight := rfl
@[simp] theorem program_n (p : Params) (c : Ch) (h : Handle) (x : Chan) : (program p c h x).n = x.n := rfl
@[simp] theorem program_used (p : Params) (c : Ch) (h : Handle) (x : Chan) : (program p c h x).used = x.used := rfl
@[simp] theorem program_q (p : Params) (c : Ch) (h : Handle) (x : Chan) : (program p c h x).q = x.q := rfl
@[simp] theorem program_f (p : Params) (c : Ch) (h : Handle) (x : Chan) : (program p c h x).f = x.f := rfl
@[simp] theorem program_held (p : Params) (c : Ch) (h : Handle) (x : Chan) : (program p c h x).held = x.held := rfl
@[simp] theorem program_txOut (p : Params) (c : Ch) (h : Handle) (x : Chan) : (program p c h x).txOut = x.txOut := rfl

@[simp] theorem stop_st (x : Chan) : (stop x).st = x.st := rfl
@[simp] theorem stop_inflight (x : Chan) : (stop x).inflight = x.inflight := rfl
@[simp] theorem stop_n (x : Chan) : (stop x).n = x.n := rfl
@[simp] theorem stop_used (x : Chan) : (stop x).used = x.used := rfl
@[simp] theorem stop_q (x : Chan) : (stop x).q = x.q := rfl
@[simp] theorem stop_f (x : Chan) : (stop x).f = x.f := rfl
@[simp] theorem stop_held (x : Chan) : (stop x).held = x.held := rfl
@[simp] theorem stop_txOut (x : Chan) : (stop x).txOut = x.txOut := rfl
@[simp] theorem stop_en (x : Chan) : (stop x).per.en = false := rfl
@[simp] theorem stop_armed (x : Chan) : (stop x).per.armed = false := rfl

@[simp] theorem release_st (p : Params) (c : Ch) (h : Handle) (x : Chan) : (release p c h x).st = x.st := rfl
@[simp] theorem release_inflight (p : Params) (c : Ch) (h : Handle) (x : Chan) : (release p c h x).inflight = x.inflight := rfl
@[simp] theorem release_n (p : Params) (c : Ch) (h : Handle) (x : Chan) : (release p c h x).n = x.n := rfl
@[simp] theorem release_used (p : Params) (c : Ch) (h : Handle) (x : Chan) : (release p c h x).used = x.used := rfl
@[simp] theorem release_q (p : Params) (c : Ch) (h : Handle) (x : Chan) : (release p c h x).q = x.q := rfl
@[simp] theorem release_held (p : Params) (c : Ch) (h : Handle) (x : Chan) : (release p c h x).held = x.held := rfl
@[simp] theorem release_per (p : Params) (c : Ch) (h : Handle) (x : Chan) : (release p c h x).per = x.per := rfl
@[simp] theorem release_txOut (p : Params) (c : Ch) (h : Handle) (x : Chan) : (release p c h x).txOut = x.txOut := rfl

/-! ### A receive transfer's bytes -/

@[simp] theorem receiveBytes_ch (c d : Ch) (s : State) : (receiveBytes c s).ch d = s.ch d := by cases d <;> rfl
@[simp] theorem receiveBytes_cfg (c : Ch) (s : State) : (receiveBytes c s).cfg = s.cfg := rfl
@[simp] theorem receiveBytes_arg0 (c : Ch) (s : State) : (receiveBytes c s).arg0 = s.arg0 := rfl
@[simp] theorem receiveBytes_arg1 (c : Ch) (s : State) : (receiveBytes c s).arg1 = s.arg1 := rfl
@[simp] theorem receiveBytes_cmdL (c : Ch) (s : State) : (receiveBytes c s).cmdL = s.cmdL := rfl
@[simp] theorem receiveBytes_arg0L (c : Ch) (s : State) : (receiveBytes c s).arg0L = s.arg0L := rfl
@[simp] theorem receiveBytes_arg1L (c : Ch) (s : State) : (receiveBytes c s).arg1L = s.arg1L := rfl
@[simp] theorem receiveBytes_busy (c : Ch) (s : State) : (receiveBytes c s).busy = s.busy := rfl
@[simp] theorem receiveBytes_code (c : Ch) (s : State) : (receiveBytes c s).code = s.code := rfl
@[simp] theorem receiveBytes_ovr (c : Ch) (s : State) : (receiveBytes c s).ovr = s.ovr := rfl
@[simp] theorem receiveBytes_result (c : Ch) (s : State) : (receiveBytes c s).result = s.result := rfl
@[simp] theorem receiveBytes_chans (c : Ch) (s : State) : (receiveBytes c s).chans = s.chans := rfl
@[simp] theorem receiveBytes_pending (c : Ch) (s : State) : (receiveBytes c s).pending = s.pending := rfl
@[simp] theorem receiveBytes_table (c : Ch) (s : State) : (receiveBytes c s).table = s.table := rfl
@[simp] theorem receiveBytes_cbOut (c : Ch) (s : State) : (receiveBytes c s).cbOut = s.cbOut := rfl
@[simp] theorem receiveBytes_rdata (c : Ch) (s : State) : (receiveBytes c s).rdata = s.rdata := rfl
@[simp] theorem receiveBytes_sysRdata (c : Ch) (s : State) : (receiveBytes c s).sysRdata = s.sysRdata := rfl
@[simp] theorem receiveBytes_host (c : Ch) (s : State) : (receiveBytes c s).host = s.host := rfl
@[simp] theorem receiveBytes_schedule (c : Ch) (s : State) : (receiveBytes c s).schedule = s.schedule := rfl
@[simp] theorem receiveBytes_ticks (c : Ch) (s : State) : (receiveBytes c s).ticks = s.ticks := rfl
@[simp] theorem receiveBytes_raced (c : Ch) (s : State) : (receiveBytes c s).raced = s.raced := rfl
@[simp] theorem receiveBytes_drawn (c : Ch) (s : State) : (receiveBytes c s).drawn = s.drawn + (s.ch c).per.transferBytes := rfl
@[simp] theorem receiveBytes_isPending (c : Ch) (s : State) (i : Nat) : (receiveBytes c s).isPending i = s.isPending i := rfl
theorem partlyReceived_eq (c : Ch) (s : State) : partlyReceived c s = { s with sys := (partlyReceived c s).sys, drawn := (partlyReceived c s).drawn } := by
  unfold partlyReceived receiveBytes; split <;> rfl
@[simp] theorem partlyReceived_ch (c d : Ch) (s : State) : (partlyReceived c s).ch d = s.ch d := by rw [partlyReceived_eq]; cases d <;> rfl
@[simp] theorem partlyReceived_cfg (c : Ch) (s : State) : (partlyReceived c s).cfg = s.cfg := by rw [partlyReceived_eq]
@[simp] theorem partlyReceived_arg0 (c : Ch) (s : State) : (partlyReceived c s).arg0 = s.arg0 := by rw [partlyReceived_eq]
@[simp] theorem partlyReceived_arg1 (c : Ch) (s : State) : (partlyReceived c s).arg1 = s.arg1 := by rw [partlyReceived_eq]
@[simp] theorem partlyReceived_cmdL (c : Ch) (s : State) : (partlyReceived c s).cmdL = s.cmdL := by rw [partlyReceived_eq]
@[simp] theorem partlyReceived_arg0L (c : Ch) (s : State) : (partlyReceived c s).arg0L = s.arg0L := by rw [partlyReceived_eq]
@[simp] theorem partlyReceived_arg1L (c : Ch) (s : State) : (partlyReceived c s).arg1L = s.arg1L := by rw [partlyReceived_eq]
@[simp] theorem partlyReceived_busy (c : Ch) (s : State) : (partlyReceived c s).busy = s.busy := by rw [partlyReceived_eq]
@[simp] theorem partlyReceived_code (c : Ch) (s : State) : (partlyReceived c s).code = s.code := by rw [partlyReceived_eq]
@[simp] theorem partlyReceived_ovr (c : Ch) (s : State) : (partlyReceived c s).ovr = s.ovr := by rw [partlyReceived_eq]
@[simp] theorem partlyReceived_result (c : Ch) (s : State) : (partlyReceived c s).result = s.result := by rw [partlyReceived_eq]
@[simp] theorem partlyReceived_chans (c : Ch) (s : State) : (partlyReceived c s).chans = s.chans := by rw [partlyReceived_eq]
@[simp] theorem partlyReceived_pending (c : Ch) (s : State) : (partlyReceived c s).pending = s.pending := by rw [partlyReceived_eq]
@[simp] theorem partlyReceived_table (c : Ch) (s : State) : (partlyReceived c s).table = s.table := by rw [partlyReceived_eq]
@[simp] theorem partlyReceived_cbOut (c : Ch) (s : State) : (partlyReceived c s).cbOut = s.cbOut := by rw [partlyReceived_eq]
@[simp] theorem partlyReceived_rdata (c : Ch) (s : State) : (partlyReceived c s).rdata = s.rdata := by rw [partlyReceived_eq]
@[simp] theorem partlyReceived_sysRdata (c : Ch) (s : State) : (partlyReceived c s).sysRdata = s.sysRdata := by rw [partlyReceived_eq]
@[simp] theorem partlyReceived_host (c : Ch) (s : State) : (partlyReceived c s).host = s.host := by rw [partlyReceived_eq]
@[simp] theorem partlyReceived_schedule (c : Ch) (s : State) : (partlyReceived c s).schedule = s.schedule := by rw [partlyReceived_eq]
@[simp] theorem partlyReceived_ticks (c : Ch) (s : State) : (partlyReceived c s).ticks = s.ticks := by rw [partlyReceived_eq]
@[simp] theorem partlyReceived_raced (c : Ch) (s : State) : (partlyReceived c s).raced = s.raced := by rw [partlyReceived_eq]
@[simp] theorem partlyReceived_isPending (c : Ch) (s : State) (i : Nat) : (partlyReceived c s).isPending i = s.isPending i := by simp [State.isPending]
theorem partlyReceived_quiet {c : Ch} {s : State} (h : (s.ch c).inProgress = false) : partlyReceived c s = s := by simp [partlyReceived, h]
@[simp] theorem rxBytes_length (start n : Nat) : (rxBytes start n).length = n := by simp [rxBytes]

end Machine

end Sys2Proof
end

