-- ==== Sys2Proof/Laws/Ownership.lean ====
section
/-! SUPPORT. What each pool, queue and hold operation does to the ownership of handles (10_state.md R51) and to the pointer
invariants (R52). A handle taken out of one place and not yet put in another is `loose`: it is in the body of the executing
step. -/

namespace Sys2Proof.Machine

/-! ### Geometry of a legal configuration -/

theorem legal_chan {p : Params} (h : p.Legal) (c : Ch) : p.LegalChan c := h.2.2.2.2.2.2.2.1 c (Ch.mem_all c)

theorem k_pos (p : ChanParams) : 0 < p.k := Nat.pow_pos (by decide)

/-- P_c is at least NMAX_c (00_scope.md R7). -/
theorem nmax_le_p {p : ChanParams} (h : p.nmax ≤ 255) : p.nmax ≤ p.p := by
  have key : ∀ n, n ≤ 255 → n ≤ 2 ^ ceilLog n := by
    intro n hn
    unfold ceilLog
    cases hf : (List.range 9).find? fun l => decide (n ≤ 2 ^ l) with
    | none =>
      have := List.find?_eq_none.1 hf 8 (by decide)
      simp at this; omega
    | some l => simpa using List.find?_some hf
  exact key _ h

/-- The handle of an index. -/
theorem ofNat_toNat_of_lt {j n : Nat} (hj : j < n) (hn : n ≤ 255) : (BitVec.ofNat 8 j).toNat = j := by
  rw [BitVec.toNat_ofNat]; exact Nat.mod_eq_of_lt (by omega)

/-! ### Queue and free ring -/

theorem queueOk_push {d : Nat} {q : Queue} (h : Handle) (hq : q.Ok d) (hf : q.fullW d = false) :
    (q.push d h).Ok d ∧ (q.push d h).contents d = q.contents d ++ [h] := by
  obtain ⟨hl, ho, hrs, h1, h2⟩ := hq
  have hne : ptrSub d q.w q.rs ≠ d := by simpa [Queue.fullW, Queue.occW] using hf
  have hocc : ptrSub d q.w q.r < d := by omega
  refine ⟨⟨by simpa [Queue.push] using hl, ringOk_write ho hocc, hrs, ?_⟩, ringContents_write h ho.1 ho.2.1 hl hocc⟩
  have h3 := ptrSucc_lt (d := d) (a := q.w) (by omega)
  have e := ptrSucc_eq ho.1
  have hw := ho.1
  have hr := ho.2.1
  simp only [Queue.push]
  rw [ptrSub_eq hw hrs] at h1 h2 hne
  rw [ptrSub_eq hw hr] at h2 hocc
  rw [ptrSub_eq hr hrs] at h2
  rw [ptrSub_eq h3 hrs, ptrSub_eq h3 hr, ptrSub_eq hr hrs]
  split_ifs at * <;> omega

theorem queueOk_pop {d : Nat} {q : Queue} (hq : q.Ok d) (he : q.emptyR = false) :
    (q.pop d).Ok d ∧ q.contents d = q.front d :: (q.pop d).contents d := by
  obtain ⟨hl, ho, hrs, h1, h2⟩ := hq
  have hne : q.r ≠ q.ws := by simpa [Queue.emptyR] using he
  have hpos := occ_pos_of_view ho hne
  refine ⟨⟨hl, ringOk_read ho hne, hrs, h1, ?_⟩, ringContents_read ho.1 ho.2.1 hpos⟩
  have h3 := ptrSucc_lt (d := d) (a := q.r) (by have := ho.2.1; omega)
  have e := ptrSucc_eq ho.2.1
  have hw := ho.1
  have hr := ho.2.1
  simp only [Queue.pop]
  rw [ptrSub_eq hw hrs] at h1 h2
  rw [ptrSub_eq hw hr] at h2 hpos
  rw [ptrSub_eq hr hrs] at h2
  rw [ptrSub_eq hw h3, ptrSub_eq h3 hrs, ptrSub_eq hw hrs]
  split_ifs at * <;> omega

theorem queueOk_syncW2R {d : Nat} {q : Queue} (hq : q.Ok d) : q.syncW2R.Ok d :=
  ⟨hq.1, ringOk_sync hq.2.1, hq.2.2⟩

theorem queueOk_syncR2W {d : Nat} {q : Queue} (hq : q.Ok d) : q.syncR2W.Ok d := by
  obtain ⟨hl, ho, -, -, -⟩ := hq
  exact ⟨hl, ho, ho.2.1, ho.2.2.2.1, by simp [Queue.syncR2W, ptrSub_self ho.2.1]⟩

theorem queueOk_reset {d : Nat} (hd : 0 < d) {l : List Handle} (hl : l.length = d) :
    Queue.Ok d { slots := l, w := 0, rs := 0, r := 0, ws := 0 } := by
  have : ptrSub d 0 0 = 0 := ptrSub_self (by omega)
  refine ⟨hl, ⟨?_, ?_, ?_, ?_, ?_⟩, ?_, ?_, ?_⟩ <;> simp only [this] <;> omega

theorem freeOk_syncW2R {d : Nat} {f : FreeRing} (hf : f.Ok d) : f.syncW2R.Ok d := ⟨hf.1, ringOk_sync hf.2⟩

/-! ### The structure of an initialised channel, with loose handles -/

/-- The part of `Chan.Live` that pool, queue and hold operations act on, when the handles of `loose` are in no place. -/
structure Placed (p : Params) (c : Ch) (loose : List Handle) (x : Chan) : Prop where
  n_pos : 1 ≤ x.n.toNat
  n_le : x.n.toNat ≤ (p.chan c).nmax
  used_length : x.used.length = (p.chan c).nmax
  held_length : x.held.length = if c.isRx then (p.chan c).nmax else 0
  queue_ok : x.q.Ok (p.chan c).k
  free_ok : x.f.Ok (p.chan c).p
  ownership : (loose ++ x.places p c).Perm ((List.range x.n.toNat).map fun j => BitVec.ofNat 8 j)
  used_le : ∀ u ∈ x.used, u.toNat ≤ (p.chan c).cap
  used_legal : ∀ h ∈ x.q.contents (p.chan c).k ++ x.heldHandles, usedLegal p c (x.usedOf h).toNat

theorem placed_of_live {p : Params} {c : Ch} {x : Chan} (h : x.Live p c) : Placed p c [] x :=
  ⟨h.n_pos, h.n_le, h.used_length, h.held_length, h.queue_ok, h.free_ok, h.ownership, h.used_le, h.used_legal⟩

theorem live_of_placed {p : Params} {c : Ch} {x : Chan} (h : Placed p c [] x) (h1 : c.isTx = true → x.st ≠ .starved)
    (h2 : x.st = .active ↔ x.inflight.isSome = true) (h3 : ∀ g, x.inflight = some g → programmedFor p c g x)
    (h4 : c.isTx = true → ∀ g, x.inflight = some g → usedLegal p c (x.usedOf g).toNat)
    (h5 : x.inflight = none → x.per.en = false ∧ x.per.armed = false) : x.Live p c :=
  ⟨h.n_pos, h.n_le, h.used_length, h.held_length, h.queue_ok, h.free_ok, h.ownership, h.used_le, h.used_legal, h1, h2, h3,
    h4, h5⟩

/-- `Placed` does not look at the state, the peripheral or the transmit trace. -/
theorem placed_congr {p : Params} {c : Ch} {l : List Handle} {x y : Chan} (h : Placed p c l x) (hn : y.n = x.n)
    (hu : y.used = x.used) (hq : y.q = x.q) (hf : y.f = x.f) (hh : y.held = x.held) (hi : y.inflight = x.inflight) :
    Placed p c l y := by
  obtain ⟨st, infl, n, used, q, f, held, per, txOut⟩ := x
  obtain ⟨st', infl', n', used', q', f', held', per', txOut'⟩ := y
  dsimp only at hn hu hq hf hh hi
  subst hn hu hq hf hh hi
  exact ⟨h.1, h.2, h.3, h.4, h.5, h.6, h.7, h.8, h.9⟩

theorem placed_nodup {p : Params} {c : Ch} {l : List Handle} {x : Chan} (hp : p.Legal) (h : Placed p c l x) :
    (l ++ x.places p c).Nodup := by
  have hn : x.n.toNat ≤ 255 := h.n_le.trans (legal_chan hp c).2.2.1
  refine h.ownership.nodup_iff.2 ((List.nodup_range).map_on fun a ha b hb hab => ?_)
  have ha := List.mem_range.1 ha
  have hb := List.mem_range.1 hb
  have := congrArg BitVec.toNat hab
  rwa [ofNat_toNat_of_lt ha hn, ofNat_toNat_of_lt hb hn] at this

theorem placed_lt {p : Params} {c : Ch} {l : List Handle} {x : Chan} (hp : p.Legal) (h : Placed p c l x) {g : Handle}
    (hg : g ∈ l ++ x.places p c) : g.toNat < x.n.toNat := by
  have hn : x.n.toNat ≤ 255 := h.n_le.trans (legal_chan hp c).2.2.1
  have := h.ownership.mem_iff.1 hg
  obtain ⟨j, hj, rfl⟩ := List.mem_map.1 this
  have hj := List.mem_range.1 hj
  rwa [ofNat_toNat_of_lt hj hn]

theorem placed_length {p : Params} {c : Ch} {l : List Handle} {x : Chan} (h : Placed p c l x) :
    l.length + (x.places p c).length = x.n.toNat := by simpa using h.ownership.length_eq

theorem usedLegal_le {p : Params} {c : Ch} {u : Nat} (h : usedLegal p c u) : u ≤ (p.chan c).cap := by
  unfold usedLegal at h; split at h <;> omega

/-! ### Acquire and release -/

/-- What acquire does: it takes the oldest free handle, which becomes loose, with used length 0 (40_chunk_pool.md R105). -/
theorem acquire_eq {p : Params} {c : Ch} {x y : Chan} {h : Handle} (e : acquire p c x = some (h, y)) :
    x.f.emptyR = false ∧ h = x.f.slots.getD (x.f.r % (p.chan c).p) 0#8 ∧
    y = Chan.setUsed { x with f := { x.f with r := ptrSucc (p.chan c).p x.f.r } } h 0#16 := by
  unfold acquire at e
  split at e
  · cases e
  · next hf =>
    simp only [Option.some.injEq, Prod.mk.injEq] at e
    obtain ⟨rfl, rfl⟩ := e
    exact ⟨by simpa using hf, rfl, rfl⟩

theorem acquire_none {p : Params} {c : Ch} {x : Chan} : acquire p c x = none ↔ x.f.emptyR = true := by
  unfold acquire; split <;> simp_all

/-- Acquire leaves the used length of every other handle. -/
theorem acquire_usedOf {p : Params} {c : Ch} {x y : Chan} {h g : Handle} (e : acquire p c x = some (h, y))
    (hl : h.toNat < x.used.length) (hne : g ≠ h) : y.usedOf g = x.usedOf g := by
  obtain ⟨-, -, rfl⟩ := acquire_eq e
  have := usedOf_setUsed { x with f := { x.f with r := ptrSucc (p.chan c).p x.f.r } } h g 0#16 hl
  rw [this, if_neg hne]; rfl

theorem mem_set_le {l : List Half} {i : Nat} {u : Half} {k : Nat} (h : ∀ v ∈ l, v.toNat ≤ k) (hu : u.toNat ≤ k) :
    ∀ v ∈ l.set i u, v.toNat ≤ k := by
  intro v hv
  rcases List.mem_or_eq_of_mem_set hv with hv | rfl
  · exact h v hv
  · exact hu

/-- Writing the used length of a loose handle disturbs nothing else. -/
theorem placed_setUsed {p : Params} {c : Ch} {l : List Handle} {x : Chan} {h : Handle} (u : Half) (hp : p.Legal)
    (hx : Placed p c (h :: l) x) (hu : u.toNat ≤ (p.chan c).cap) : Placed p c (h :: l) (x.setUsed h u) := by
  refine ⟨hx.n_pos, hx.n_le, by simpa using hx.used_length, hx.held_length, hx.queue_ok, hx.free_ok, hx.ownership,
    mem_set_le hx.used_le hu, fun g hg => ?_⟩
  have hlt : h.toNat < x.used.length := by
    rw [hx.used_length]; exact (placed_lt hp hx (by simp)).trans_le hx.n_le
  have hne : g ≠ h := by
    rintro rfl
    have hnd := placed_nodup hp hx
    rw [List.cons_append, List.nodup_cons] at hnd
    refine hnd.1 (List.mem_append_right _ ?_)
    simp only [Chan.places, List.mem_append] at hg ⊢
    rcases hg with hg | hg
    · exact .inr (.inl hg)
    · exact .inr (.inr (.inr hg))
  rw [usedOf_setUsed _ _ _ _ hlt, if_neg hne]
  exact hx.used_legal g hg

theorem placed_acquire {p : Params} {c : Ch} {l : List Handle} {x y : Chan} {h : Handle} (hp : p.Legal)
    (hx : Placed p c l x) (e : acquire p c x = some (h, y)) : Placed p c (h :: l) y := by
  obtain ⟨he, hh, rfl⟩ := acquire_eq e
  have hne : x.f.r ≠ x.f.ws := by simpa [FreeRing.emptyR] using he
  have hpos := occ_pos_of_view hx.free_ok.2 hne
  have hc : x.f.contents (p.chan c).p = h :: ringContents (p.chan c).p x.f.slots x.f.w (ptrSucc (p.chan c).p x.f.r) := by
    rw [hh]; exact ringContents_read hx.free_ok.2.1 hx.free_ok.2.2.1 hpos
  refine placed_setUsed _ hp ⟨hx.n_pos, hx.n_le, hx.used_length, hx.held_length, hx.queue_ok,
    ⟨hx.free_ok.1, ringOk_read hx.free_ok.2 hne⟩, ?_, hx.used_le, hx.used_legal⟩ (by simp)
  refine List.Perm.trans ?_ hx.ownership
  simp only [Chan.places, hc, List.cons_append]
  exact List.perm_middle.symm

theorem placed_release {p : Params} {c : Ch} {l : List Handle} {x : Chan} {h : Handle} (hp : p.Legal)
    (hx : Placed p c (h :: l) x) : Placed p c l (release p c h x) := by
  have hlen := placed_length hx
  have hocc : ptrSub (p.chan c).p x.f.w x.f.r < (p.chan c).p := by
    have h1 : (x.f.contents (p.chan c).p).length = ptrSub (p.chan c).p x.f.w x.f.r := ringContents_length _ _ _ _
    have h2 := nmax_le_p (legal_chan hp c).2.2.1
    have h3 := hx.n_le
    simp only [Chan.places, List.length_append, List.length_cons] at hlen
    omega
  have hc := ringContents_write h hx.free_ok.2.1 hx.free_ok.2.2.1 hx.free_ok.1 hocc
  refine ⟨hx.n_pos, hx.n_le, hx.used_length, hx.held_length, hx.queue_ok,
    ⟨by simpa [release] using hx.free_ok.1, ringOk_write hx.free_ok.2 hocc⟩, ?_, hx.used_le, hx.used_legal⟩
  refine List.Perm.trans ?_ hx.ownership
  have : (release p c h x).places p c = (x.f.contents (p.chan c).p ++ [h]) ++
      (x.q.contents (p.chan c).k ++ (x.inflight.toList ++ x.heldHandles)) := by
    rw [Chan.places]; exact congrArg (· ++ _) hc
  rw [this, Chan.places, List.append_assoc, List.singleton_append]
  exact (List.Perm.append_left l List.perm_middle).trans List.perm_middle

/-! ### Queue operations -/

theorem placed_push {p : Params} {c : Ch} {l : List Handle} {x : Chan} {h : Handle}
    (hx : Placed p c (h :: l) x) (hf : x.q.fullW (p.chan c).k = false) (hu : usedLegal p c (x.usedOf h).toNat) :
    Placed p c l { x with q := x.q.push (p.chan c).k h } := by
  obtain ⟨hq, hc⟩ := queueOk_push h hx.queue_ok hf
  refine ⟨hx.n_pos, hx.n_le, hx.used_length, hx.held_length, hq, hx.free_ok, ?_, hx.used_le, fun g hg => ?_⟩
  · refine List.Perm.trans ?_ hx.ownership
    simp only [Chan.places, hc, List.cons_append, Chan.heldHandles]
    have e1 : l ++ (x.f.contents (p.chan c).p ++ (x.q.contents (p.chan c).k ++ [h] ++
        (x.inflight.toList ++ x.heldHandles))) =
        (l ++ x.f.contents (p.chan c).p ++ x.q.contents (p.chan c).k) ++ h :: (x.inflight.toList ++ x.heldHandles) := by simp
    have e2 : h :: (l ++ (x.f.contents (p.chan c).p ++ (x.q.contents (p.chan c).k ++ (x.inflight.toList ++ x.heldHandles)))) =
        h :: ((l ++ x.f.contents (p.chan c).p ++ x.q.contents (p.chan c).k) ++ (x.inflight.toList ++ x.heldHandles)) := by simp
    exact (List.Perm.of_eq e1).trans (List.perm_middle.trans (List.Perm.of_eq e2.symm))
  · simp only [hc] at hg
    by_cases hgh : g = h
    · subst hgh; exact hu
    · refine hx.used_legal g ?_
      simp only [List.mem_append, List.mem_singleton, hgh, or_false] at hg ⊢
      exact hg

theorem placed_pop {p : Params} {c : Ch} {l : List Handle} {x : Chan}
    (hx : Placed p c l x) (he : x.q.emptyR = false) :
    Placed p c (x.q.front (p.chan c).k :: l) { x with q := x.q.pop (p.chan c).k } ∧
    usedLegal p c (x.usedOf (x.q.front (p.chan c).k)).toNat := by
  obtain ⟨hq, hc⟩ := queueOk_pop hx.queue_ok he
  refine ⟨⟨hx.n_pos, hx.n_le, hx.used_length, hx.held_length, hq, hx.free_ok, ?_, hx.used_le, fun g hg => ?_⟩,
    hx.used_legal _ (by simp [hc])⟩
  · refine List.Perm.trans ?_ hx.ownership
    simp only [Chan.places, hc, List.cons_append, Chan.heldHandles]
    have e1 : l ++ (x.f.contents (p.chan c).p ++ (x.q.front (p.chan c).k :: ((x.q.pop (p.chan c).k).contents (p.chan c).k ++
        (x.inflight.toList ++ x.heldHandles)))) =
        (l ++ x.f.contents (p.chan c).p) ++ x.q.front (p.chan c).k :: ((x.q.pop (p.chan c).k).contents (p.chan c).k ++
        (x.inflight.toList ++ x.heldHandles)) := by simp
    refine List.Perm.trans ?_ (List.Perm.of_eq e1.symm)
    refine List.Perm.trans ?_ List.perm_middle.symm
    simp [Chan.heldHandles]
  · refine hx.used_legal g ?_
    rw [hc]
    simp only [List.mem_append, List.cons_append, List.mem_cons] at hg ⊢
    exact .inr hg

/-! ### In flight and held -/

theorem placed_setInflight {p : Params} {c : Ch} {l : List Handle} {x : Chan} {h : Handle}
    (hx : Placed p c (h :: l) x) (hi : x.inflight = none) : Placed p c l { x with inflight := some h } := by
  refine ⟨hx.n_pos, hx.n_le, hx.used_length, hx.held_length, hx.queue_ok, hx.free_ok, ?_, hx.used_le, hx.used_legal⟩
  refine List.Perm.trans ?_ hx.ownership
  simp only [Chan.places, hi, Option.toList_none, Option.toList_some, List.nil_append, List.cons_append, Chan.heldHandles]
  have e1 : l ++ (x.f.contents (p.chan c).p ++ (x.q.contents (p.chan c).k ++ (h :: x.heldHandles))) =
      (l ++ x.f.contents (p.chan c).p ++ x.q.contents (p.chan c).k) ++ h :: x.heldHandles := by simp
  refine (List.Perm.of_eq e1).trans (List.perm_middle.trans (List.Perm.of_eq ?_))
  simp [Chan.heldHandles]

theorem placed_clearInflight {p : Params} {c : Ch} {l : List Handle} {x : Chan} {h : Handle}
    (hx : Placed p c l x) (hi : x.inflight = some h) : Placed p c (h :: l) { x with inflight := none } := by
  refine ⟨hx.n_pos, hx.n_le, hx.used_length, hx.held_length, hx.queue_ok, hx.free_ok, ?_, hx.used_le, hx.used_legal⟩
  refine List.Perm.trans ?_ hx.ownership
  simp only [Chan.places, hi, Option.toList_none, Option.toList_some, List.nil_append, List.cons_append, Chan.heldHandles]
  have e1 : l ++ (x.f.contents (p.chan c).p ++ (x.q.contents (p.chan c).k ++ (h :: x.heldHandles))) =
      (l ++ x.f.contents (p.chan c).p ++ x.q.contents (p.chan c).k) ++ h :: x.heldHandles := by simp
  refine List.Perm.trans ?_ (List.Perm.of_eq e1.symm)
  refine List.Perm.trans (List.Perm.of_eq ?_) List.perm_middle.symm
  simp [Chan.heldHandles]

/-- Setting `held_c[h]` adds `h` to the held handles, clearing it removes `h` (10_state.md R29). -/
theorem heldHandles_set {x : Chan} {h : Handle} (hlen : x.held.length ≤ 255) (hlt : h.toNat < x.held.length)
    (hold : x.holds h = false) :
    (h :: x.heldHandles).Perm (Chan.heldHandles { x with held := x.held.set h.toNat true }) := by
  have hnd : ∀ l : List Bool, l.length ≤ 255 →
      (((List.range l.length).filter fun j => l.getD j false).map fun j => BitVec.ofNat 8 j).Nodup := by
    intro l hl
    refine (List.nodup_range.filter _).map_on fun a ha b hb hab => ?_
    have ha := List.mem_range.1 (List.mem_filter.1 ha).1
    have hb := List.mem_range.1 (List.mem_filter.1 hb).1
    have := congrArg BitVec.toNat hab
    rwa [ofNat_toNat_of_lt ha hl, ofNat_toNat_of_lt hb hl] at this
  have hmem : ∀ (l : List Bool) (g : Handle), l.length ≤ 255 →
      (g ∈ ((List.range l.length).filter fun j => l.getD j false).map (fun j => BitVec.ofNat 8 j) ↔ l.getD g.toNat false = true) := by
    intro l g hl
    constructor
    · intro hg
      obtain ⟨j, hj, rfl⟩ := List.mem_map.1 hg
      have h1 := List.mem_filter.1 hj
      rw [ofNat_toNat_of_lt (List.mem_range.1 h1.1) hl]; exact h1.2
    · intro hg
      refine List.mem_map.2 ⟨g.toNat, List.mem_filter.2 ⟨List.mem_range.2 ?_, hg⟩, by simp⟩
      by_contra hge
      rw [List.getD_eq_getElem?_getD, List.getElem?_eq_none (by omega)] at hg
      exact absurd hg (by decide)
  refine (List.perm_ext_iff_of_nodup ?_ ?_).2 fun g => ?_
  · refine List.nodup_cons.2 ⟨fun hm => ?_, hnd _ hlen⟩
    have := (hmem x.held h hlen).1 hm
    rw [Chan.holds] at hold; rw [hold] at this; cases this
  · exact hnd (x.held.set h.toNat true) (by simpa using hlen)
  · rw [List.mem_cons]
    unfold Chan.heldHandles
    rw [hmem _ g hlen, hmem (x.held.set h.toNat true) g (by simpa using hlen)]
    by_cases hgh : g = h
    · subst hgh; simp [List.getD_eq_getElem?_getD, hlt]
    · have hne : h.toNat ≠ g.toNat := fun e => hgh (BitVec.eq_of_toNat_eq e.symm)
      simp [List.getD_eq_getElem?_getD, hgh, hne]

theorem placed_hold {p : Params} {c : Ch} {l : List Handle} {x : Chan} {h : Handle} (hp : p.Legal) (hr : c.isRx = true)
    (hx : Placed p c (h :: l) x) (hu : usedLegal p c (x.usedOf h).toNat) :
    Placed p c l { x with held := x.held.set h.toNat true } := by
  have hL := legal_chan hp c
  have hlen : x.held.length = (p.chan c).nmax := by simpa [hr] using hx.held_length
  have hlt : h.toNat < x.held.length := by rw [hlen]; exact (placed_lt hp hx (by simp)).trans_le hx.n_le
  have hlen' : x.held.length ≤ 255 := hlen ▸ hL.2.2.1
  have hnot : x.holds h = false := by
    by_contra hh
    have hmem : h ∈ x.heldHandles := by
      refine List.mem_map.2 ⟨h.toNat, List.mem_filter.2 ⟨List.mem_range.2 hlt, ?_⟩, by simp⟩
      simpa [Chan.holds] using hh
    have hnd := placed_nodup hp hx
    rw [List.cons_append, List.nodup_cons] at hnd
    exact hnd.1 (by simp [Chan.places, hmem])
  have hperm := heldHandles_set hlen' hlt hnot
  refine ⟨hx.n_pos, hx.n_le, hx.used_length, by simpa using hx.held_length, hx.queue_ok, hx.free_ok, ?_, hx.used_le,
    fun g hg => ?_⟩
  · refine List.Perm.trans ?_ hx.ownership
    have e1 : l ++ (x.f.contents (p.chan c).p ++ (x.q.contents (p.chan c).k ++ (x.inflight.toList ++ h :: x.heldHandles))) =
        (l ++ x.f.contents (p.chan c).p ++ x.q.contents (p.chan c).k ++ x.inflight.toList) ++ h :: x.heldHandles := by simp
    refine List.Perm.trans (List.Perm.append_left l (List.Perm.append_left _ (List.Perm.append_left _
      (List.Perm.append_left _ hperm.symm)))) ?_
    refine (List.Perm.of_eq e1).trans (List.perm_middle.trans (List.Perm.of_eq ?_))
    simp [Chan.places]
  · rcases List.mem_append.1 hg with hg | hg
    · exact hx.used_legal g (List.mem_append_left _ hg)
    · rcases List.mem_cons.1 (hperm.mem_iff.2 hg) with rfl | hg
      · exact hu
      · exact hx.used_legal g (List.mem_append_right _ hg)

theorem placed_unhold {p : Params} {c : Ch} {l : List Handle} {x : Chan} {h : Handle} (hp : p.Legal) (hr : c.isRx = true)
    (hx : Placed p c l x) (hh : x.holds h = true) :
    Placed p c (h :: l) { x with held := x.held.set h.toNat false } := by
  have hL := legal_chan hp c
  have hlen : x.held.length = (p.chan c).nmax := by simpa [hr] using hx.held_length
  have hlt : h.toNat < x.held.length := by
    by_contra hge
    rw [Chan.holds, List.getD_eq_getElem?_getD, List.getElem?_eq_none (by omega)] at hh
    exact absurd hh (by decide)
  have hlen' : x.held.length ≤ 255 := hlen ▸ hL.2.2.1
  have hback : (x.held.set h.toNat false).set h.toNat true = x.held := by
    rw [List.set_set]
    have : x.held[h.toNat] = true := by
      simpa [Chan.holds, List.getD_eq_getElem?_getD, List.getElem?_eq_getElem hlt] using hh
    conv_rhs => rw [← List.set_getElem_self hlt, this]
  have hperm := heldHandles_set (x := { x with held := x.held.set h.toNat false }) (h := h) (by simpa using hlen')
    (by simpa using hlt) (by simp [Chan.holds, List.getD_eq_getElem?_getD, hlt])
  simp only [hback] at hperm
  refine ⟨hx.n_pos, hx.n_le, hx.used_length, by simpa using hx.held_length, hx.queue_ok, hx.free_ok, ?_, hx.used_le,
    fun g hg => hx.used_legal g ?_⟩
  · refine List.Perm.trans ?_ hx.ownership
    simp only [Chan.places, List.cons_append]
    refine List.Perm.trans ?_ (List.Perm.append_left l (List.Perm.append_left _ (List.Perm.append_left _
      (List.Perm.append_left _ hperm))))
    have e1 : ∀ H : List Handle, l ++ (x.f.contents (p.chan c).p ++ (x.q.contents (p.chan c).k ++
        (x.inflight.toList ++ h :: H))) =
        (l ++ x.f.contents (p.chan c).p ++ x.q.contents (p.chan c).k ++ x.inflight.toList) ++ h :: H := by simp
    refine List.Perm.trans ?_ (List.Perm.of_eq (e1 _).symm)
    refine List.Perm.trans (List.Perm.of_eq ?_) List.perm_middle.symm
    simp
  · rcases List.mem_append.1 hg with hg | hg
    · exact List.mem_append_left _ hg
    · exact List.mem_append_right _ (hperm.mem_iff.1 (List.mem_cons_of_mem _ hg))

end Sys2Proof.Machine
end

