-- ==== Sys2Proof/Laws/Channel.lean ====
section
/-! SUPPORT. Every transition of a channel keeps its invariant `Chan.Live` (10_state.md R23 to R30, R51, R52): one lemma per
row of the transition tables 43_channel_rx.md R179 and 44_channel_tx.md R207, and one per command that touches the rings. -/

namespace Sys2Proof.Machine

theorem rx_not_tx {c : Ch} (h : c.isRx = true) : ¬c.isTx = true := by
  intro h'; simp [Ch.isRx, h'] at h

theorem tx_not_rx {c : Ch} (h : c.isTx = true) : c.isRx = false := by simp [Ch.isRx, h]

/-! ### CH_INIT (40_chunk_pool.md R104) -/

theorem fillSlots_length (n : Nat) (l : List Handle) : (fillSlots n l).length = l.length := by
  unfold fillSlots
  induction n with
  | zero => rfl
  | succ n ih => rw [List.range_succ, List.foldl_append]; simpa using ih

theorem fillSlots_getD (n : Nat) (l : List Handle) (j : Nat) (hl : j < l.length) :
    (fillSlots n l).getD j 0#8 = if j < n then BitVec.ofNat 8 j else l.getD j 0#8 := by
  induction n with
  | zero => simp [fillSlots]
  | succ n ih =>
    have hlen := fillSlots_length n l
    have : fillSlots (n + 1) l = (fillSlots n l).set n (BitVec.ofNat 8 n) := by
      unfold fillSlots; rw [List.range_succ, List.foldl_append]; rfl
    rw [this]
    by_cases hj : n = j
    · subst hj
      simp [List.getD_eq_getElem?_getD, hlen, hl]
    · have h1 : ((fillSlots n l).set n (BitVec.ofNat 8 n)).getD j 0#8 = (fillSlots n l).getD j 0#8 := by
        simp [List.getD_eq_getElem?_getD, hj]
      rw [h1, ih]
      by_cases hlt : j < n
      · rw [if_pos hlt, if_pos (by omega)]
      · rw [if_neg hlt, if_neg (by omega)]

/-- The free ring POOL_INIT leaves holds the handles 0 .. n-1 in order (R104, R109). -/
theorem poolInit_contents {p : Params} {c : Ch} {n : Byte} {x : Chan} (hl : x.f.slots.length = (p.chan c).p)
    (hn : n.toNat ≤ (p.chan c).p) :
    ((poolInit p c n x).f).contents (p.chan c).p = (List.range n.toNat).map fun j => BitVec.ofNat 8 j := by
  have hpos : 0 < (p.chan c).p := Nat.pow_pos (by decide)
  have hocc : ptrSub (p.chan c).p n.toNat 0 = n.toNat := by rw [ptrSub_eq (by omega) (by omega)]; simp
  simp only [poolInit, FreeRing.contents, ringContents, hocc, Nat.zero_add]
  refine List.map_congr_left fun j hj => ?_
  have hj := List.mem_range.1 hj
  rw [Nat.mod_eq_of_lt (by omega), fillSlots_getD _ _ _ (by omega), if_pos hj]

theorem heldHandles_none {x : Chan} {k : Nat} (h : x.held = List.replicate k false) : x.heldHandles = [] := by
  simp only [Chan.heldHandles, h, List.map_eq_nil_iff, List.filter_eq_nil_iff]
  intro j _
  rw [List.getD_eq_getElem?_getD, List.getElem?_replicate]
  split <;> simp

/-- A channel that CH_INIT has just initialised (43_channel_rx.md R170, 44_channel_tx.md R200). -/
theorem live_init {p : Params} {c : Ch} {n : Byte} {x y : Chan} (hp : p.Legal) (h1 : 1 ≤ n.toNat)
    (h2 : n.toNat ≤ (p.chan c).nmax) (hq : x.q.slots.length = (p.chan c).k) (hf : x.f.slots.length = (p.chan c).p)
    (en : y.n = n) (eu : y.used = List.replicate (p.chan c).nmax 0#16) (eq : y.q = { x.q with w := 0, r := 0, ws := 0, rs := 0 })
    (ef : y.f = (poolInit p c n x).f) (eh : y.held = List.replicate (if c.isRx then (p.chan c).nmax else 0) false)
    (ei : y.inflight = none) (es : y.st = .idle) (ep : y.per.en = false ∧ y.per.armed = false) : y.Live p c := by
  have hk := k_pos (p.chan c)
  have hnp := h2.trans (nmax_le_p (legal_chan hp c).2.2.1)
  have hpos : 0 < (p.chan c).p := Nat.pow_pos (by decide)
  have hheld := heldHandles_none eh
  have hqc : y.q.contents (p.chan c).k = [] := by rw [eq]; exact ringContents_empty _ (Nat.mul_pos (by decide) hk)
  refine live_of_placed ⟨by rw [en]; exact h1, by rw [en]; exact h2, by simp [eu], by simp [eh], ?_, ?_, ?_, ?_, ?_⟩ ?_ ?_ ?_ ?_ ?_
  · rw [eq]; exact queueOk_reset hk hq
  · have hs : ptrSub (p.chan c).p n.toNat 0 = n.toNat := by rw [ptrSub_eq (by omega) (by omega)]; simp
    have hz : ptrSub (p.chan c).p n.toNat n.toNat = 0 := ptrSub_self (by omega)
    rw [ef]
    exact ⟨by simpa [poolInit, fillSlots_length] using hf, by simp only [poolInit]; omega, by simp only [poolInit]; omega,
      by simp only [poolInit]; omega, by simp only [poolInit, hs]; exact hnp, by simp only [poolInit, hs, hz]; omega⟩
  · rw [Chan.places, hqc, hheld, ei, ef, poolInit_contents hf hnp, en]; simp
  · rw [eu]; intro u hu; rw [List.eq_of_mem_replicate hu]; simp
  · rw [hqc, hheld]; simp
  · simp [es]
  · simp [es, ei]
  · simp [ei]
  · simp [ei]
  · exact fun _ => ep

/-! ### What programming a peripheral establishes -/

theorem programmedFor_program (p : Params) (c : Ch) (h : Handle) (x : Chan) : programmedFor p c h (program p c h x) :=
  ⟨rfl, rfl, rfl, rfl⟩

/-- A chunk taken into flight from a loose handle (R171, R175, R204). -/
theorem live_fly {p : Params} {c : Ch} {x y : Chan} {h : Handle} (hx : Placed p c [h] x) (hi : x.inflight = none)
    (ht : c.isTx = true → usedLegal p c (x.usedOf h).toNat) (e : y = program p c h { x with inflight := some h, st := .active }) :
    y.Live p c := by
  subst e
  have h1 : Placed p c [] { x with inflight := some h } := placed_setInflight hx hi
  refine live_of_placed (placed_congr h1 rfl rfl rfl rfl rfl rfl) (by simp) (by simp) ?_ ?_ (by simp)
  · rintro g hg
    obtain rfl : h = g := by simpa using hg
    exact programmedFor_program _ _ _ _
  · rintro hc g hg
    obtain rfl : h = g := by simpa using hg
    exact ht hc

/-- A channel with nothing in flight and its peripheral stopped. -/
theorem live_ground {p : Params} {c : Ch} {x : Chan} (hx : Placed p c [] x) (hi : x.inflight = none)
    (hs : x.st ≠ .active) (ht : c.isTx = true → x.st ≠ .starved) (hp : x.per.en = false ∧ x.per.armed = false) :
    x.Live p c :=
  live_of_placed hx ht (by simp [hi, hs]) (by simp [hi]) (by simp [hi]) (fun _ => hp)

/-- The rest of an initialised channel stays as it was while something is in flight or not: only rings, used lengths of
handles that are not in flight, and held handles changed. -/
theorem live_same {p : Params} {c : Ch} {x y : Chan} (hx : x.Live p c) (hy : Placed p c [] y) (es : y.st = x.st)
    (ei : y.inflight = x.inflight) (ep : y.per = x.per) (eu : ∀ g, x.inflight = some g → y.usedOf g = x.usedOf g) : y.Live p c := by
  refine live_of_placed hy (by rw [es]; exact hx.tx_not_starved) (by rw [es, ei]; exact hx.inflight_iff) ?_ ?_ ?_
  · intro g hg
    rw [ei] at hg
    have := hx.programmed g hg
    simpa only [programmedFor, transferCount, ep, eu g hg] using this
  · intro hc g hg
    rw [ei] at hg
    rw [eu g hg]; exact hx.tx_used hc g hg
  · intro h; rw [ep]; exact hx.stopped (ei ▸ h)

/-! ### Receive channel -/

/-- CH_START (R171) and the Rx retry step (R175): acquire and arm. -/
theorem live_arm {p : Params} {c : Ch} {x y : Chan} {h : Handle} (hp : p.Legal) (hr : c.isRx = true) (hx : x.Live p c)
    (hs : x.st ≠ .active) (e : acquire p c x = some (h, y)) : (arm p c h y).Live p c := by
  have hy := placed_acquire hp (placed_of_live hx) e
  have hi : y.inflight = none := by
    obtain ⟨-, -, rfl⟩ := acquire_eq e
    have := hx.inflight_iff
    cases hxi : x.inflight with
    | none => rfl
    | some g => rw [hxi] at this; exact absurd (this.2 rfl) hs
  exact live_fly hy hi (fun hc => absurd hc (rx_not_tx hr)) rfl

theorem live_rxRetry {p : Params} {c : Ch} {x : Chan} (hp : p.Legal) (hr : c.isRx = true) (hx : x.Live p c) :
    (rxRetry p c x).Live p c := by
  unfold rxRetry
  split
  · next he =>
    have hs : x.st = .starved := by simp only [rxRetryEnabled, Bool.and_eq_true, beq_iff_eq] at he; exact he.1
    split
    · next e => exact live_arm hp hr hx (by simp [hs]) e
    · exact hx
  · exact hx

/-- The completion handler of a receive channel, in each of its outcomes (R172, R173, R174, R182). -/
theorem live_rxComplete {p : Params} {c : Ch} {x : Chan} (hp : p.Legal) (hr : c.isRx = true) (hx : x.Live p c) :
    (rxComplete p c x).Live p c := by
  unfold rxComplete
  split
  · next h hst hi =>
    have hL := legal_chan hp c
    have hcap : (BitVec.ofNat 16 (p.chan c).cap).toNat = (p.chan c).cap := by
      rw [BitVec.toNat_ofNat]; exact Nat.mod_eq_of_lt (by have := hL.2.2.2.2.1; omega)
    have h1 := placed_setUsed (BitVec.ofNat 16 (p.chan c).cap) hp (placed_clearInflight (placed_of_live hx) hi) hcap.le
    have hlt : h.toNat < x.used.length := by
      rw [hx.used_length]; exact (placed_lt hp (placed_of_live hx) (by simp [Chan.places, hi])).trans_le hx.n_le
    have hu : (x.setUsed h (BitVec.ofNat 16 (p.chan c).cap)).usedOf h = BitVec.ofNat 16 (p.chan c).cap := by
      rw [usedOf_setUsed _ _ _ _ hlt, if_pos rfl]
    dsimp only
    split
    · refine live_fly (x := { x.setUsed h (BitVec.ofNat 16 (p.chan c).cap) with inflight := none }) h1 rfl
        (fun hc => absurd hc (rx_not_tx hr)) ?_
      simp [program, hi, hst, Chan.setUsed, Chan.usedOf]
    · next hf =>
      have hleg : usedLegal p c ((Chan.setUsed { x with inflight := none } h (BitVec.ofNat 16 (p.chan c).cap)).usedOf h).toNat := by
        have : (Chan.setUsed { x with inflight := none } h (BitVec.ofNat 16 (p.chan c).cap)).usedOf h =
          BitVec.ofNat 16 (p.chan c).cap := hu
        rw [this, hcap]; simp [usedLegal, hr]
      have h2 := placed_push h1 (by simpa using hf) hleg
      split
      · next h2' y e =>
        have h3 := placed_acquire (x := { Chan.setUsed { x with inflight := none } h (BitVec.ofNat 16 (p.chan c).cap) with
          q := x.q.push (p.chan c).k h }) (y := { y with inflight := none }) hp h2 (by
            obtain ⟨ha, hb, rfl⟩ := acquire_eq e
            unfold acquire
            rw [if_neg (by simpa using ha)]
            exact congrArg some (Prod.ext hb.symm (by subst hb; rfl)))
        refine live_fly h3 rfl (fun hc => absurd hc (rx_not_tx hr)) ?_
        have : y.st = .active := by obtain ⟨-, -, rfl⟩ := acquire_eq e; exact hst
        simp [program, this, Chan.usedOf]
      · refine live_ground (placed_congr h2 rfl rfl rfl rfl rfl rfl) rfl (by simp) (fun hc => absurd hc (rx_not_tx hr)) ⟨rfl, rfl⟩
  · exact hx

/-- RX_GET takes the head out of the queue and back into the free ring (R176). -/
theorem live_rxGet {p : Params} {c : Ch} {x : Chan} (hp : p.Legal) (hx : x.Live p c) (he : x.q.emptyR = false) :
    (release p c (x.q.front (p.chan c).k) { x with q := x.q.pop (p.chan c).k }).Live p c :=
  live_same hx (placed_release hp (placed_pop (placed_of_live hx) he).1) rfl rfl rfl fun _ _ => rfl

/-- RX_GET_NC takes the head out of the queue into the held set (R177). -/
theorem live_rxGetNc {p : Params} {c : Ch} {x : Chan} (hp : p.Legal) (hr : c.isRx = true) (hx : x.Live p c)
    (he : x.q.emptyR = false) :
    Chan.Live p c { x with q := x.q.pop (p.chan c).k, held := x.held.set (x.q.front (p.chan c).k).toNat true } := by
  obtain ⟨h1, h2⟩ := placed_pop (placed_of_live hx) he
  exact live_same hx (placed_hold hp hr h1 h2) rfl rfl rfl fun _ _ => rfl

/-- RX_RELEASE takes a held handle into the free ring (R178). -/
theorem live_rxRelease {p : Params} {c : Ch} {x : Chan} {h : Handle} (hp : p.Legal) (hr : c.isRx = true) (hx : x.Live p c)
    (hh : x.holds h = true) :
    (release p c h { x with held := x.held.set h.toNat false }).Live p c :=
  live_same hx (placed_release hp (placed_unhold hp hr (placed_of_live hx) hh)) rfl rfl rfl fun _ _ => rfl

/-! ### Transmit channel -/

/-- TX_PUT acquires a chunk, fills it and queues it (44_channel_tx.md R203). -/
theorem live_txPut {p : Params} {c : Ch} {x y : Chan} {h : Handle} {u : Half} (hp : p.Legal) (hx : x.Live p c)
    (hu : usedLegal p c u.toNat) (hf : x.q.fullW (p.chan c).k = false) (e : acquire p c x = some (h, y)) :
    Chan.Live p c { y.setUsed h u with q := y.q.push (p.chan c).k h } := by
  have h1 := placed_acquire hp (placed_of_live hx) e
  have h2 := placed_setUsed u hp h1 (usedLegal_le hu)
  have hlt : h.toNat < y.used.length := by
    rw [h1.used_length]; exact (placed_lt hp h1 (by simp)).trans_le h1.n_le
  have hq : y.q = x.q := by obtain ⟨-, -, rfl⟩ := acquire_eq e; rfl
  have h3 := placed_push h2 (by rw [setUsed_q, hq]; exact hf) (by rw [usedOf_setUsed _ _ _ _ hlt, if_pos rfl]; exact hu)
  have hlx : h.toNat < x.used.length := by obtain ⟨-, -, rfl⟩ := acquire_eq e; simpa using hlt
  refine live_same hx h3 ?_ ?_ ?_ ?_
  · obtain ⟨-, -, rfl⟩ := acquire_eq e; rfl
  · obtain ⟨-, -, rfl⟩ := acquire_eq e; rfl
  · obtain ⟨-, -, rfl⟩ := acquire_eq e; rfl
  · intro g hg
    have hne : g ≠ h := by
      rintro rfl
      have hnd := placed_nodup hp h1
      rw [List.cons_append, List.nodup_cons] at hnd
      refine hnd.1 ?_
      have : y.inflight = some g := by obtain ⟨-, -, rfl⟩ := acquire_eq e; exact hg
      simp [Chan.places, this]
    have e1 : Chan.usedOf { y.setUsed h u with q := y.q.push (p.chan c).k h } g = (y.setUsed h u).usedOf g := rfl
    rw [e1, usedOf_setUsed _ _ _ _ hlt, if_neg hne]
    exact acquire_usedOf e hlx hne

/-- What Q_GET answers (41_async_fifo.md R131). -/
theorem queueGet_eq {d : Nat} {q q' : Queue} {h : Handle} (e : q.get d = some (h, q')) :
    q.emptyR = false ∧ h = q.front d ∧ q' = q.pop d := by
  unfold Queue.get at e
  split at e
  · cases e
  · next hq => simp only [Option.some.injEq, Prod.mk.injEq] at e; exact ⟨by simpa using hq, e.1.symm, e.2.symm⟩

theorem queueGet_none {d : Nat} {q : Queue} : q.get d = none ↔ q.emptyR = true := by
  unfold Queue.get; split <;> simp_all

/-- The Tx kick step (R204). -/
theorem live_txKick {p : Params} {c : Ch} {x : Chan} (hx : x.Live p c) : (txKick p c x).Live p c := by
  unfold txKick
  split
  · next he =>
    have hs : x.st = .idle := by simp only [txKickEnabled, Bool.and_eq_true, beq_iff_eq] at he; exact he.1
    split
    · next h q e =>
      obtain ⟨hq, rfl, rfl⟩ := queueGet_eq e
      obtain ⟨h1, h2⟩ := placed_pop (placed_of_live hx) hq
      have hi : x.inflight = none := by
        have := hx.inflight_iff
        cases hxi : x.inflight with
        | none => rfl
        | some g => rw [hxi, hs] at this; exact absurd (this.2 rfl) (by decide)
      exact live_fly h1 hi (fun _ => h2) rfl
    · exact hx
  · exact hx

/-- The completion handler of a transmit channel, in each of its outcomes (R205, R206). -/
theorem live_txComplete {p : Params} {c : Ch} {x : Chan} (hp : p.Legal) (hx : x.Live p c) : (txComplete p c x).Live p c := by
  unfold txComplete
  split
  · next h hst hi =>
    have h1 := placed_release hp (placed_clearInflight (placed_of_live hx) hi)
    dsimp only
    split
    · next h2 q e =>
      obtain ⟨hq, rfl, rfl⟩ := queueGet_eq e
      obtain ⟨h3, h4⟩ := placed_pop h1 hq
      refine live_fly h3 rfl (fun _ => h4) ?_
      simp [program, release, hst, Chan.usedOf]
    · exact live_ground (placed_congr h1 rfl rfl rfl rfl rfl rfl) rfl (by simp) (by simp) ⟨rfl, rfl⟩
  · exact hx

/-! ### Synchronisers and completions -/

theorem live_syncQueueW2R {p : Params} {c : Ch} {x : Chan} (hx : x.Live p c) :
    Chan.Live p c { x with q := x.q.syncW2R } :=
  live_same hx ⟨hx.n_pos, hx.n_le, hx.used_length, hx.held_length, queueOk_syncW2R hx.queue_ok, hx.free_ok, hx.ownership,
    hx.used_le, hx.used_legal⟩ rfl rfl rfl fun _ _ => rfl

theorem live_syncQueueR2W {p : Params} {c : Ch} {x : Chan} (hx : x.Live p c) :
    Chan.Live p c { x with q := x.q.syncR2W } :=
  live_same hx ⟨hx.n_pos, hx.n_le, hx.used_length, hx.held_length, queueOk_syncR2W hx.queue_ok, hx.free_ok, hx.ownership,
    hx.used_le, hx.used_legal⟩ rfl rfl rfl fun _ _ => rfl

theorem live_syncFreeW2R {p : Params} {c : Ch} {x : Chan} (hx : x.Live p c) :
    Chan.Live p c { x with f := x.f.syncW2R } :=
  live_same hx ⟨hx.n_pos, hx.n_le, hx.used_length, hx.held_length, hx.queue_ok, freeOk_syncW2R hx.free_ok, hx.ownership,
    hx.used_le, hx.used_legal⟩ rfl rfl rfl fun _ _ => rfl

/-- A completion disarms the peripheral and may extend the transmit trace (46_peripheral.md R241, R242). -/
theorem live_done {p : Params} {c : Ch} {x : Chan} (tx : List (List Byte)) (hx : x.Live p c) :
    Chan.Live p c { x with per := { x.per with armed := false }, txOut := tx } :=
  ⟨hx.n_pos, hx.n_le, hx.used_length, hx.held_length, hx.queue_ok, hx.free_ok, hx.ownership, hx.used_le, hx.used_legal,
    hx.tx_not_starved, hx.inflight_iff, hx.programmed, hx.tx_used, fun h => ⟨(hx.stopped h).1, rfl⟩⟩

end Sys2Proof.Machine
end

