-- ==== Sys2Proof/Laws/Memory.lean ====
section
/-! SUPPORT. SYS: what a read sees after a write, and that every operation keeps the canonical form. -/

namespace Sys2Proof.Machine

/-- A byte is stored where it was written, and every other address stores what it stored. -/
theorem stored_write (m : Memory) (a b : Nat) (v : Byte) (h : m.wf) :
    (m.write a v).stored b = if b = a then some v else m.stored b := by
  induction m with
  | nil => simp [Memory.write, Memory.stored, eq_comm]
  | cons y rest ih =>
    obtain ⟨x, w⟩ := y
    have hrest := ih (List.Pairwise.of_cons h)
    unfold Memory.write
    split
    · by_cases hb : b = a <;> simp [Memory.stored, hb, eq_comm]
      omega
    · split
      · next heq => subst heq; by_cases hb : b = a <;> simp [Memory.stored, hb, Ne.symm]
      · by_cases hx : x = b
        · subst hx; simp [Memory.stored]; omega
        · simp [Memory.stored, hx, hrest]

theorem write_mem {m : Memory} {a : Nat} {v : Byte} {z : Host.Cell} (h : z ∈ m.write a v) : z = (a, v) ∨ z ∈ m := by
  induction m with
  | nil => simpa [Memory.write] using h
  | cons y rest ih =>
    obtain ⟨x, w⟩ := y
    unfold Memory.write at h
    split at h
    · simpa using h
    · split at h
      · rcases List.mem_cons.1 h with h | h
        · exact .inl h
        · exact .inr (List.mem_cons_of_mem _ h)
      · rcases List.mem_cons.1 h with h | h
        · exact .inr (by simp [h])
        · exact (ih h).imp id (List.mem_cons_of_mem _)

theorem write_wf (m : Memory) (a : Nat) (v : Byte) (h : m.wf) : (m.write a v).wf := by
  induction m with
  | nil => simp [Memory.write]
  | cons y rest ih =>
    obtain ⟨x, w⟩ := y
    have h1 := List.pairwise_cons.1 h
    unfold Memory.write
    split
    · next hlt =>
      refine List.pairwise_cons.2 ⟨fun z hz => ?_, h⟩
      rcases List.mem_cons.1 hz with rfl | hz
      · exact hlt
      · exact Nat.lt_trans hlt (h1.1 z hz)
    · split
      · next heq => subst heq; exact List.pairwise_cons.2 ⟨h1.1, h1.2⟩
      · refine List.pairwise_cons.2 ⟨fun z hz => ?_, ih h1.2⟩
        rcases write_mem hz with rfl | hz
        · simp only; omega
        · exact h1.1 z hz

theorem read_write (m : Memory) (a b : Nat) (v : Byte) (h : m.wf) :
    (m.write a v).read b = if b = a then v else m.read b := by
  by_cases hb : b = a <;> simp [Memory.read, stored_write _ _ _ _ h, hb]

/-- Two canonical memories that store the same at every address are the same data. -/
theorem memory_ext {m n : Memory} (hm : m.wf) (hn : n.wf) (h : ∀ a, m.stored a = n.stored a) : m = n := by
  have none_of_lt : ∀ {l : Memory} {a : Nat}, (∀ z ∈ l, a < z.1) → l.stored a = none := by
    intro l a hl
    induction l with
    | nil => rfl
    | cons z l ih =>
      have hz := hl z (by simp)
      have : z.1 ≠ a := by omega
      simp [Memory.stored, this, ih fun w hw => hl w (List.mem_cons_of_mem _ hw)]
  induction m generalizing n with
  | nil =>
    cases n with
    | nil => rfl
    | cons z n => have := h z.1; simp [Memory.stored] at this
  | cons y m ih =>
    cases n with
    | nil => have := h y.1; simp [Memory.stored] at this
    | cons z n =>
      have hm1 := List.pairwise_cons.1 hm
      have hn1 := List.pairwise_cons.1 hn
      have key : y.1 = z.1 := by
        by_contra hne
        rcases Nat.lt_or_gt_of_ne hne with hlt | hlt
        · have h1 := h y.1
          have h2 : Memory.stored (z :: n) y.1 = none := none_of_lt fun w hw => by
            rcases List.mem_cons.1 hw with rfl | hw
            · exact hlt
            · exact Nat.lt_trans hlt (hn1.1 w hw)
          rw [h2] at h1; simp [Memory.stored] at h1
        · have h1 := h z.1
          have h2 : Memory.stored (y :: m) z.1 = none := none_of_lt fun w hw => by
            rcases List.mem_cons.1 hw with rfl | hw
            · exact hlt
            · exact Nat.lt_trans hlt (hm1.1 w hw)
          rw [h2] at h1; simp [Memory.stored] at h1
      have hv : y.2 = z.2 := by have h1 := h y.1; simpa [Memory.stored, key] using h1
      have hyz : y = z := Prod.ext key hv
      subst hyz
      refine congrArg _ (ih hm1.2 hn1.2 fun a => ?_)
      by_cases ha : y.1 = a
      · subst ha; rw [none_of_lt hm1.1, none_of_lt hn1.1]
      · have := h a; simpa [Memory.stored, ha] using this

theorem writeRun_wf (m : Memory) (a : Nat) (l : List Byte) (h : m.wf) : (m.writeRun a l).wf := by
  induction l generalizing m a with
  | nil => exact h
  | cons b l ih => exact ih _ _ (write_wf _ _ _ h)

theorem writeRun_bound (m : Memory) (a n : Nat) (l : List Byte) (h : ∀ x ∈ m, x.1 < n) (hl : a + l.length ≤ n) :
    ∀ x ∈ m.writeRun a l, x.1 < n := by
  induction l generalizing m a with
  | nil => exact h
  | cons b l ih =>
    simp only [List.length_cons] at hl
    refine ih _ _ (fun x hx => ?_) (by omega)
    rcases write_mem hx with rfl | hx
    · simp only; omega
    · exact h x hx

/-- What a read sees after MemWrite (00_scope.md R11). -/
theorem read_writeRun (m : Memory) (a b : Nat) (l : List Byte) (h : m.wf) :
    (m.writeRun a l).read b = if a ≤ b ∧ b < a + l.length then l.getD (b - a) 0#8 else m.read b := by
  induction l generalizing m a with
  | nil => simp [Memory.writeRun]
  | cons v l ih =>
    rw [Memory.writeRun, ih _ _ (write_wf _ _ _ h), read_write _ _ _ _ h]
    simp only [List.length_cons]
    by_cases hb : b = a
    · subst hb; simp
    · by_cases hr : a + 1 ≤ b ∧ b < a + 1 + l.length
      · have h2 : a ≤ b ∧ b < a + (l.length + 1) := by omega
        rw [if_pos hr, if_pos h2]
        have : b - a = (b - (a + 1)) + 1 := by omega
        rw [this, List.getD_cons_succ]
      · have h2 : ¬(a ≤ b ∧ b < a + (l.length + 1)) := by omega
        rw [if_neg hr, if_neg hb, if_neg h2]

theorem copyUp_wf (m : Memory) (dst src n : Nat) (h : m.wf) : (m.copyUp dst src n).wf := by
  induction n generalizing m dst src with
  | zero => exact h
  | succ n ih => exact ih _ _ _ (write_wf _ _ _ h)

theorem copyUp_bound (m : Memory) (dst src n k : Nat) (h : ∀ x ∈ m, x.1 < k) (hd : dst + n ≤ k) :
    ∀ x ∈ m.copyUp dst src n, x.1 < k := by
  induction n generalizing m dst src with
  | zero => exact h
  | succ n ih =>
    refine ih _ _ _ (fun x hx => ?_) (by omega)
    rcases write_mem hx with rfl | hx
    · simp only; omega
    · exact h x hx

/-- A copy leaves every byte outside its destination as it was (40_chunk_pool.md R103). -/
theorem read_copyUp_outside (m : Memory) (dst src n b : Nat) (h : m.wf) (hb : b < dst ∨ dst + n ≤ b) :
    (m.copyUp dst src n).read b = m.read b := by
  induction n generalizing m dst src with
  | zero => rfl
  | succ n ih =>
    rw [Memory.copyUp, ih _ _ _ (write_wf _ _ _ h) (by omega), read_write _ _ _ _ h, if_neg (by omega)]

/-- A copy between ranges that do not meet moves the bytes (40_chunk_pool.md R103). -/
theorem read_copyUp (m : Memory) (dst src n k : Nat) (h : m.wf) (hk : k < n) (hd : dst + n ≤ src ∨ src + n ≤ dst) :
    (m.copyUp dst src n).read (dst + k) = m.read (src + k) := by
  induction n generalizing m dst src k with
  | zero => omega
  | succ n ih =>
    rw [Memory.copyUp]
    cases k with
    | zero =>
      rw [read_copyUp_outside _ _ _ _ _ (write_wf _ _ _ h) (by omega), read_write _ _ _ _ h, if_pos (by omega)]; rfl
    | succ k =>
      have h1 := ih (m.write dst (m.read src)) (dst + 1) (src + 1) k (write_wf _ _ _ h) (by omega) (by omega)
      have e1 : dst + (k + 1) = dst + 1 + k := by omega
      have e2 : src + (k + 1) = src + 1 + k := by omega
      rw [e1, e2, h1, read_write _ _ _ _ h, if_neg (by omega)]

theorem blur_wf (m : Memory) (a n : Nat) (f : Nat → Bool) (d : Nat → Byte) (h : m.wf) : (m.blur a f d n).wf := by
  induction n with
  | zero => exact h
  | succ n ih => unfold Memory.blur; split <;> first | exact write_wf _ _ _ ih | exact ih

theorem blur_bound (m : Memory) (a n k : Nat) (f : Nat → Bool) (d : Nat → Byte) (h : ∀ x ∈ m, x.1 < k) (ha : a + n ≤ k) :
    ∀ x ∈ m.blur a f d n, x.1 < k := by
  induction n with
  | zero => exact h
  | succ n ih =>
    have ih := ih (by omega)
    unfold Memory.blur
    split
    · intro x hx
      rcases write_mem hx with rfl | hx
      · simp only; omega
      · exact ih x hx
    · exact ih

/-- What a read sees after some bytes of a range became draws. -/
theorem read_blur (m : Memory) (a n b : Nat) (f : Nat → Bool) (d : Nat → Byte) (h : m.wf) :
    (m.blur a f d n).read b = if a ≤ b ∧ b < a + n ∧ f (b - a) = true then d b else m.read b := by
  induction n with
  | zero => rw [if_neg (by omega)]; rfl
  | succ n ih =>
    have hlast : b = a + n → b - a = n := by omega
    unfold Memory.blur
    split
    · next hf =>
      rw [read_write _ _ _ _ (blur_wf _ _ _ _ _ h), ih]
      by_cases hb : b = a + n
      · rw [if_pos hb, if_pos ⟨by omega, by omega, by rw [hlast hb]; exact hf⟩, hb]
      · rw [if_neg hb]; congr 1; simp only [eq_iff_iff]; constructor <;> rintro ⟨h1, h2, h3⟩ <;> exact ⟨h1, by omega, h3⟩
    · next hf =>
      rw [ih]
      congr 1; simp only [eq_iff_iff]
      constructor
      · rintro ⟨h1, h2, h3⟩; exact ⟨h1, by omega, h3⟩
      · rintro ⟨h1, h2, h3⟩
        have hb : b ≠ a + n := fun e => hf (by rw [← hlast e]; exact h3)
        exact ⟨h1, by omega, h3⟩

theorem readRun_length (m : Memory) (a n : Nat) : (m.readRun a n).length = n := by
  induction n generalizing a with
  | zero => rfl
  | succ n ih => simp [Memory.readRun, ih]

theorem readRun_getD (m : Memory) (a n k : Nat) (h : k < n) : (m.readRun a n).getD k 0#8 = m.read (a + k) := by
  induction n generalizing a k with
  | zero => omega
  | succ n ih =>
    cases k with
    | zero => simp [Memory.readRun]
    | succ k =>
      rw [Memory.readRun, List.getD_cons_succ, ih _ _ (by omega)]
      congr 1; omega

end Sys2Proof.Machine
end

