-- ==== Sys2Proof/Laws/Chunk.lean ====
section
/-! SUPPORT. Where chunks lie in SYS (20_memory.md R62), what a programmed transfer covers (46_peripheral.md R240), and the host's
bytes (60_exceptions.md R254). -/

namespace Sys2Proof.Machine

/-- Byte `k` of a run that was read. -/
theorem readRun_getElem (m : Memory) (a n k : Nat) (h : k < n) : (m.readRun a n)[k]? = some (m.read (a + k)) := by
  induction n generalizing a k with
  | zero => omega
  | succ n ih =>
    cases k with
    | zero => simp [Memory.readRun]
    | succ k => simp only [Memory.readRun, List.getElem?_cons_succ]; rw [ih _ _ (by omega)]; congr 2; omega

/-- Two runs are equal when their bytes are. -/
theorem readRun_ext (m m' : Memory) (a a' n : Nat) (h : ∀ k, k < n → m.read (a + k) = m'.read (a' + k)) : m.readRun a n = m'.readRun a' n := by
  induction n generalizing a a' with
  | zero => rfl
  | succ n ih =>
    simp only [Memory.readRun]
    rw [show m.read a = m'.read a' from h 0 (by omega), ih (a+1) (a'+1) (fun k hk => by
      have := h (k+1) (by omega)
      rwa [show a + (k+1) = a + 1 + k by omega, show a' + (k+1) = a' + 1 + k by omega] at this)]

/-- A chunk of a channel lies in its pool region, and that region in SYS (00_scope.md R7, 20_memory.md R62). -/
theorem chunkAddr_in_pool {p : Params} {c : Ch} {h : Handle} (hp : p.Legal) (hh : h.toNat < (p.chan c).nmax) :
   chunkAddr p c h = (p.chan c).base.toNat + h.toNat * (p.chan c).cap ∧ chunkAddr p c h + (p.chan c).cap ≤ p.poolEnd c ∧ p.poolEnd c ≤ p.sysSize := by
  have hL := legal_chan hp c
  have h1 : h.toNat * (p.chan c).cap + (p.chan c).cap ≤ (p.chan c).nmax * (p.chan c).cap := by
    rw [← Nat.succ_mul]; exact Nat.mul_le_mul_right _ hh
  have h2 : p.poolEnd c ≤ p.sysSize := hL.2.2.2.2.2.2.2.1
  have h3 : chunkAddr p c h = (p.chan c).base.toNat + h.toNat * (p.chan c).cap := by
    unfold chunkAddr; apply Nat.mod_eq_of_lt
    have := hL.2.2.2.1
    unfold Params.poolEnd at h2; omega
  refine ⟨h3, ?_, h2⟩
  rw [h3]; unfold Params.poolEnd; omega

/-- A chunk address fits the 32-bit `cfg_addr`. -/
theorem chunkAddr_toNat {p : Params} (hp : p.Legal) (c : Ch) (h : Handle) : (BitVec.ofNat 32 (chunkAddr p c h)).toNat = chunkAddr p c h := by
  rw [BitVec.toNat_ofNat]
  apply Nat.mod_eq_of_lt
  have h1 : chunkAddr p c h < 2 ^ p.addrW := Nat.mod_lt _ (Nat.two_pow_pos _)
  have h2 : 2 ^ p.addrW ≤ 2 ^ 32 := Nat.pow_le_pow_right (by decide) hp.2.2.1
  omega

/-- `cfg_stride` holds the element width. -/
theorem ew_toNat (c : Ch) : (BitVec.ofNat 2 c.ew).toNat = c.ew := by cases c <;> rfl

/-- CAP_c fits a used length. -/
theorem cap_toNat {p : Params} (hp : p.Legal) (c : Ch) : (BitVec.ofNat 16 (p.chan c).cap).toNat = (p.chan c).cap := by
  rw [BitVec.toNat_ofNat]; exact Nat.mod_eq_of_lt (by have := (legal_chan hp c).2.2.2.2.1; omega)

/-- Elements times width is the length again. -/
theorem elements_mul_ew (c : Ch) {u : Nat} (hu : u ≤ 32768) (hd : u % c.ew = 0) : (BitVec.ofNat 16 (u / c.ew)).toNat * c.ew = u := by
  rw [BitVec.toNat_ofNat, Nat.mod_eq_of_lt (by have := Nat.div_le_self u c.ew; omega)]
  exact Nat.div_mul_cancel (Nat.dvd_of_mod_eq_zero hd)

/-- A used length is at most CAP_c (10_state.md R26). -/
theorem usedOf_le_cap {p : Params} {c : Ch} {x : Chan} (hx : x.Live p c) (h : Handle) : (x.usedOf h).toNat ≤ (p.chan c).cap := by
  unfold Chan.usedOf
  rw [List.getD_eq_getElem?_getD]
  cases hg : x.used[h.toNat]? with
  | none => simp
  | some v => exact hx.used_le v (List.mem_of_getElem? hg)

/-- The chunk in flight has a used length. -/
theorem inflight_lt_used {p : Params} {c : Ch} {x : Chan} {h : Handle} (hp : p.Legal) (hx : x.Live p c) (hi : x.inflight = some h) : h.toNat < x.used.length := by
  rw [hx.used_length]; exact (placed_lt hp (placed_of_live hx) (by simp [Chan.places, hi])).trans_le hx.n_le

/-- The transfer of the chunk in flight: its length, its address, and that it lies in the chunk. -/
theorem transfer_bytes {p : Params} {c : Ch} {x : Chan} {h : Handle} (hp : p.Legal) (hx : x.Live p c) (hi : x.inflight = some h) :
   x.per.transferBytes = (if c.isRx then (p.chan c).cap else (x.usedOf h).toNat) ∧ x.per.cfgAddr.toNat = chunkAddr p c h ∧ chunkAddr p c h + x.per.transferBytes ≤ p.sysSize ∧ h.toNat < x.n.toNat ∧ x.per.transferBytes ≤ (p.chan c).cap := by
  have hL := legal_chan hp c
  obtain ⟨p1, p2, p3, p4⟩ := hx.programmed h hi
  have hlt := placed_lt hp (placed_of_live hx) (g := h) (by simp [Chan.places, hi])
  have hci := chunkAddr_in_pool hp (lt_of_lt_of_le hlt hx.n_le)
  have e : x.per.transferBytes = (if c.isRx then (p.chan c).cap else (x.usedOf h).toNat) := by
    unfold Periph.transferBytes
    rw [p3, p2, ew_toNat, transferCount]
    split
    · exact elements_mul_ew c hL.2.2.2.2.1 hL.2.2.2.2.2.1
    · next hr =>
      have hleg := hx.tx_used (by simpa [Ch.isRx] using hr) h hi
      rw [usedLegal, if_neg hr] at hleg
      exact elements_mul_ew c (hleg.2.1.trans hL.2.2.2.2.1) hleg.2.2
  have hle : x.per.transferBytes ≤ (p.chan c).cap := by
    rw [e]; split
    · rfl
    · next hr =>
      have hleg := hx.tx_used (by simpa [Ch.isRx] using hr) h hi
      rw [usedLegal, if_neg hr] at hleg; exact hleg.2.1
  exact ⟨e, by rw [p1]; exact chunkAddr_toNat hp c h, by omega, hlt, hle⟩

/-- What SYS reads after a programmed range is filled with draws (46_peripheral.md R241): the draws there, and elsewhere what it
read before. -/
theorem read_receiveBytes (c : Ch) (s : State) (a : Nat) (h : s.sys.wf) :
    (receiveBytes c s).sys.read a =
      if (s.ch c).per.cfgAddr.toNat ≤ a ∧ a < (s.ch c).per.cfgAddr.toNat + (s.ch c).per.transferBytes then
        Config.rxByte (s.drawn + (a - (s.ch c).per.cfgAddr.toNat)) else s.sys.read a := by
  simp only [receiveBytes]
  rw [read_writeRun _ _ _ _ h, rxBytes_length]
  split
  · next hr => rw [rxBytes, List.getD_eq_getElem?_getD]; simp [show a - (s.ch c).per.cfgAddr.toNat < (s.ch c).per.transferBytes by omega]
  · rfl

/-- Chunks of different channels do not meet (20_memory.md R65). -/
theorem chunks_apart {p : Params} (hp : p.Legal) {c d : Ch} (hcd : c ≠ d) {g h : Handle} (hg : g.toNat < (p.chan c).nmax) (hh : h.toNat < (p.chan d).nmax) :
   chunkAddr p c g + (p.chan c).cap ≤ chunkAddr p d h ∨ chunkAddr p d h + (p.chan d).cap ≤ chunkAddr p c g := by
  have h1 := chunkAddr_in_pool hp hg
  have h2 := chunkAddr_in_pool hp hh
  have := hp.2.2.2.2.2.2.2.2.2 c (Ch.mem_all c) d (Ch.mem_all d) hcd
  have e1 : p.chan c = p.chan c := rfl
  omega

/-- Different chunks of one channel do not meet. -/
theorem chunks_apart_same {p : Params} (hp : p.Legal) {c : Ch} {g h : Handle} (hgh : g ≠ h) (hg : g.toNat < (p.chan c).nmax) (hh : h.toNat < (p.chan c).nmax) :
   chunkAddr p c g + (p.chan c).cap ≤ chunkAddr p c h ∨ chunkAddr p c h + (p.chan c).cap ≤ chunkAddr p c g := by
  have h1 := (chunkAddr_in_pool hp hg).1
  have h2 := (chunkAddr_in_pool hp hh).1
  have hne : g.toNat ≠ h.toNat := fun e => hgh (BitVec.eq_of_toNat_eq e)
  rcases Nat.lt_or_gt_of_ne hne with hlt | hlt
  · left; have := Nat.mul_le_mul_right (p.chan c).cap (Nat.succ_le_of_lt hlt); rw [Nat.succ_mul] at this; omega
  · right; have := Nat.mul_le_mul_right (p.chan c).cap (Nat.succ_le_of_lt hlt); rw [Nat.succ_mul] at this; omega

/-- Host ownership of a range, chunk by chunk (R254). -/
theorem hostOwns_iff (s : State) (a n : Nat) : s.hostOwns a n = true ↔ ∀ c : Ch, ∀ j, j < (s.ch c).n.toNat → ¬ (s.ownsChunk c (BitVec.ofNat 8 j) = true ∧ chunkMeets s.cfg c (BitVec.ofNat 8 j) a n = true) := by
  simp only [State.hostOwns, List.all_eq_true, List.mem_range, Bool.not_eq_true', Bool.and_eq_false_iff]
  constructor
  · intro h c j hj ⟨h1, h2⟩
    rcases h c (Ch.mem_all c) j hj with h | h
    · simp [h1] at h
    · simp [h2] at h
  · intro h c _ j hj
    by_contra hc
    push Not at hc
    exact h c j hj ⟨by simpa using hc.1, by simpa using hc.2⟩

/-- A range the host owns does not meet a chunk that is the block's. -/
theorem hostOwns_disjoint {s : State} {a n : Nat} {c : Ch} {h : Handle} (ho : s.hostOwns a n = true) (hn : h.toNat < (s.ch c).n.toNat)
   (hs : (s.ch c).st ≠ .uninit) (hh : (s.ch c).holds h = false) : n = 0 ∨ a + n ≤ chunkAddr s.cfg c h ∨ chunkAddr s.cfg c h + (s.cfg.chan c).cap ≤ a := by
  have := (hostOwns_iff s a n).1 ho c h.toNat hn
  have e : BitVec.ofNat 8 h.toNat = h := by simp
  rw [e] at this
  have h1 : s.ownsChunk c h = true := by
    simp [State.ownsChunk, hs, hn, hh]
  simp only [h1, true_and, chunkMeets, Bool.and_eq_true, decide_eq_true_eq] at this
  omega

/-! ### The copy between the host's buffer and a chunk (40_chunk_pool.md R103, 20_memory.md R67) -/

theorem copyHost_wf (s : State) (dst src n : Nat) (h : s.sys.wf) : (s.copyHost dst src n).wf :=
  blur_wf _ _ _ _ _ (copyUp_wf _ _ _ _ h)

theorem copyHost_bound (s : State) (dst src n k : Nat) (h : ∀ x ∈ s.sys, x.1 < k) (hd : dst + n ≤ k) :
    ∀ x ∈ s.copyHost dst src n, x.1 < k :=
  blur_bound _ _ _ _ _ _ (copyUp_bound _ _ _ _ _ h hd) hd

/-- A copy leaves every byte outside its destination as it was. -/
theorem read_copyHost_outside (s : State) (dst src n b : Nat) (h : s.sys.wf) (hb : b < dst ∨ dst + n ≤ b) :
    (s.copyHost dst src n).read b = s.sys.read b := by
  rw [State.copyHost, read_blur _ _ _ _ _ _ (copyUp_wf _ _ _ _ h), if_neg (by omega), read_copyUp_outside _ _ _ _ _ h hb]

/-- A copy between ranges that do not meet moves every byte that did not race. -/
theorem read_copyHost (s : State) (dst src n k : Nat) (h : s.sys.wf) (hk : k < n) (hd : dst + n ≤ src ∨ src + n ≤ dst)
    (hr : s.isRaced (s.addrOp + k) = false) : (s.copyHost dst src n).read (dst + k) = s.sys.read (src + k) := by
  have e : dst + k - dst = k := by omega
  rw [State.copyHost, read_blur _ _ _ _ _ _ (copyUp_wf _ _ _ _ h), if_neg (by simp [e, hr]), read_copyUp _ _ _ _ _ h hk hd]

/-- Without a race it is the plain copy of R103. -/
theorem copyHost_quiet (s : State) (dst src n : Nat) (h : s.raced = []) : s.copyHost dst src n = s.sys.copyUp dst src n := by
  have key : ∀ (m : Memory) (a n : Nat) (d : Nat → Byte), m.blur a (fun _ => false) d n = m := by
    intro m a n d
    induction n with
    | zero => rfl
    | succ n ih => simpa [Memory.blur] using ih
  have e : (fun k => s.isRaced (s.addrOp + k)) = fun _ => false := by funext k; simp [State.isRaced, h]
  rw [State.copyHost, e, key]

/-- The condition of fault F4 (60_exceptions.md R253). -/
theorem armedTxIrq_iff (s : State) (i : Nat) : s.armedTxIrq i = true ↔ ∃ c : Ch, c.isTx = true ∧ (s.cfg.chan c).irq = i ∧ (s.ch c).per.armed = true := by
  simp only [State.armedTxIrq, List.any_eq_true, Bool.and_eq_true, beq_iff_eq]
  constructor
  · rintro ⟨c, _, ⟨h1, h2⟩, h3⟩; exact ⟨c, h1, h2, h3⟩
  · rintro ⟨c, h1, h2, h3⟩; exact ⟨c, Ch.mem_all c, ⟨h1, h2⟩, h3⟩

/-- RESULT of RX_GET_NC (45_command_port.md R224). -/
theorem result_concat (u : Half) (h : Handle) : u ++ 0#8 ++ h = u.setWidth 32 <<< 16 ||| h.setWidth 32 := by
  apply BitVec.eq_of_getLsbD_eq
  intro i hi
  simp only [BitVec.getLsbD_append, BitVec.getLsbD_or, BitVec.getLsbD_shiftLeft, BitVec.getLsbD_setWidth]
  by_cases h8 : i < 8
  · have h16 : i < 16 := by omega
    simp [h8, h16, hi]
  · by_cases h16 : i < 16
    · have : i - 8 < 8 := by omega
      simp [h8, h16, this, BitVec.getLsbD_of_ge _ _ (show 8 ≤ i by omega)]
    · have h3 : ¬ i - 8 < 8 := by omega
      have e1 : i - 8 - 8 = i - 16 := by omega
      have h4 : i - 16 < 32 := by omega
      simp [h8, h16, h3, e1, h4, hi, BitVec.getLsbD_of_ge h _ (show 8 ≤ i by omega)]

end Sys2Proof.Machine
end

