-- ==== Sys2Proof/Laws/Decode.lean ====
section
/-! SUPPORT. The fields of a command word (30_encoding.md R80): a word is its fields, and each field of a concatenation is its
part. -/

namespace Sys2Proof

/-- A word is the concatenation of its fields (R80). -/
theorem word_fields (w : Word) : ∃ (opc : BitVec 4) (c r : BitVec 2) (b : Byte) (x : Half), w = x ++ b ++ r ++ c ++ opc ∧
   opcOf w = opc ∧ chOf w = c ∧ rsvOf w = r ∧ bOf w = b ∧ xOf w = x := by
  refine ⟨opcOf w, chOf w, rsvOf w, bOf w, xOf w, ?_, rfl, rfl, rfl, rfl, rfl⟩
  unfold xOf bOf
  rw [BitVec.extractLsb'_append_extractLsb'_eq_extractLsb' (by rfl)]
  unfold rsvOf
  rw [BitVec.extractLsb'_append_extractLsb'_eq_extractLsb' (by rfl)]
  unfold chOf
  rw [BitVec.extractLsb'_append_extractLsb'_eq_extractLsb' (by rfl)]
  unfold opcOf
  rw [BitVec.extractLsb'_append_extractLsb'_eq_extractLsb' (by rfl)]
  simp

/-- OPC of a word written by fields. -/
theorem opcOf_concat (opc : BitVec 4) (c r : BitVec 2) (b : Byte) (x : Half) : opcOf (x ++ b ++ r ++ c ++ opc) = opc := by
  unfold opcOf
  rw [BitVec.extractLsb'_append_eq_of_add_le (by decide)]
  simp

/-- CH of a word written by fields. -/
theorem chOf_concat (opc : BitVec 4) (c r : BitVec 2) (b : Byte) (x : Half) : chOf (x ++ b ++ r ++ c ++ opc) = c := by
  unfold chOf
  rw [BitVec.extractLsb'_append_eq_of_le (by decide)]
  rw [BitVec.extractLsb'_append_eq_of_add_le (by decide)]
  simp

/-- RSV of a word written by fields. -/
theorem rsvOf_concat (opc : BitVec 4) (c r : BitVec 2) (b : Byte) (x : Half) : rsvOf (x ++ b ++ r ++ c ++ opc) = r := by
  unfold rsvOf
  rw [BitVec.extractLsb'_append_eq_of_le (by decide)]
  rw [BitVec.extractLsb'_append_eq_of_le (by decide)]
  rw [BitVec.extractLsb'_append_eq_of_add_le (by decide)]
  simp

/-- B of a word written by fields. -/
theorem bOf_concat (opc : BitVec 4) (c r : BitVec 2) (b : Byte) (x : Half) : bOf (x ++ b ++ r ++ c ++ opc) = b := by
  unfold bOf
  rw [BitVec.extractLsb'_append_eq_of_le (by decide)]
  rw [BitVec.extractLsb'_append_eq_of_le (by decide)]
  rw [BitVec.extractLsb'_append_eq_of_le (by decide)]
  rw [BitVec.extractLsb'_append_eq_of_add_le (by decide)]
  simp

/-- X of a word written by fields. -/
theorem xOf_concat (opc : BitVec 4) (c r : BitVec 2) (b : Byte) (x : Half) : xOf (x ++ b ++ r ++ c ++ opc) = x := by
  unfold xOf
  rw [BitVec.extractLsb'_append_eq_of_le (by decide)]
  rw [BitVec.extractLsb'_append_eq_of_le (by decide)]
  rw [BitVec.extractLsb'_append_eq_of_le (by decide)]
  rw [BitVec.extractLsb'_append_eq_of_le (by decide)]
  simp

/-- IRQ of a word written by fields. -/
theorem irqOf_concat (opc : BitVec 4) (c r : BitVec 2) (cb irq : BitVec 4) (x : Half) : irqOf (x ++ (cb ++ irq) ++ r ++ c ++ opc) = irq := by
  unfold irqOf
  rw [BitVec.extractLsb'_append_eq_of_le (by decide)]
  rw [BitVec.extractLsb'_append_eq_of_le (by decide)]
  rw [BitVec.extractLsb'_append_eq_of_le (by decide)]
  rw [BitVec.extractLsb'_append_eq_of_add_le (by decide)]
  rw [BitVec.extractLsb'_append_eq_of_add_le (by decide)]
  simp

/-- CB of a word written by fields. -/
theorem cbOf_concat (opc : BitVec 4) (c r : BitVec 2) (cb irq : BitVec 4) (x : Half) : cbOf (x ++ (cb ++ irq) ++ r ++ c ++ opc) = cb := by
  unfold cbOf
  rw [BitVec.extractLsb'_append_eq_of_le (by decide)]
  rw [BitVec.extractLsb'_append_eq_of_le (by decide)]
  rw [BitVec.extractLsb'_append_eq_of_le (by decide)]
  rw [BitVec.extractLsb'_append_eq_of_add_le (by decide)]
  rw [BitVec.extractLsb'_append_eq_of_le (by decide)]
  simp

/-- Every 2-bit index is the index of the channel it names (00_scope.md R3). -/
theorem Ch.bits_ofBits (b : BitVec 2) : (Ch.ofBits b).bits = b := by revert b; decide

/-- B is CB and IRQ (R80). -/
theorem bOf_eq (w : Word) : bOf w = cbOf w ++ irqOf w := by
  unfold bOf cbOf irqOf
  rw [BitVec.extractLsb'_append_extractLsb'_eq_extractLsb' (by rfl)]

/-- When a command with unused fields decodes (R84). -/
theorem unusedZero_ok {z : Bool} {i j : Instr} : unusedZero z i = .ok j ↔ z = true ∧ i = j := by
  cases z <;> simp [unusedZero]

/-- When a command of one direction decodes (R83). -/
theorem directed_ok {z d : Bool} {i j : Instr} : directed z d i = .ok j ↔ z = true ∧ d = true ∧ i = j := by
  cases z <;> cases d <;> simp [directed]

end Sys2Proof
end

