-- ==== Sys2Proof/Laws/Invariant.lean ====
section
/-! SUPPORT. What each part of a step does to the invariant State.Inv (10_state.md R51, R52; 42_dispatch.md R152). -/

namespace Sys2Proof.Machine

/-- The invariant reads the configuration, the number of pending bits, the table, SYS and the channels only. -/
theorem inv_congr {s t : State} (h : s.Inv) (h1 : t.cfg = s.cfg) (h2 : t.pending.length = s.pending.length)
    (h3 : t.table = s.table) (h4 : t.sys = s.sys) (h5 : t.chans = s.chans) : t.Inv := by
  have hc := ch_congr h5
  have he : ∀ i, t.entry i = s.entry i := fun i => by simp [State.entry, h3]
  refine ⟨h1 ▸ h.legal, by rw [h2, h1]; exact h.pending_length, ⟨?_, ?_, ?_, ?_⟩, ⟨?_, ?_⟩, ?_⟩
  · rw [h3, h1]; exact h.table.length
  · rw [h3]; exact h.table.unbound
  · intro i; rw [he, h1]; simpa [hc] using h.table.bound_internal i
  · intro c; rw [hc, h1, he]; exact h.table.initialised c
  · rw [h4]; exact h.sys.canonical
  · rw [h4, h1]; exact h.sys.inRange
  · intro c; rw [hc, h1]; exact h.chan c

/-- Replacing a channel by one that meets its invariant, initialised exactly when the old one was. -/
theorem inv_setCh {s : State} {c : Ch} {y : Chan} (h : s.Inv) (hy : y.Ok s.cfg c)
    (hs : (y.st = .uninit ↔ (s.ch c).st = .uninit)) : (s.setCh c y).Inv := by
  refine ⟨by simpa using h.legal, by simpa using h.pending_length, ⟨by simpa using h.table.length, by simpa using h.table.unbound, ?_, ?_⟩, ⟨by simpa using h.sys.canonical, by simpa using h.sys.inRange⟩, ?_⟩
  · intro i hb hcb
    simp only [setCh_entry] at hb hcb ⊢
    obtain ⟨d, hd, hi, he⟩ := h.table.bound_internal i hb hcb
    refine ⟨d, ?_, by simpa using hi, he⟩
    rw [ch_setCh]; split
    · next hdc => subst hdc; rwa [ne_eq, hs]
    · exact hd
  · intro d hd
    simp only [setCh_cfg, setCh_entry]
    refine h.table.initialised d ?_
    rw [ch_setCh] at hd; split at hd
    · next hdc => subst hdc; rwa [ne_eq, hs] at hd
    · exact hd
  · intro d
    rw [ch_setCh, setCh_cfg]; split
    · next hdc => subst hdc; exact hy
    · exact h.chan d

theorem ok_of_live {p c} {x : Chan} (h : x.Live p c) (hs : x.st ≠ .uninit) : x.Ok p c := ⟨fun e => absurd e hs, fun _ => h⟩

/-- Replacing an initialised channel by an initialised one. -/
theorem inv_live {s : State} {c : Ch} {y : Chan} (h : s.Inv) (hs : (s.ch c).st ≠ .uninit) (hy : y.Live s.cfg c) (hys : y.st ≠ .uninit) :
    (s.setCh c y).Inv := inv_setCh h (ok_of_live hy hys) (by simp [hs, hys])

/-- Replacing SYS. -/
theorem inv_sys {s : State} {m : Memory} (h : s.Inv) (h1 : m.wf) (h2 : ∀ x ∈ m, x.1 < s.cfg.sysSize) : State.Inv { s with sys := m } :=
  ⟨h.legal, h.pending_length, ⟨h.table.length, h.table.unbound, h.table.bound_internal, h.table.initialised⟩, ⟨h1, h2⟩, h.chan⟩

/-- A command that fails keeps the invariant (45_command_port.md R223). -/
theorem inv_raise {s t : State} {x : Code} (h : s.Inv) (e : raise x s = .next t) : t.Inv := by
  simp only [raise, Host.Outcome.next.injEq] at e; subst e
  exact inv_congr h rfl rfl rfl rfl rfl

/-- Ending a command keeps it. -/
theorem inv_complete {s t : State} {x : Word} (h : s.Inv) (e : complete x s = .next t) : t.Inv := by
  simp only [complete, Host.Outcome.next.injEq] at e; subst e
  exact inv_congr h rfl rfl rfl rfl rfl

theorem acquire_st {p c} {x y : Chan} {h} (e : acquire p c x = some (h, y)) : y.st = x.st := by
  obtain ⟨-, -, rfl⟩ := acquire_eq e; rfl

/-- DISP_REG keeps it (42_dispatch.md R150). -/
theorem inv_bind_ext {s : State} {i : Nat} {cb ctx} (h : s.Inv) (hi : i < s.cfg.m) (hb : (s.entry i).bound = false)
    (hcb : cb ≠ 0#4) (hcb1 : cb ≠ 1#4) : (s.bind i cb ctx).Inv := by
  refine ⟨h.legal, h.pending_length, ⟨?_, ?_, ?_, ?_⟩, ⟨h.sys.canonical, h.sys.inRange⟩, ?_⟩
  · simpa [State.bind] using h.table.length
  · intro e he
    rcases List.mem_or_eq_of_mem_set he with he | rfl
    · exact h.table.unbound e he
    · simp
  · intro j hbd hc
    rw [entry_bind _ _ _ _ _ (by rw [h.table.length]; exact hi)] at hbd hc ⊢
    split at hbd
    · next hj => simp [hj, hcb, hcb1] at hc
    · next hj =>
      simp only [if_neg hj] at hc ⊢
      simpa using h.table.bound_internal j hbd hc
  · intro c hc
    rw [entry_bind _ _ _ _ _ (by rw [h.table.length]; exact hi)]
    have h1 := h.table.initialised c (by simpa using hc)
    split
    · next he => simp only [bind_cfg] at he; rw [← he, h1] at hb; simp [channelEntry] at hb
    · exact h1
  · simpa using h.chan

/-- CH_INIT keeps it: the channel becomes initialised and its entry is bound, in one step (42_dispatch.md R152). -/
theorem inv_init {s : State} {c : Ch} {y : Chan} (h : s.Inv) (hu : (s.ch c).st = .uninit) (hb : (s.entry (s.cfg.chan c).irq).bound = false)
    (hy : y.Live s.cfg c) (hys : y.st ≠ .uninit) :
    ((s.setCh c y).bind (s.cfg.chan c).irq (internalCb c) (c.bits.setWidth 16)).Inv := by
  have hirq := (legal_chan h.legal c).2.2.2.2.2.2.1
  refine ⟨by simpa using h.legal, by simpa using h.pending_length, ⟨?_, ?_, ?_, ?_⟩, ⟨by simpa using h.sys.canonical, by simpa using h.sys.inRange⟩, ?_⟩
  · simpa [State.bind] using h.table.length
  · intro e he
    rcases List.mem_or_eq_of_mem_set he with he | rfl
    · exact h.table.unbound e (by simpa using he)
    · simp
  · intro j hbd hc
    rw [entry_bind _ _ _ _ _ (by simp only [setCh_table]; rw [h.table.length]; exact hirq)] at hbd hc ⊢
    split at hbd
    · next hj => exact ⟨c, by simpa using hys, by simpa using hj, by simp [hj, channelEntry]⟩
    · next hj =>
      simp only [if_neg hj, setCh_entry] at hc hbd ⊢
      obtain ⟨d, hd, he, hee⟩ := h.table.bound_internal j hbd hc
      refine ⟨d, ?_, by simpa using he, hee⟩
      rw [bind_ch, ch_setCh]; split
      · exact hys
      · exact hd
  · intro d hd
    rw [entry_bind _ _ _ _ _ (by simp only [setCh_table]; rw [h.table.length]; exact hirq)]
    simp only [bind_cfg, setCh_cfg, setCh_entry]
    by_cases hdc : d = c
    · subst hdc; simp [channelEntry]
    · rw [bind_ch, ch_setCh, if_neg hdc] at hd
      rw [if_neg, h.table.initialised d hd]
      exact h.legal.2.2.2.2.2.2.2.2.1 d (Ch.mem_all d) c (Ch.mem_all c) hdc
  · intro d
    rw [bind_ch, ch_setCh]; split
    · next hdc => subst hdc; simpa using ok_of_live hy hys
    · simpa using h.chan d

/-- Every action of the host keeps it. -/
theorem inv_host {op : HostOp} {s t : State} (h : s.Inv) (e : hostAct op s = .next t) : t.Inv := by
  cases op with
  | readReg w a =>
    simp only [hostAct, hostReadReg] at e
    split at e; · cases e; exact h
    split at e; · cases e
    cases e; exact inv_congr h rfl rfl rfl rfl rfl
  | writeReg w a v =>
    simp only [hostAct, hostWriteReg] at e
    split at e; · cases e; exact h
    split at e; · cases e
    cases e
    unfold State.regWrite issue
    split_ifs <;> first | exact h | exact inv_congr h rfl rfl rfl rfl rfl
  | readSys a n =>
    simp only [hostAct, hostReadSys, hostSys] at e
    split_ifs at e
    cases e; exact inv_congr h rfl rfl rfl rfl rfl
  | writeSys a l =>
    simp only [hostAct, hostWriteSys, hostSys] at e
    split at e; · cases e
    next h1 =>
    split at e; · cases e
    cases e
    exact inv_congr (inv_sys (m := s.sys.writeRun a.toNat l) h (writeRun_wf _ _ _ h.sys.canonical)
      (writeRun_bound _ _ _ _ h.sys.inRange (by omega))) rfl rfl rfl rfl rfl
  | wait => simp only [hostAct, hostWait] at e; cases e; exact inv_congr h rfl rfl rfl rfl rfl
  | retry n l =>
    simp only [hostAct, hostRetry] at e
    split at e <;> cases e <;> first | exact h | exact inv_congr h rfl rfl rfl rfl rfl
  | retryTest n l => simp only [hostAct, hostRetryTest] at e; cases e; exact inv_congr h rfl rfl rfl rfl rfl

/-- No handler and no FSM step initialises a channel or returns it to UNINIT (43_channel_rx.md R179, 44_channel_tx.md R207). -/
theorem txComplete_st {p c} {x : Chan} : (txComplete p c x).st = .uninit ↔ x.st = .uninit := by
  unfold txComplete
  split
  · next h1 h2 =>
    dsimp only; split <;> simp [h1]
  · rfl

theorem rxComplete_st {p c} {x : Chan} : (rxComplete p c x).st = .uninit ↔ x.st = .uninit := by
  unfold rxComplete
  split
  · next h1 h2 =>
    dsimp only; split
    · simp [h1]
    · split
      · next e => simp [acquire_st e, h1]
      · simp [h1]
  · rfl

theorem txKick_st {p c} {x : Chan} : (txKick p c x).st = .uninit ↔ x.st = .uninit := by
  unfold txKick
  split
  · next he =>
    have hs : x.st = .idle := by simp only [txKickEnabled, Bool.and_eq_true, beq_iff_eq] at he; exact he.1
    split <;> simp [hs]
  · rfl

theorem rxRetry_st {p c} {x : Chan} : (rxRetry p c x).st = .uninit ↔ x.st = .uninit := by
  unfold rxRetry
  split
  · next he =>
    have hs : x.st = .starved := by simp only [rxRetryEnabled, Bool.and_eq_true, beq_iff_eq] at he; exact he.1
    split <;> simp [arm, hs]
  · rfl

/-- A step of the block on one channel that leaves an uninitialised channel alone. -/
theorem inv_map {s : State} {c : Ch} (f : Chan → Chan) (h : s.Inv) (h0 : f (Chan.reset s.cfg c) = Chan.reset s.cfg c)
    (h1 : (s.ch c).Live s.cfg c → (f (s.ch c)).Live s.cfg c) (h2 : (f (s.ch c)).st = .uninit ↔ (s.ch c).st = .uninit) :
    (s.setCh c (f (s.ch c))).Inv := by
  refine inv_setCh h ⟨fun e => ?_, fun e => h1 ((h.chan c).live fun e' => e (h2.2 e'))⟩ h2
  have := (h.chan c).uninit (h2.1 e)
  rw [this, h0]

/-- The context CH_INIT binds names the channel (42_dispatch.md R152). -/
theorem ctx_ch (c : Ch) : Ch.ofBits ((channelEntry c).ctx.extractLsb' 0 2) = c := by cases c <;> decide

/-- Filling the programmed range, where it lies in SYS, keeps it (46_peripheral.md R241). -/
theorem inv_receiveBytes {s : State} {c : Ch} (h : s.Inv)
    (hr : (s.ch c).per.cfgAddr.toNat + (s.ch c).per.transferBytes ≤ s.cfg.sysSize) : (receiveBytes c s).Inv :=
  inv_congr (inv_sys h (writeRun_wf _ _ _ h.sys.canonical) (writeRun_bound _ _ _ _ h.sys.inRange (by simpa using hr)))
    rfl rfl rfl rfl rfl

/-- The transfer of a channel in progress fits its chunk (70_reset_and_hazards.md R292). -/
theorem inProgress_inflight {s : State} {c : Ch} (h : s.Inv) (hp : (s.ch c).inProgress = true) :
    (s.ch c).Live s.cfg c ∧ ∃ g, (s.ch c).inflight = some g := by
  simp only [Chan.inProgress, Bool.and_eq_true, beq_iff_eq] at hp
  have hl := (h.chan c).live (by rw [hp.1]; decide)
  exact ⟨hl, Option.isSome_iff_exists.1 (hl.inflight_iff.1 hp.1)⟩

/-- The bytes of a transfer that is cut off keep it. -/
theorem inv_partlyReceived {s : State} {c : Ch} (h : s.Inv) : (partlyReceived c s).Inv := by
  unfold partlyReceived
  split
  · next hp =>
    obtain ⟨hl, g, hg⟩ := inProgress_inflight h hp
    obtain ⟨-, h2, h3, -⟩ := transfer_bytes h.legal hl hg
    exact inv_receiveBytes h (by rw [h2]; exact h3)
  · exact h

/-- Running the handler of an entry of the table keeps it (42_dispatch.md R153). -/
theorem inv_handler {s : State} {i : Nat} {e : Entry} (h : s.Inv) (he : e = s.entry i) : (runHandler i e s).Inv := by
  subst he
  unfold runHandler
  split
  · next hb =>
    split
    · next hcb =>
      obtain ⟨c, hc, -, he⟩ := h.table.bound_internal i hb (.inl hcb)
      have hr : c.isRx = true := by
        by_contra hr; simp [he, channelEntry, internalCb, hr] at hcb
      dsimp only
      rw [he, ctx_ch]
      have := inv_map (rxComplete s.cfg c) (inv_partlyReceived (c := c) h) (c := c) (by simp [rxComplete, Chan.reset])
        (by simpa using live_rxComplete h.legal hr) rxComplete_st
      simpa using this
    · split
      · next hcb =>
        obtain ⟨c, hc, -, he⟩ := h.table.bound_internal i hb (.inr hcb)
        dsimp only
        rw [he, ctx_ch]
        exact inv_map _ h (by simp [txComplete, Chan.reset]) (live_txComplete h.legal) txComplete_st
      · exact inv_congr h rfl rfl rfl rfl rfl
  · exact h

/-- A dispatch keeps it. -/
theorem inv_disp {s : State} (h : s.Inv) : (dispTurn s).Inv := by
  unfold dispTurn State.enterHandler
  cases hl : s.leastPending with
  | none => exact h
  | some i =>
    have hi : i < s.cfg.m := by
      unfold State.leastPending at hl
      exact List.mem_range.1 (List.mem_of_find?_eq_some hl)
    dsimp only
    exact inv_handler (inv_congr h rfl (by simp) rfl rfl rfl) (by simp)

/-- A completion of an enabled peripheral keeps it (46_peripheral.md R241, R242). -/
theorem inv_signal {s : State} {c : Ch} {tx} (h : s.Inv) (hen : (s.ch c).per.en = true) :
    (State.setPending (s.setCh c { s.ch c with per := { (s.ch c).per with armed := false }, txOut := tx }) (s.cfg.chan c).irq true).Inv := by
  have hs : (s.ch c).st ≠ .uninit := by
    intro e; have := (h.chan c).uninit e; rw [this] at hen; simp [Chan.reset] at hen
  have := inv_live h hs (live_done tx ((h.chan c).live hs)) hs
  exact inv_congr this rfl (by simp) rfl rfl rfl

end Sys2Proof.Machine
end

