-- ==== Sys2Proof/Laws/PerInstr.lean ====
section
/-! SUPPORT. A law of every command as syntax: the opcode and the reserved field of its word (30_encoding.md R80, R86). -/

namespace Sys2Proof.Laws.EncodedFields

/-- The opcode the opcode map gives a command (R83). -/
def opcode : Instr → BitVec 4
  | .nop => 0x0#4
  | .blkReset => 0x1#4
  | .dispReg _ _ _ => 0x2#4
  | .dispSwtrig _ => 0x3#4
  | .chInit _ _ => 0x4#4
  | .chStart _ => 0x5#4
  | .rxGet _ => 0x6#4
  | .rxGetNc _ => 0x7#4
  | .rxRelease _ _ => 0x8#4
  | .txPut _ => 0x9#4

/-- The word of a command has its opcode in OPC and 0 in RSV. -/
def Statement (i : Instr) : Prop := opcOf (encode i) = opcode i ∧ rsvOf (encode i) = 0#2

/-- OPC and RSV of an encoded word, whatever the other fields hold. -/
theorem enc_fields (opc : BitVec 4) (c : BitVec 2) (b : Byte) (x : Half) :
    opcOf (enc opc c b x) = opc ∧ rsvOf (enc opc c b x) = 0#2 := by
  constructor
  · simp only [opcOf, enc]
    rw [BitVec.extractLsb'_append_eq_of_add_le (by decide)]
    simp
  · apply BitVec.eq_of_getLsbD_eq
    intro j hj
    simp only [rsvOf, enc, BitVec.getLsbD_extractLsb', BitVec.getLsbD_append]
    rcases (by omega : j = 0 ∨ j = 1) with rfl | rfl <;> simp

theorem nop : Statement .nop := enc_fields _ _ _ _
theorem blkReset : Statement .blkReset := enc_fields _ _ _ _
theorem dispReg (irq cb : BitVec 4) (ctx : Half) : Statement (.dispReg irq cb ctx) := enc_fields _ _ _ _
theorem dispSwtrig (irq : BitVec 4) : Statement (.dispSwtrig irq) := enc_fields _ _ _ _
theorem chInit (c : Ch) (count : Byte) : Statement (.chInit c count) := enc_fields _ _ _ _
theorem chStart (c : Ch) : Statement (.chStart c) := enc_fields _ _ _ _
theorem rxGet (c : Ch) : Statement (.rxGet c) := enc_fields _ _ _ _
theorem rxGetNc (c : Ch) : Statement (.rxGetNc c) := enc_fields _ _ _ _
theorem rxRelease (c : Ch) (h : Handle) : Statement (.rxRelease c h) := enc_fields _ _ _ _
theorem txPut (c : Ch) : Statement (.txPut c) := enc_fields _ _ _ _

end Sys2Proof.Laws.EncodedFields
end

