-- ==== Sys2Proof/Laws/Pool.lean ====
section
/-! SUPPORT. What the pool and the queue of an initialised channel hold: occupancies, held handles, and what acquire, release
and a kick do. -/

namespace Sys2Proof.Machine

/-- The places of a channel hold n_c handles (10_state.md R51). -/
theorem places_occupancy {p : Params} {c : Ch} {x : Chan} (h : x.Live p c) :
   x.f.occ (p.chan c).p + x.q.occ (p.chan c).k + x.inflight.toList.length + x.heldHandles.length = x.n.toNat := by
  have := placed_length (placed_of_live h)
  simp only [Chan.places, List.length_append, FreeRing.contents, Queue.contents, ringContents_length, List.length_nil] at this
  simp only [FreeRing.occ, Queue.occ]; omega

/-- HELD_N counts the held handles (R29). -/
theorem heldHandles_length (x : Chan) : x.heldHandles.length = x.held.count true := by
  simp only [Chan.heldHandles, List.length_map]
  have : ∀ l : List Bool, ((List.range l.length).filter fun j => l.getD j false).length = l.count true := by
    intro l
    induction l using List.reverseRecOn with
    | nil => rfl
    | append_singleton l b ih =>
      rw [List.length_append, List.length_singleton, List.range_succ, List.filter_append, List.length_append, List.count_append, ← ih]
      congr 1
      · congr 1
        apply List.filter_congr
        intro j hj
        have := List.mem_range.1 hj
        simp [List.getD_eq_getElem?_getD, List.getElem?_append_left this]
      · cases b <;> simp [List.getD_eq_getElem?_getD]
  exact this _

/-- The held bits of an initialised channel. -/
theorem held_length_le {p : Params} {c : Ch} {x : Chan} (hp : p.Legal) (h : x.Live p c) : x.held.length ≤ 255 := by
  have := h.held_length
  have hL := legal_chan hp c
  split at this <;> have := hL.2.2.1 <;> omega

/-- A handle is among the held ones once, or not at all. -/
theorem heldHandles_count {x : Chan} (hlen : x.held.length ≤ 255) (h : Handle) : x.heldHandles.count h = if x.holds h then 1 else 0 := by
  have hnd : x.heldHandles.Nodup := by
    refine List.Nodup.map_on ?_ (List.nodup_range.filter _)
    intro a ha b hb hab
    have ha := List.mem_range.1 (List.mem_filter.1 ha).1
    have hb := List.mem_range.1 (List.mem_filter.1 hb).1
    have := congrArg BitVec.toNat hab
    rwa [ofNat_toNat_of_lt ha hlen, ofNat_toNat_of_lt hb hlen] at this
  have hm : h ∈ x.heldHandles ↔ x.holds h = true := by
    simp only [Chan.heldHandles, List.mem_map, List.mem_filter, List.mem_range, Chan.holds]
    constructor
    · rintro ⟨a, ⟨ha, hb⟩, rfl⟩
      rw [ofNat_toNat_of_lt ha hlen]; exact hb
    · intro hh
      refine ⟨h.toNat, ⟨?_, hh⟩, by simp⟩
      by_contra hc
      rw [List.getD_eq_getElem?_getD, List.getElem?_eq_none (by omega)] at hh
      simp at hh
  split
  · next hh => exact List.count_eq_one_of_mem hnd (hm.2 hh)
  · next hh => exact List.count_eq_zero.2 (fun hc => hh (hm.1 hc))

/-- A handle that is free, queued or in flight is not held (R51). -/
theorem holds_eq_false {p : Params} {c : Ch} {x : Chan} (hp : p.Legal) (hx : x.Live p c) {h : Handle}
   (hm : h ∈ x.f.contents (p.chan c).p ++ (x.q.contents (p.chan c).k ++ x.inflight.toList)) : x.holds h = false := by
  by_contra hc
  have hm1 := heldHandles_count (held_length_le hp hx) h
  rw [if_pos (by simpa using hc)] at hm1
  have hm2 := List.count_pos_iff.1 (by omega : 0 < List.count h x.heldHandles)
  have hnd := placed_nodup hp (placed_of_live hx)
  simp only [List.nil_append, Chan.places] at hnd
  rw [← List.append_assoc, ← List.append_assoc, List.append_assoc (x.f.contents _), List.nodup_append] at hnd
  exact hnd.2.2 h hm h hm2 rfl

/-- Nothing is in flight outside ARMED and RUNNING (R24). -/
theorem inflight_none {p : Params} {c : Ch} {x : Chan} (hx : x.Live p c) (h : x.st ≠ .active) : x.inflight = none := by
  have := hx.inflight_iff
  cases hi : x.inflight with
  | none => rfl
  | some g => rw [hi] at this; exact absurd (this.2 rfl) h

/-- The handle at the head of a non-empty queue. -/
theorem front_initialised {p : Params} {c : Ch} {x : Chan} (hp : p.Legal) (hx : x.Live p c) (he : x.q.emptyR = false) :
   (x.q.front (p.chan c).k).toNat < x.n.toNat ∧ usedLegal p c (x.usedOf (x.q.front (p.chan c).k)).toNat := by
  obtain ⟨h1, h2⟩ := placed_pop (placed_of_live hx) he
  exact ⟨placed_lt hp h1 (by simp), h2⟩

/-- The handle an acquire takes is one of the channel's. -/
theorem acquire_lt {p : Params} {c : Ch} {x y : Chan} {h} (hp : p.Legal) (hx : x.Live p c) (e : acquire p c x = some (h, y)) :
   h.toNat < x.n.toNat := by
  have h1 := placed_acquire hp (placed_of_live hx) e
  have := placed_lt hp h1 (g := h) (by simp)
  obtain ⟨-, -, rfl⟩ := acquire_eq e
  exact this

/-- Acquire, where the free ring's view is not empty (40_chunk_pool.md R105). -/
theorem acquire_spec {p : Params} {c : Ch} {x : Chan} (hx : x.Live p c) (hp : p.Legal) (hne : x.f.r ≠ x.f.ws) :
   ∃ y, acquire p c x = some (x.f.slots.getD (x.f.r % (p.chan c).p) 0#8, y) ∧ x.f.contents (p.chan c).p = x.f.slots.getD (x.f.r % (p.chan c).p) 0#8 :: y.f.contents (p.chan c).p ∧
      y.usedOf (x.f.slots.getD (x.f.r % (p.chan c).p) 0#8) = 0#16 ∧ (∀ g, g ≠ x.f.slots.getD (x.f.r % (p.chan c).p) 0#8 → y.usedOf g = x.usedOf g) ∧ y.f.w = x.f.w ∧ y.f.ws = x.f.ws ∧
      y = { x with f := y.f, used := y.used } ∧ y.f.slots = x.f.slots := by
  have he : x.f.emptyR = false := by simpa [FreeRing.emptyR] using hne
  obtain ⟨y, e⟩ : ∃ y, acquire p c x = some (x.f.slots.getD (x.f.r % (p.chan c).p) 0#8, y) := ⟨_, by unfold acquire; rw [if_neg (by simp [he])]⟩
  have hp1 := placed_acquire hp (placed_of_live hx) e
  have hlt : (x.f.slots.getD (x.f.r % (p.chan c).p) 0#8).toNat < x.used.length := by
    rw [hx.used_length]; exact (placed_lt hp hp1 (by simp)).trans_le hp1.n_le |>.trans_eq rfl
  have e' := e
  refine ⟨y, e, ?_, ?_, fun g hg => acquire_usedOf e' hlt hg, ?_⟩
  · obtain ⟨-, -, rfl⟩ := acquire_eq e
    exact ringContents_read hx.free_ok.2.1 hx.free_ok.2.2.1 (occ_pos_of_view hx.free_ok.2 hne)
  · obtain ⟨-, -, rfl⟩ := acquire_eq e
    have := usedOf_setUsed { x with f := { x.f with r := ptrSucc (p.chan c).p x.f.r } } (x.f.slots.getD (x.f.r % (p.chan c).p) 0#8) (x.f.slots.getD (x.f.r % (p.chan c).p) 0#8) 0#16 hlt
    rw [if_pos rfl] at this; exact this
  · obtain ⟨-, -, rfl⟩ := acquire_eq e
    exact ⟨rfl, rfl, rfl, rfl⟩

/-- Release appends the handle (R106). -/
theorem release_contents {p : Params} {c : Ch} {x : Chan} {h : Handle} (hx : x.f.Ok (p.chan c).p) (hlt : x.f.occ (p.chan c).p < (p.chan c).p) :
   (release p c h x).f.contents (p.chan c).p = x.f.contents (p.chan c).p ++ [h] :=
  ringContents_write h hx.2.1 hx.2.2.1 hx.1 hlt

/-- The free ring has room while a handle of the channel is outside it. -/
theorem occ_lt_of_not_free {p : Params} {c : Ch} {x : Chan} (hp : p.Legal) (hx : x.Live p c) {h : Handle} (hn : h.toNat < x.n.toNat)
    (hm : h ∉ x.f.contents (p.chan c).p) : x.f.occ (p.chan c).p < (p.chan c).p := by
  have hp1 := placed_of_live hx
  have hnd := placed_nodup hp hp1
  have hlt : ∀ g ∈ h :: x.f.contents (p.chan c).p, g.toNat < x.n.toNat := by
    intro g hg
    rcases List.mem_cons.1 hg with rfl | hg
    · exact hn
    · exact placed_lt hp hp1 (by simp [Chan.places, hg])
  have hnd2 : ((h :: x.f.contents (p.chan c).p).map BitVec.toNat).Nodup := by
    refine List.Nodup.map (fun a b => BitVec.eq_of_toNat_eq) (List.nodup_cons.2 ⟨hm, ?_⟩)
    simp only [Chan.places, List.nil_append] at hnd
    exact (List.nodup_append.1 hnd).1
  have hle := List.Subperm.length_le (List.subperm_of_subset hnd2 (l₂ := List.range x.n.toNat) (by
    intro j hj
    obtain ⟨g, hg, rfl⟩ := List.mem_map.1 hj
    exact List.mem_range.2 (hlt g hg)))
  have h2 := nmax_le_p (legal_chan hp c).2.2.1
  have h3 := hx.n_le
  have e : (x.f.contents (p.chan c).p).length = x.f.occ (p.chan c).p := ringContents_length _ _ _ _
  simp only [List.length_map, List.length_cons, List.length_range] at hle
  omega

/-- The kick step, where it is enabled (44_channel_tx.md R204). -/
theorem txKick_eq {p : Params} {c : Ch} {x : Chan} (h1 : x.st = .idle) (h2 : x.q.r ≠ x.q.ws) : txKick p c x = program p c (x.q.front (p.chan c).k) { x with q := x.q.pop (p.chan c).k, inflight := some (x.q.front (p.chan c).k), st := .active } := by
  simp [txKick, txKickEnabled, h1, Queue.emptyR, h2, Queue.get]

end Sys2Proof.Machine
end

