-- ==== Sys2Proof/Laws/Ports.lean ====
section
/-! SUPPORT. The FIFO requests of 41_async_fifo.md R141: each ring operation is the request of its name, with its data. The arm
strobe of 46_peripheral.md R244: `program` raises it, and nothing else does. -/

namespace Sys2Proof.Machine

/-- A pointer that advances changes. -/
theorem ptrSucc_ne {d a : Nat} (ha : a < 2 * d) : a ≠ ptrSucc d a := by rw [ptrSucc_eq ha]; split <;> omega

/-- A Q_PUT is a write request of its handle (R130). -/
theorem wrReq_push {p : Params} {c : Ch} {x y : Chan} {h : Handle} (hl : portsLive x y = true) (hw : x.q.w < 2 * (p.chan c).k)
    (hs : x.q.w % (p.chan c).k < x.q.slots.length) (e : y.q = x.q.push (p.chan c).k h) :
    wrReq x y = true ∧ wrData p c x y = h := by
  simp [wrReq, wrData, hl, e, Queue.push, ptrSucc_ne hw, List.getD_eq_getElem?_getD, hs]

/-- A Q_GET is a read request (R131). -/
theorem rdReq_pop {p : Params} {c : Ch} {x y : Chan} (hl : portsLive x y = true) (hr : x.q.r < 2 * (p.chan c).k)
    (e : y.q.r = (x.q.pop (p.chan c).k).r) : rdReq x y = true := by
  simp [rdReq, hl, e, Queue.pop, ptrSucc_ne hr]

/-- A release is a write request of its handle on the free ring (R106). -/
theorem freeWrReq_release {p : Params} {c : Ch} {x : Chan} {h : Handle} (hl : x.st ≠ .uninit) (hw : x.f.w < 2 * (p.chan c).p)
    (hs : x.f.w % (p.chan c).p < x.f.slots.length) :
    freeWrReq x (release p c h x) = true ∧ freeWrData p c x (release p c h x) = h := by
  simp [freeWrReq, freeWrData, portsLive, hl, release, ptrSucc_ne hw, List.getD_eq_getElem?_getD, hs]

/-- An acquire is a read request of the handle it answers on the free ring (R105). -/
theorem freeRdReq_acquire {p : Params} {c : Ch} {x y : Chan} {h : Handle} (hl : x.st ≠ .uninit) (hr : x.f.r < 2 * (p.chan c).p)
    (e : acquire p c x = some (h, y)) : freeRdReq x y = true ∧ freeRdData p c x = h := by
  obtain ⟨-, rfl, rfl⟩ := acquire_eq e
  simp [freeRdReq, freeRdData, portsLive, hl, Chan.setUsed, ptrSucc_ne hr]

/-- A step that leaves the rings' own pointers makes no request. -/
theorem no_request {x y : Chan} (h1 : y.q.w = x.q.w) (h2 : y.q.r = x.q.r) (h3 : y.f.w = x.f.w) (h4 : y.f.r = x.f.r) :
    wrReq x y = false ∧ rdReq x y = false ∧ freeWrReq x y = false ∧ freeRdReq x y = false := by
  simp [wrReq, rdReq, freeWrReq, freeRdReq, h1, h2, h3, h4]

/-- `program` raises the strobe, where the peripheral was disarmed and where a handler programs an armed one again (R240). -/
theorem armPort_program {p : Params} {c : Ch} {h : Handle} {s t : State} {x : Chan} (e : t.ch c = program p c h x)
    (hs : (s.ch c).per.armed = false ∨ handlerRan c s t = true) : armPort c s t = true := by
  rcases hs with hs | hs <;> simp [armPort, hs, e, program]

/-- `stop` does not raise it. -/
theorem armPort_stop {c : Ch} {s t : State} {x : Chan} (e : t.ch c = stop x) : armPort c s t = false := by
  simp [armPort, e, stop]

/-- A step with no handler of the channel that leaves the peripheral's outputs does not raise it. -/
theorem armPort_same {c : Ch} {s t : State} (e : (t.ch c).per = (s.ch c).per) (h : handlerRan c s t = false) :
    armPort c s t = false := by
  simp [armPort, e, h]

end Sys2Proof.Machine
end

