-- ==== Sys2Proof/Laws/Step.lean ====
section
/-! SUPPORT. Everything one command and one turn can do, said once. -/

namespace Sys2Proof.Machine

/-- Taking the turn off the schedule leaves the channels. -/
theorem advance_ch (s : State) (c : Ch) : s.advance.ch c = s.ch c := by cases c <;> rfl

/-- The channels after a command that writes one channel and SYS. -/
theorem ch_update_sys (s : State) (c d : Ch) (x : Chan) (m k r) : State.ch { s.setCh c x with sys := m, code := k, result := r } d = if d = c then x else s.ch d := by
  have : State.ch { s.setCh c x with sys := m, code := k, result := r } d = (s.setCh c x).ch d := by cases d <;> rfl
  rw [this, ch_setCh]

/-- The channels after a command that writes one channel. -/
theorem ch_update (s : State) (c d : Ch) (x : Chan) (k r) : State.ch { s.setCh c x with code := k, result := r } d = if d = c then x else s.ch d := by
  have : State.ch { s.setCh c x with code := k, result := r } d = (s.setCh c x).ch d := by cases d <;> rfl
  rw [this, ch_setCh]

/-- The channels after CH_INIT. -/
theorem ch_update_bind (s : State) (c d : Ch) (x : Chan) (i cb ctx k r) : State.ch { (s.setCh c x).bind i cb ctx with code := k, result := r } d = if d = c then x else s.ch d := by
  have : State.ch { (s.setCh c x).bind i cb ctx with code := k, result := r } d = (s.setCh c x).ch d := by cases d <;> rfl
  rw [this, ch_setCh]

/-- Clearing BUSY leaves the channels. -/
theorem ch_setBusy (s : State) (b) (d) : State.ch { s with busy := b } d = s.ch d := by cases d <;> rfl

/-- A pending bit depends on `pending` alone. -/
theorem isPending_congr {s t : State} (h : t.pending = s.pending) (i : Nat) : t.isPending i = s.isPending i := by simp [State.isPending, h]

/-- A pending bit after one is written. -/
theorem isPending_setPending_eq (s : State) (i j : Nat) (b : Bool) : (s.setPending i b).isPending j = if j = i ∧ i < s.pending.length then b else s.isPending j := by
  simp only [State.isPending, State.setPending, List.getD_eq_getElem?_getD, List.getElem?_set]
  by_cases h : i = j
  · subst h
    by_cases h2 : i < s.pending.length <;> simp [h2]
  · simp [h, Ne.symm h]

/-- What a command that answers a next state has done: ended with its code alone, or one of the effects of the table. -/
theorem exec_cases {i : Instr} {s t : State} (h : exec i s = .next t) :
   (∃ k r, t = { s with code := k, result := r } ∧ (∀ c, i = .txPut c → k ≠ .ok)) ∨
   (i = .blkReset ∧ t = resetAction s) ∨
   (∃ irq cb ctx, i = .dispReg irq cb ctx ∧ t = { s.bind irq.toNat cb ctx with code := .ok, result := 0#32 }) ∨
   (∃ irq, i = .dispSwtrig irq ∧ t = { s.setPending irq.toNat true with code := .ok, result := 0#32 }) ∨
   (∃ c count, i = .chInit c count ∧ ChInitReady c count s ∧ c.isTx = true ∧ t = { (s.setCh c (initTx s.cfg c count (s.ch c))).bind (s.cfg.chan c).irq 1#4 (c.bits.setWidth 16) with code := .ok, result := 0#32 }) ∨
   (∃ c count, i = .chInit c count ∧ ChInitReady c count s ∧ c.isRx = true ∧ t = { (s.setCh c (initRx s.cfg c count (s.ch c))).bind (s.cfg.chan c).irq 0#4 (c.bits.setWidth 16) with code := .ok, result := 0#32 }) ∨
   (∃ c, i = .chStart c ∧ c.isRx = true ∧ (s.ch c).st = .idle ∧ ∃ h x r, acquire s.cfg c (s.ch c) = some (h, x) ∧ t = { s.setCh c (arm s.cfg c h x) with code := .ok, result := r }) ∨
   (∃ c, i = .rxGet c ∧ RxGetReady c s ∧ ∃ r, t = { s.setCh c (release s.cfg c ((s.ch c).q.front (s.cfg.chan c).k) { s.ch c with q := (s.ch c).q.pop (s.cfg.chan c).k }) with sys := s.copyHost s.addrOp (chunkAddr s.cfg c ((s.ch c).q.front (s.cfg.chan c).k)) ((s.ch c).usedOf ((s.ch c).q.front (s.cfg.chan c).k)).toNat, code := .ok, result := r }) ∨
   (∃ c, i = .rxGetNc c ∧ RxGetNcReady c s ∧ ∃ r, t = { s.setCh c { s.ch c with q := (s.ch c).q.pop (s.cfg.chan c).k, held := (s.ch c).held.set ((s.ch c).q.front (s.cfg.chan c).k).toNat true } with code := .ok, result := r }) ∨
   (∃ c h, i = .rxRelease c h ∧ RxReleaseReady c h s ∧ t = { s.setCh c (release s.cfg c h { s.ch c with held := (s.ch c).held.set h.toNat false }) with code := .ok, result := 0#32 }) ∨
   (∃ c, i = .txPut c ∧ TxPutReady c s ∧ ∃ h x r, acquire s.cfg c (s.ch c) = some (h, x) ∧ t = { s.setCh c { x.setUsed h s.lenOp with q := x.q.push (s.cfg.chan c).k h } with sys := s.copyHost (chunkAddr s.cfg c h) s.addrOp s.lenOp.toNat, code := .ok, result := r }) := by
  have fin : ∀ {x : Code} (hx : ∀ c, i = .txPut c → x ≠ .ok), raise x s = .next t → (∃ k r, t = { s with code := k, result := r } ∧ (∀ c, i = .txPut c → k ≠ .ok)) := by
    intro x hx h; exact ⟨x, 0#32, (Host.Outcome.next.inj h).symm, hx⟩
  cases i with
  | nop => exact .inl ⟨_, _, (Host.Outcome.next.inj h).symm, by simp⟩
  | blkReset => exact .inr (.inl ⟨rfl, (Host.Outcome.next.inj h).symm⟩)
  | dispReg irq cb ctx =>
    simp only [exec, execDispReg] at h
    split at h; · exact .inl (fin (by simp) h)
    split at h; · exact .inl (fin (by simp) h)
    split at h; · exact .inl (fin (by simp) h)
    exact .inr (.inr (.inl ⟨_, _, _, rfl, (Host.Outcome.next.inj h).symm⟩))
  | dispSwtrig irq =>
    simp only [exec, execDispSwtrig, simulate] at h
    split at h; · exact .inl (fin (by simp) h)
    split at h; · cases h
    exact .inr (.inr (.inr (.inl ⟨_, rfl, (Host.Outcome.next.inj h).symm⟩)))
  | chInit c count =>
    have hn : ¬(count = 0#8 ∨ (s.cfg.chan c).nmax < count.toNat) → 1 ≤ count.toNat ∧ count.toNat ≤ (s.cfg.chan c).nmax := by
      intro hh; push Not at hh
      refine ⟨?_, hh.2⟩
      by_contra hc; exact hh.1 (BitVec.eq_of_toNat_eq (by simpa using hc))
    simp only [exec, execChInit] at h
    split at h
    · next ht =>
      simp only [chInitTx] at h
      split at h; · exact .inl (fin (by simp) h)
      next h1 =>
      split at h; · exact .inl (fin (by simp) h)
      next h2 =>
      split at h; · exact .inl (fin (by simp) h)
      next h3 =>
      exact .inr (.inr (.inr (.inr (.inl ⟨c, count, rfl, ⟨by simpa using h1, (hn h2).1, (hn h2).2, by simpa using h3⟩, ht, (Host.Outcome.next.inj h).symm⟩))))
    · next ht =>
      simp only [chInitRx] at h
      split at h; · exact .inl (fin (by simp) h)
      next h1 =>
      split at h; · exact .inl (fin (by simp) h)
      next h2 =>
      split at h; · exact .inl (fin (by simp) h)
      next h3 =>
      exact .inr (.inr (.inr (.inr (.inr (.inl ⟨c, count, rfl, ⟨by simpa using h1, (hn h2).1, (hn h2).2, by simpa using h3⟩, by simpa [Ch.isRx] using ht, (Host.Outcome.next.inj h).symm⟩)))))
  | chStart c =>
    simp only [exec, execChStart] at h
    split at h
    · simp only [chStartTx] at h
      split at h; · exact .inl (fin (by simp) h)
      exact .inl ⟨_, _, (Host.Outcome.next.inj h).symm, by simp⟩
    · next ht =>
      simp only [chStartRx] at h
      split at h; · exact .inl (fin (by simp) h)
      next h1 =>
      split at h; · exact .inl (fin (by simp) h)
      next hh x e =>
      exact .inr (.inr (.inr (.inr (.inr (.inr (.inl ⟨c, rfl, by simpa [Ch.isRx] using ht, by simpa using h1, _, _, _, e, (Host.Outcome.next.inj h).symm⟩))))))
  | rxGet c =>
    simp only [exec, execRxGet] at h
    split at h; · exact .inl (fin (by simp) h)
    next h1 =>
    split at h; · exact .inl (fin (by simp) h)
    next h2 =>
    split at h; · exact .inl (fin (by simp) h)
    next g e =>
    have : (s.ch c).q.emptyR = false ∧ g = (s.ch c).q.front (s.cfg.chan c).k := by
      unfold Queue.head at e; split at e
      · cases e
      · next he => exact ⟨by simpa using he, (Option.some.inj e).symm⟩
    obtain ⟨he, rfl⟩ := this
    split at h; · exact .inl (fin (by simp) h)
    next h3 =>
    split at h; · exact .inl (fin (by simp) h)
    next h4 =>
    split at h; · exact .inl (fin (by simp) h)
    next h5 =>
    split at h; · cases h
    next h6 =>
    split at h; · cases h
    exact .inr (.inr (.inr (.inr (.inr (.inr (.inr (.inl ⟨c, rfl, ⟨by simpa [Ch.isRx] using h1, h2, he, by simpa [State.addrInSys] using h3, by omega, by simpa [State.rangePastTop] using h5, by simpa using h6⟩, _, (Host.Outcome.next.inj h).symm⟩)))))))
  | rxGetNc c =>
    simp only [exec, execRxGetNc] at h
    split at h; · exact .inl (fin (by simp) h)
    next h1 =>
    split at h; · exact .inl (fin (by simp) h)
    next h2 =>
    split at h; · exact .inl (fin (by simp) h)
    next g q e =>
    obtain ⟨he, rfl, rfl⟩ := queueGet_eq e
    exact .inr (.inr (.inr (.inr (.inr (.inr (.inr (.inr (.inl ⟨c, rfl, ⟨by simpa [Ch.isRx] using h1, h2, he⟩, _, (Host.Outcome.next.inj h).symm⟩))))))))
  | rxRelease c g =>
    simp only [exec, execRxRelease] at h
    split at h; · exact .inl (fin (by simp) h)
    next h1 =>
    split at h; · exact .inl (fin (by simp) h)
    next h2 =>
    split at h; · exact .inl (fin (by simp) h)
    next h3 =>
    split at h; · exact .inl (fin (by simp) h)
    next h4 =>
    exact .inr (.inr (.inr (.inr (.inr (.inr (.inr (.inr (.inr (.inl ⟨c, g, rfl, ⟨by simpa [Ch.isRx] using h1, h2, by omega, by simpa using h4⟩, (Host.Outcome.next.inj h).symm⟩)))))))))
  | txPut c =>
    simp only [exec, execTxPut] at h
    split at h; · exact .inl (fin (by simp) h)
    next h1 =>
    split at h; · exact .inl (fin (by simp) h)
    next h2 =>
    split at h; · exact .inl (fin (by simp) h)
    next h3 =>
    split at h; · exact .inl (fin (by simp) h)
    next h4 =>
    split at h; · exact .inl (fin (by simp) h)
    next h5 =>
    split at h; · exact .inl (fin (by simp) h)
    next g x e =>
    split at h; · cases h
    next h6 =>
    split at h; · cases h
    simp only [badTxLen, Bool.or_eq_true, beq_iff_eq, decide_eq_true_eq, bne_iff_ne, not_or] at h3
    simp [State.rangePastTop] at h4
    exact .inr (.inr (.inr (.inr (.inr (.inr (.inr (.inr (.inr (.inr ⟨c, rfl, ⟨by simpa [Ch.isRx] using h1, h2, by omega, by omega, not_not.1 h3.2, h4.2, by simpa using h5, (acquire_eq e).1, by simpa using h6⟩, _, _, _, e, (Host.Outcome.next.inj h).symm⟩)))))))))

/-- What an action of the host leaves (10_state.md R37, 20_memory.md R60(d)). -/
theorem hostAct_frame {op : HostOp} {s t : State} (h : hostAct op s = .next t) :
   t.chans = s.chans ∧ t.pending = s.pending ∧ t.cfg = s.cfg ∧ t.table = s.table ∧ (t.sys = s.sys ∨ ∃ a bytes, t.sys = s.sys.writeRun a bytes ∧ s.hostOwns a bytes.length = true) := by
  cases op with
  | readReg w a =>
    simp only [hostAct, hostReadReg] at h
    split at h; · cases h; simp
    split at h; · cases h
    cases h; simp
  | writeReg w a v =>
    simp only [hostAct, hostWriteReg, State.regWrite, issue] at h
    split at h; · cases h; simp
    split at h; · cases h
    cases h; split_ifs <;> simp
  | readSys a n =>
    simp only [hostAct, hostReadSys, hostSys] at h
    split at h; · cases h
    split at h; · cases h
    cases h; simp
  | writeSys a b =>
    simp only [hostAct, hostWriteSys, hostSys] at h
    split at h; · cases h
    split at h; · cases h
    next ho =>
    cases h; exact ⟨rfl, rfl, rfl, rfl, .inr ⟨_, _, rfl, by simpa using ho⟩⟩
  | wait => simp only [hostAct, hostWait] at h; cases h; simp
  | retry n l => simp only [hostAct, hostRetry] at h; split at h <;> cases h <;> simp
  | retryTest n l => simp only [hostAct, hostRetryTest] at h; cases h; simp

/-- Host ownership does not depend on the host's pending actions. -/
theorem hostOwns_setHost (s : State) (r : List HostOp) (a n) : State.hostOwns { s with host := r } a n = s.hostOwns a n := by
  have hch : ∀ c, State.ch { s with host := r } c = s.ch c := by intro c; cases c <;> rfl
  unfold State.hostOwns State.ownsChunk; simp only [hch]

/-- What a HOST turn leaves. -/
theorem hostTurn_frame {s t : State} (h : hostTurn s = .next t) :
   t.chans = s.chans ∧ t.pending = s.pending ∧ t.cfg = s.cfg ∧ t.table = s.table ∧ (t.sys = s.sys ∨ ∃ a bytes, t.sys = s.sys.writeRun a bytes ∧ s.hostOwns a bytes.length = true) := by
  unfold hostTurn at h
  split at h
  · next op rest e =>
    obtain ⟨a, b, c, d, e⟩ := hostAct_frame h
    refine ⟨a, b, c, d, e.imp id ?_⟩
    rintro ⟨x, y, h1, h2⟩
    exact ⟨x, y, h1, by rw [hostOwns_setHost] at h2; exact h2⟩
  · exact hostAct_frame h

/-- What a CMDENG turn does (45_command_port.md R223). -/
theorem cmdengTurn_cases {s t : State} (h : cmdengTurn s = .next t) : t = s ∧ s.busy = false ∨ (∃ e, s.busy = true ∧ decode s.cmdL = .error e ∧ t = { s with code := .illegalCommand, result := 0#32, busy := false }) ∨ ∃ i u, s.busy = true ∧ decode s.cmdL = .ok i ∧ exec i s = .next u ∧ t = { u with busy := false } := by
  unfold cmdengTurn at h
  split at h
  · next hb =>
    split at h
    · next i e =>
      cases hx : exec i s with
      | next u => rw [hx] at h; exact .inr (.inr ⟨i, u, hb, e, hx, (Host.Outcome.next.inj h).symm⟩)
      | fault f => rw [hx] at h; cases h
      | refused f => rw [hx] at h; cases h
    · next e he => exact .inr (.inl ⟨e, hb, he, (Host.Outcome.next.inj h).symm⟩)
  · next hb => exact .inl ⟨(Host.Outcome.next.inj h).symm, by simpa using hb⟩

/-- What a handler leaves (42_dispatch.md R153). -/
theorem runHandler_frame (i : Nat) (e : Entry) (s : State) : (runHandler i e s).pending = s.pending ∧ (runHandler i e s).cfg = s.cfg ∧ (runHandler i e s).table = s.table := by
  unfold runHandler; split_ifs <;> simp

/-- What a handler does to SYS: nothing, or a receive transfer in progress is cut off (70_reset_and_hazards.md R292). -/
theorem runHandler_sys (i : Nat) (e : Entry) (s : State) : (runHandler i e s).sys = s.sys ∨
    ∃ c, e.bound = true ∧ e.cb = 0#4 ∧ c = Ch.ofBits (e.ctx.extractLsb' 0 2) ∧ (s.ch c).inProgress = true ∧
      (runHandler i e s).sys = (receiveBytes c s).sys := by
  unfold runHandler
  split
  · next hb =>
    split
    · next hcb =>
      by_cases hp : (s.ch (Ch.ofBits (e.ctx.extractLsb' 0 2))).inProgress = true
      · exact .inr ⟨_, hb, hcb, rfl, hp, by simp [partlyReceived, hp]⟩
      · exact .inl (by simp [partlyReceived, hp])
    · left; split <;> simp
  · exact .inl rfl

/-- A DISP turn runs the handler of the least pending id, if there is one. -/
theorem dispTurn_eq (s : State) : dispTurn s = match s.leastPending with
   | none => s
   | some i => runHandler i (s.entry i) (s.setPending i false) := by
  unfold dispTurn State.enterHandler
  cases s.leastPending <;> rfl

/-- A DISP turn leaves the configuration, and SYS canonical. -/
theorem dispTurn_frame (s : State) : (dispTurn s).cfg = s.cfg ∧ (s.sys.wf → (dispTurn s).sys.wf) := by
  rw [dispTurn_eq]
  split
  · exact ⟨rfl, id⟩
  · next i _ =>
    refine ⟨by simp [runHandler_frame i (s.entry i) (s.setPending i false)], fun h => ?_⟩
    rcases runHandler_sys i (s.entry i) (s.setPending i false) with e | ⟨c, -, -, -, -, e⟩
    · rw [e]; exact h
    · rw [e]; exact writeRun_wf _ _ _ h

/-- An internal handler is the completion handler of the channel whose id is served (R152, R153). -/
theorem runHandler_channel {s : State} {i : Nat} (hs : s.Inv) (hp : (s.entry i).bound = true) (hcb : (s.entry i).cb = 0#4 ∨ (s.entry i).cb = 1#4) (b : Bool) :
   ∃ c, (s.ch c).st ≠ .uninit ∧ i = (s.cfg.chan c).irq ∧ runHandler i (s.entry i) (s.setPending i b) =
      State.setCh (if c.isRx then partlyReceived c (s.setPending i b) else s.setPending i b) c (if c.isRx then rxComplete s.cfg c (s.ch c) else txComplete s.cfg c (s.ch c)) := by
  obtain ⟨c, h1, h2, h3⟩ := hs.table.bound_internal i hp hcb
  refine ⟨c, h1, h2, ?_⟩
  rw [h3]
  unfold runHandler
  rw [if_pos (show (channelEntry c).bound = true from rfl)]
  simp only [ctx_ch, setPending_cfg, setPending_ch]
  by_cases hr : c.isRx = true
  · rw [if_pos hr, if_pos hr, if_pos (by simp [channelEntry, internalCb, hr])]
  · rw [if_neg hr, if_neg hr, if_neg (by simp [channelEntry, internalCb, hr]), if_pos (by simp [channelEntry, internalCb, hr])]

/-- What the receive completion handler does to `state_c` (43_channel_rx.md R172, R173). -/
theorem rxComplete_outcome {p c} {x : Chan} : (rxComplete p c x).st = x.st ∨ x.st = .active ∧ (rxComplete p c x).st = .starved := by
  unfold rxComplete
  split
  · next h1 h2 =>
    dsimp only; split
    · left; rfl
    · split
      · next h3 y e => left; have := acquire_st e; exact this
      · right; exact ⟨h1, rfl⟩
  · left; rfl

/-- What the transmit completion handler does to `state_c` (44_channel_tx.md R205). -/
theorem txComplete_outcome {p c} {x : Chan} : (txComplete p c x).st = x.st ∨ x.st = .active ∧ (txComplete p c x).st = .idle := by
  unfold txComplete
  split
  · next h1 h2 =>
    dsimp only; split
    · left; rfl
    · right; exact ⟨h1, rfl⟩
  · left; rfl

/-- At a quiescent state the block's own agents change nothing: only HOST, PERIPH_c, EXTIRQ and the reset input can
(70_reset_and_hazards.md R298). -/
theorem quiescent_rests {s : State} (h : s.Quiescent) {u : Turn} (hu : u.fair = true) : takeTurn u s = .next s := by
  obtain ⟨hb, hp, hv, hf⟩ := h
  cases u with
  | host => cases hu
  | periph c => cases hu
  | extIrq i => cases hu
  | rstN => cases hu
  | cmdeng => simp [takeTurn, cmdengTurn, hb]
  | syncQueueW2R c =>
    have e : (s.ch c).q.syncW2R = (s.ch c).q := congrArg (fun v => { (s.ch c).q with ws := v }) (hv c).1.symm
    simp only [takeTurn, syncQueueW2R, e]
    exact congrArg _ (setCh_self s c)
  | syncQueueR2W c =>
    have e : (s.ch c).q.syncR2W = (s.ch c).q := congrArg (fun v => { (s.ch c).q with rs := v }) (hv c).2.1.symm
    simp only [takeTurn, syncQueueR2W, e]
    exact congrArg _ (setCh_self s c)
  | syncFreeW2R c =>
    have e : (s.ch c).f.syncW2R = (s.ch c).f := congrArg (fun v => { (s.ch c).f with ws := v }) (hv c).2.2.symm
    simp only [takeTurn, syncFreeW2R, e]
    exact congrArg _ (setCh_self s c)
  | disp => simp [takeTurn, dispTurn_eq, hp]
  | fsm c =>
    have := hf c
    simp only [State.fsmEnabled] at this
    simp only [takeTurn, fsmTurn]
    split at this
    · next ht => rw [if_pos ht, txKick, if_neg (by simp [this]), setCh_self]
    · next ht => rw [if_neg ht, rxRetry, if_neg (by simp [this]), setCh_self]

/-- The steps of a run up to any of its states are steps of the run. -/
theorem IsRun.upTo {τ : Nat → Turn} {σ : Nat → State} (h : IsRun τ σ) (n : Nat) : IsRunTo τ σ n := fun m _ => h m

end Sys2Proof.Machine
end

