-- ==== Sys2Proof/Tests/Slice0.lean ====
section
/-! SUPPORT. Tests with results taken from 95_test_vectors.md, and for each statement a witness of its hypotheses. -/

namespace Sys2Proof.Tests

open Sys2Proof.Machine

/-- A small legal configuration: two-entry queues, four-byte chunks. -/
def cfg : Params :=
  { async := true, syncStages := 2, addrW := 16, m := 4, regBase := 0x40000000#32, sysCoherent := true,
    arx := { logK := 1, nmax := 3, cap := 4, base := 0x0100#32, irq := 0 },
    atx := { logK := 1, nmax := 2, cap := 4, base := 0x0200#32, irq := 1 },
    srx := { logK := 1, nmax := 3, cap := 4, base := 0x0300#32, irq := 2 },
    stx := { logK := 1, nmax := 2, cap := 4, base := 0x0400#32, irq := 3 } }

/-- The rings and places of an initialised channel. -/
abbrev PlacesOk (p : Params) (c : Ch) (x : Chan) : Prop :=
  x.q.Ok (p.chan c).k ∧ x.f.Ok (p.chan c).p ∧ (x.places p c).Nodup ∧
  ((x.places p c).all fun h => decide (h ∈ (List.range x.n.toNat).map fun j => BitVec.ofNat 8 j)) = true ∧ x.n.toNat ≤ (x.places p c).length

/-- Its used lengths and counts. -/
abbrev LengthsOk (p : Params) (c : Ch) (x : Chan) : Prop :=
  1 ≤ x.n.toNat ∧ x.n.toNat ≤ (p.chan c).nmax ∧ x.used.length = (p.chan c).nmax ∧
  x.held.length = (if c.isRx then (p.chan c).nmax else 0) ∧ (x.used.all fun u => decide (u.toNat ≤ (p.chan c).cap)) = true ∧
  ((x.q.contents (p.chan c).k ++ x.heldHandles).all fun h => decide (usedLegal p c (x.usedOf h).toNat)) = true

/-- What is in flight. -/
abbrev FlightOk (p : Params) (c : Ch) (x : Chan) : Prop :=
  (c.isTx = true → x.st ≠ .starved) ∧ (x.st = .active ↔ x.inflight.isSome = true) ∧
  (x.inflight.toList.all fun h => decide (programmedFor p c h x)) = true ∧
  (c.isTx = true → (x.inflight.toList.all fun h => decide (usedLegal p c (x.usedOf h).toNat)) = true) ∧
  (x.inflight = none → x.per.en = false ∧ x.per.armed = false)

/-- `Chan.Live`, as a concrete channel decides it. -/
def liveCheck (p : Params) (c : Ch) (x : Chan) : Bool :=
  decide (PlacesOk p c x) && decide (LengthsOk p c x) && decide (FlightOk p c x)

theorem live_of_check {p : Params} {c : Ch} {x : Chan} (h : liveCheck p c x = true) : x.Live p c := by
  simp only [liveCheck, Bool.and_eq_true, decide_eq_true_eq] at h
  obtain ⟨⟨⟨h1, h2, h15, h16, h17⟩, h4, h5, h6, h7, h8, h9⟩, h10, h11, h12, h13, h14⟩ := h
  have h3 := (List.subperm_of_subset h15 fun h hh => of_decide_eq_true (List.all_eq_true.1 h16 h hh)).perm_of_length_le (by simpa using h17)
  exact ⟨h4, h5, h6, h7, h1, h2, h3,
    fun u hu => of_decide_eq_true (List.all_eq_true.1 h8 u hu), fun h hh => of_decide_eq_true (List.all_eq_true.1 h9 h hh), h10, h11, 
    fun g hg => of_decide_eq_true (List.all_eq_true.1 h12 g (by simp [hg])),
    fun ht g hg => of_decide_eq_true (List.all_eq_true.1 (h13 ht) g (by simp [hg])), h14⟩

/-- The table. -/
abbrev TableCheck (s : State) : Prop :=
  s.table.length = s.cfg.m ∧ (∀ e ∈ s.table, e.bound = false → e.cb = 0#4 ∧ e.ctx = 0#16) ∧
  (∀ i ∈ List.range s.table.length, (s.entry i).bound = true → (s.entry i).cb = 0#4 ∨ (s.entry i).cb = 1#4 →
    ∃ c ∈ Ch.all, (s.ch c).st ≠ .uninit ∧ i = (s.cfg.chan c).irq ∧ s.entry i = channelEntry c) ∧
  ∀ c ∈ Ch.all, (s.ch c).st ≠ .uninit → s.entry (s.cfg.chan c).irq = channelEntry c

/-- `State.Inv`, as a concrete state in the small configuration decides it. -/
def invCheck (s : State) : Bool :=
  decide (s.pending.length = s.cfg.m) && decide (TableCheck s) && decide (s.sys.wf) &&
  s.sys.all (fun x => decide (x.1 < s.cfg.sysSize)) &&
  Ch.all.all fun c => if (s.ch c).st = .uninit then decide (s.ch c = Chan.reset s.cfg c) else liveCheck s.cfg c (s.ch c)

theorem cfg_legal : cfg.Legal := by decide

theorem inv_of_check {s : State} (hp : s.cfg = cfg) (h : invCheck s = true) : s.Inv := by
  simp only [invCheck, Bool.and_eq_true, decide_eq_true_eq, List.all_eq_true] at h
  obtain ⟨⟨⟨⟨h2, h3, h4, h5, h6⟩, h7⟩, h8⟩, h9⟩ := h
  refine ⟨hp ▸ cfg_legal, h2, ⟨h3, h4, fun i hb hc => ?_, fun c => h6 c (Ch.mem_all c)⟩, ⟨h7, h8⟩, fun c => ⟨fun hu => ?_, fun hu => ?_⟩⟩
  · have hi : i < s.table.length := by
      by_contra hn
      simp [State.entry, List.getD_eq_getElem?_getD, List.getElem?_eq_none (Nat.not_lt.1 hn)] at hb
    obtain ⟨c, -, h⟩ := h5 i (List.mem_range.2 hi) hb hc
    exact ⟨c, h⟩
  · have := h9 c (Ch.mem_all c); rw [if_pos hu] at this; exact of_decide_eq_true this
  · have := h9 c (Ch.mem_all c); rw [if_neg hu] at this; exact live_of_check this

/-- A channel initialised with `count` chunks. -/
def ready (c : Ch) (count : Byte) : Chan :=
  if c.isTx then initTx cfg c count (Chan.reset cfg c) else initRx cfg c count (Chan.reset cfg c)

/-- A channel's entry is bound, its chunk state is `x`, and nothing else is initialised. -/
def withChan (c : Ch) (x : Chan) : State :=
  ((State.resetWith cfg).setCh c x).bind (cfg.chan c).irq (internalCb c) (c.bits.setWidth 16)

def start (c : Ch) (x : Chan) : Chan := match acquire cfg c x with | some (h, y) => arm cfg c h y | none => x


/-! ### WellFormed (30_encoding.md R83) -/

theorem test_wf_accepts_each_command :
    [Instr.nop, .blkReset, .dispReg 5#4 2#4 0xBEEF#16, .dispSwtrig 7#4, .chInit .stx 4#8, .chStart .atx, .rxGet .arx,
      .rxGetNc .srx, .rxRelease .srx 3#8, .txPut .stx].all Instr.wf = true := by decide

theorem test_wf_refuses_rx_get_on_transmit : Instr.wf (.rxGet .atx) = false ∧ Instr.wf (.rxGet .stx) = false := by decide

theorem test_wf_refuses_rx_get_nc_on_transmit : Instr.wf (.rxGetNc .atx) = false ∧ Instr.wf (.rxGetNc .stx) = false := by
  decide

theorem test_wf_refuses_rx_release_on_transmit :
    Instr.wf (.rxRelease .atx 0#8) = false ∧ Instr.wf (.rxRelease .stx 0#8) = false := by decide

theorem test_wf_refuses_tx_put_on_receive : Instr.wf (.txPut .arx) = false ∧ Instr.wf (.txPut .srx) = false := by decide

/-! ### Decoding: words of 30_encoding.md R86 and 95_test_vectors.md V-DEC, written out from the fields of R80 -/

theorem test_decode_nop : decode 0x00000000#32 = .ok .nop := by decide

theorem test_decode_blk_reset : decode 0x00000001#32 = .ok .blkReset := by decide

/-- CTX = 0xBEEF, CB = 2, IRQ = 5, RSV = 0, CH = 0, OPC = 2. -/
theorem test_decode_disp_reg : decode 0b10111110111011110010010100000010#32 = .ok (.dispReg 5#4 2#4 0xBEEF#16) := by decide

theorem test_decode_disp_swtrig : decode 0x00000703#32 = .ok (.dispSwtrig 7#4) := by decide

/-- B = 6, CH = 2, OPC = 4. -/
theorem test_decode_ch_init : decode 0b00000000000000000000011000100100#32 = .ok (.chInit .srx 6#8) := by decide

theorem test_decode_ch_start : decode 0x00000025#32 = .ok (.chStart .srx) ∧ decode 0x00000035#32 = .ok (.chStart .stx) := by
  decide

theorem test_decode_rx_get : decode 0x00000006#32 = .ok (.rxGet .arx) ∧ decode 0x00000026#32 = .ok (.rxGet .srx) := by decide

theorem test_decode_rx_get_nc : decode 0x00000007#32 = .ok (.rxGetNc .arx) ∧ decode 0x00000027#32 = .ok (.rxGetNc .srx) := by
  decide

/-- B = 3, CH = 2, OPC = 8. -/
theorem test_decode_rx_release : decode 0b00000000000000000000001100101000#32 = .ok (.rxRelease .srx 3#8) := by decide

theorem test_decode_tx_put : decode 0x00000019#32 = .ok (.txPut .atx) ∧ decode 0x00000039#32 = .ok (.txPut .stx) := by decide

/-- The words V-DEC names as IllegalCommand, each with its reason. -/
theorem test_decode_refusals :
    decode 0x00000011#32 = .error .nonzeroUnused ∧ decode 0x0000000A#32 = .error .reservedOpcode ∧
    decode 0x0000000F#32 = .error .reservedOpcode ∧ decode 0x00000016#32 = .error .wrongDirection ∧
    decode 0x00000036#32 = .error .wrongDirection ∧ decode 0x00000009#32 = .error .wrongDirection ∧
    decode 0x00000084#32 = .error .nonzeroReserved ∧ decode 0x00010004#32 = .error .nonzeroUnused ∧
    decode 0x00000105#32 = .error .nonzeroUnused ∧ decode 0x00000338#32 = .error .wrongDirection ∧
    decode 0x00000047#32 = .error .nonzeroReserved := by decide

/-! ### Commands: the vectors of 95_test_vectors.md section 2, in the default configuration -/

/-- CODE and RESULT of a command that answers. -/
def ends (r : Res) : Option (Code × Word) :=
  match r with
  | .next t => some (t.code, t.result)
  | .fault _ => none
  | .refused _ => none

/-- The next state, for a command that answers. -/
def next (r : Res) : State :=
  match r with
  | .next t => t
  | .fault _ => State.reset
  | .refused _ => State.reset

/-- The fault, for a step that faults. -/
def faults (r : Res) : Option Fault :=
  match r with
  | .next _ => none
  | .fault f => some f
  | .refused _ => none

/-- The state with the operand latches set. -/
def latched (arg0 arg1 : Word) (s : State) : State := { s with arg0L := arg0, arg1L := arg1 }

/-- V-PORT: NOP clears a failure's code. -/
theorem test_nop : ends (exec .nop { State.reset with code := .badState, result := 7#32 }) = some (.ok, 0#32) := by decide

/-- V-PORT: every register is back at its reset value. -/
theorem test_blk_reset : next (exec .blkReset (next (exec (.chInit .srx 6#8) State.reset))) = State.reset := by decide

/-- V-DISP 1, 2, 3. -/
theorem test_disp_reg :
    ends (exec (.dispReg 5#4 2#4 0xBEEF#16) State.reset) = some (.ok, 0#32) ∧
    (next (exec (.dispReg 5#4 2#4 0xBEEF#16) State.reset)).regRead 0x0D4 = 0xBEEF0021#32 ∧
    ends (exec (.dispReg 5#4 3#4 1#16) (next (exec (.dispReg 5#4 2#4 0xBEEF#16) State.reset))) =
      some (.alreadyBound, 0#32) := by decide

/-- V-DISP 4, 5, 7. -/
theorem test_disp_reg_refusals :
    ends (exec (.dispReg 6#4 0#4 0#16) State.reset) = some (.invalidConfig, 0#32) ∧
    ends (exec (.dispReg 6#4 1#4 0#16) State.reset) = some (.invalidConfig, 0#32) ∧
    ends (exec (.dispReg 9#4 2#4 0#16) (State.resetWith { defaultParams with m := 8 })) = some (.invalidConfig, 0#32) := by
  decide

/-- V-DISP 8, 10. -/
theorem test_disp_swtrig :
    ends (exec (.dispSwtrig 7#4) State.reset) = some (.ok, 0#32) ∧
    (next (exec (.dispSwtrig 7#4) State.reset)).regRead 0x080 = 0x00000080#32 ∧
    ends (exec (.dispSwtrig 9#4) (State.resetWith { defaultParams with m := 8 })) = some (.invalidConfig, 0#32) := by decide

/-- V-RX 1, 2. -/
theorem test_ch_init_bad_count :
    ends (exec (.chInit .srx 0#8) State.reset) = some (.invalidConfig, 0#32) ∧
    ends (exec (.chInit .srx 9#8) State.reset) = some (.invalidConfig, 0#32) := by decide

/-- V-RX 3, 4. -/
theorem test_ch_init :
    ends (exec (.chInit .srx 8#8) State.reset) = some (.ok, 0#32) ∧
    (next (exec (.chInit .srx 8#8) State.reset)).chans.srx.n = 8#8 ∧
    (next (exec (.chInit .srx 8#8) State.reset)).entry 2 = { bound := true, cb := 0#4, ctx := 2#16 } ∧
    ends (exec (.chInit .srx 6#8) (next (exec (.chInit .srx 8#8) State.reset))) = some (.badState, 0#32) := by decide

/-- SRX initialised with six chunks (V-RX 7 to 17). -/
def srx6 : State := next (exec (.chInit .srx 6#8) State.reset)

/-- V-RX 5, 8, 9. -/
theorem test_ch_start :
    ends (exec (.chStart .srx) State.reset) = some (.badState, 0#32) ∧
    ends (exec (.chStart .srx) srx6) = some (.ok, 0#32) ∧
    (next (exec (.chStart .srx) srx6)).chans.srx.per =
      { cfgAddr := 0x00020000#32, cfgCount := 64#16, cfgStride := 1#2, en := true, armed := true } ∧
    ends (exec (.chStart .srx) (next (exec (.chStart .srx) srx6))) = some (.badState, 0#32) := by decide

/-- V-TX 2. -/
theorem test_ch_start_on_transmit :
    ends (exec (.chStart .stx) (next (exec (.chInit .stx 4#8) State.reset))) = some (.ok, 0#32) := by decide

/-- V-RX 10: the head is h = 1 with 64 bytes, synchronised. -/
def srxHead : State :=
  srx6.setCh .srx { srx6.chans.srx with
    q := { slots := [1#8, 0#8, 0#8, 0#8], w := 1, rs := 0, r := 0, ws := 1 }
    f := { srx6.chans.srx.f with r := 2 }
    used := [0#16, 64#16, 0#16, 0#16, 0#16, 0#16, 0#16, 0#16] }

/-- V-RX 6, 7, 10, 11. -/
theorem test_rx_get_refusals :
    ends (exec (.rxGet .srx) (latched 0x2000#32 64#32 State.reset)) = some (.badState, 0#32) ∧
    ends (exec (.rxGet .srx) (latched 0x2000#32 64#32 srx6)) = some (.queueEmpty, 0#32) ∧
    ends (exec (.rxGet .srx) (latched 0x2000#32 63#32 srxHead)) = some (.lengthError, 0#32) ∧
    ends (exec (.rxGet .srx) (latched 0xFFFFFFF0#32 64#32 srxHead)) = some (.lengthError, 0#32) := by decide

/-- V-RX 12, 13 on a chunk of three bytes: RESULT, the slot and pointer of the release, the bytes, ARG1[31:16] ignored. -/
theorem test_rx_get :
    let s := srxHead.setCh .srx { srxHead.chans.srx with used := srxHead.chans.srx.used.set 1 3#16 }
    let t := next (exec (.rxGet .srx) (latched 0x2000#32 0x00010040#32 { s with sys := [(0x20040, 7#8), (0x20041, 8#8), (0x20042, 9#8)] }))
    t.code = .ok ∧ t.result = 3#32 ∧ t.chans.srx.f.w = 7 ∧ t.chans.srx.f.slots.getD 6 0#8 = 1#8 ∧
    t.sys.take 3 = [(0x2000, 7#8), (0x2001, 8#8), (0x2002, 9#8)] := by decide

/-- V-RX 14. -/
theorem test_rx_get_nc :
    ends (exec (.rxGetNc .srx) srxHead) = some (.ok, 0x00400001#32) ∧
    (next (exec (.rxGetNc .srx) srxHead)).chans.srx.holds 1#8 = true := by decide

/-- V-RX 15, 16, 17. -/
theorem test_rx_release :
    let s := next (exec (.rxGetNc .srx) srxHead)
    ends (exec (.rxRelease .srx 1#8) s) = some (.ok, 0#32) ∧
    ends (exec (.rxRelease .srx 1#8) (next (exec (.rxRelease .srx 1#8) s))) = some (.invalidHandle, 0#32) ∧
    ends (exec (.rxRelease .srx 6#8) s) = some (.invalidHandle, 0#32) := by decide

/-- STX initialised with `n` chunks. -/
def stxReady (n : Byte) : State := next (exec (.chInit .stx n) State.reset)

/-- V-TX 1, 3, 4, 6, 11. -/
theorem test_tx_put_refusals :
    ends (exec (.txPut .stx) (latched 0x3000#32 3#32 State.reset)) = some (.badState, 0#32) ∧
    ends (exec (.txPut .stx) (latched 0x3000#32 0#32 (stxReady 4#8))) = some (.lengthError, 0#32) ∧
    ends (exec (.txPut .stx) (latched 0x3000#32 65#32 (stxReady 4#8))) = some (.lengthError, 0#32) ∧
    ends (exec (.txPut .atx) (latched 0x3000#32 3#32 (next (exec (.chInit .atx 4#8) State.reset)))) =
      some (.lengthError, 0#32) ∧
    ends (exec (.txPut .stx) (latched 0xFFFFFFFE#32 3#32 (stxReady 4#8))) = some (.lengthError, 0#32) := by decide

/-- V-TX 10: two puts take handles 0 and 1, the third finds the pool empty. -/
theorem test_tx_put :
    let s0 := latched 0x3000#32 3#32 { stxReady 2#8 with sys := [(0x3000, 0x61#8), (0x3001, 0x62#8), (0x3002, 0x63#8)] }
    let s1 := next (exec (.txPut .stx) s0)
    let s2 := next (exec (.txPut .stx) s1)
    (s1.code, s1.result) = (.ok, 0#32) ∧ (s2.code, s2.result) = (.ok, 1#32) ∧
    ends (exec (.txPut .stx) s2) = some (.poolExhausted, 0#32) ∧
    s1.sys.drop 3 = [(0x30000, 0x61#8), (0x30001, 0x62#8), (0x30002, 0x63#8)] := by decide

/-! ### Registers, views, dispatch, peripherals (V-PORT, V-CHUNK, V-GRAY, V-FULLEMPTY, V-DISP, V-PERIPH) -/

theorem test_registers :
    State.reset.regRead 0x000 = 0x54430001#32 ∧ State.reset.regRead 0x004 = 0#32 ∧ State.reset.regRead 0x01C = 0#32 ∧
    State.reset.regRead 0x018 = 0x00122010#32 ∧ State.reset.regRead 0x04C = 0x08120100#32 ∧
    State.reset.regRead 0x06C = 0x08020040#32 ∧ State.reset.regRead 0x074 = 0x00010000#32 := by decide

theorem test_issue_and_overrun :
    let s1 := State.reset.regWrite 0x004 0#32
    let s2 := s1.regWrite 0x004 0#32
    s1.busy = true ∧ s2.statusReg = 0x80000100#32 ∧ (next (cmdengTurn s2)).statusReg = 0x00000100#32 ∧
    ((next (cmdengTurn s2)).regWrite 0x010 0x00000100#32).statusReg = 0#32 := by decide

theorem test_byte_read_faults : hostReadReg .byte 0x40000010#32 State.reset = .fault .registerAccess := rfl

theorem test_views :
    let m : Memory := [(0x10000, 0x34#8), (0x10001, 0x12#8), (0x10002, 0xCD#8), (0x10003, 0xAB#8)]
    m.viewRead 2 0x10000 0 = 0x1234#16 ∧ m.viewRead 2 0x10000 1 = 0xABCD#16 ∧ m.viewRead 1 0x10000 2 = 0x00CD#16 ∧
    (m.viewWrite 2 0x10000 1 0xBEEF#16).drop 2 = [(0x10002, 0xEF#8), (0x10003, 0xBE#8)] := by decide

theorem test_gray :
    [0#3, 1#3, 2#3, 3#3, 4#3, 5#3, 6#3, 7#3].map gray = [0b000#3, 0b001#3, 0b011#3, 0b010#3, 0b110#3, 0b111#3, 0b101#3, 0b100#3] ∧
    gray 8#4 = 0b1100#4 ∧ gray 15#4 = 0b1000#4 ∧ bin 0b1000#4 = 15#4 := by decide

theorem test_ring_views :
    ptrSub 4 3 0 = 3 ∧ ptrSub 4 5 1 = 4 ∧ ptrSub 4 0 4 = 4 ∧ ptrSub 4 3 7 = 4 ∧ ptrSub 4 7 4 = 3 ∧ ptrSub 1 0 1 = 1 := by decide

/-- V-DISP, dispatch steps: pending {2, 5}, T[5] bound, T[2] unbound. -/
theorem test_dispatch :
    let s := ((State.reset.bind 5 2#4 0xBEEF#16).setPending 2 true).setPending 5 true
    (dispTurn s).cbOut = [] ∧ (dispTurn s).irqPendReg = 0x20#32 ∧
    (dispTurn (dispTurn s)).cbOut = [{ irq := 5#4, cb := 2#4, ctx := 0xBEEF#16 }] := by decide

/-- V-PERIPH: program(ARX, 1). -/
theorem test_program :
    (program defaultParams .arx 1#8 State.reset.chans.arx).per =
      { cfgAddr := 0x00010100#32, cfgCount := 128#16, cfgStride := 2#2, en := true, armed := true } := by decide

/-- P4: the completion of the only chunk starves ARX; CH_STAT_0 = 0x0001_0003. -/
theorem test_starvation :
    let s := next (exec (.chStart .arx) (next (exec (.chInit .arx 1#8) State.reset)))
    (dispTurn (s.setPending 0 true)).regRead 0x040 = 0x00010003#32 := by decide

/-- V-TX, step vectors: the kick after #5 gives RUNNING with 64 elements; a software trigger then is fault F4. -/
theorem test_kick :
    let s := fsmTurn .stx (syncQueueW2R .stx ((stxReady 4#8).setCh .stx { (stxReady 4#8).chans.stx with
      q := { slots := [0#8, 0#8, 0#8, 0#8], w := 1, rs := 0, r := 0, ws := 0 }
      used := (stxReady 4#8).chans.stx.used.set 0 64#16 }))
    s.chans.stx.st = .active ∧ s.chans.stx.per.cfgCount = 64#16 ∧ faults (exec (.dispSwtrig 3#4) s) = some .txCompletionWhileArmed := by
  decide

/-- The word placed by `withFetchWord` is the command the very next step executes (log 22). -/
theorem test_fetch_word :
    next (step (State.reset.withFetchWord 32 0x00000624)) =
      { next (exec (.chInit .srx 6#8) { State.reset with cmdL := 0x00000624#32, busy := true }) with
        busy := false, ticks := 1 } := by decide

/-! ### States that meet the hypotheses of the statements, in the small configuration -/

/-- A receive channel of three chunks: idle, armed, one filled chunk not yet seen, seen, two filled chunks (the queue full). -/
def rx0 : Chan := ready .srx 3#8
def rx1 : Chan := start .srx rx0
def rx2 : Chan := rxComplete cfg .srx rx1
def rx2s : Chan := { rx2 with q := rx2.q.syncW2R }
def rx3 : Chan := rxComplete cfg .srx rx2
/-- Of two chunks: the last one in flight, starved, starved with a chunk to take. -/
def rxE2 : Chan := rxComplete cfg .srx (start .srx (ready .srx 2#8))
def rxE3 : Chan := rxComplete cfg .srx rxE2
def rxE4 : Chan :=
  { release cfg .srx 0#8 { rxE3 with q := rxE3.q.syncW2R.pop 2 } with
    f := (release cfg .srx 0#8 { rxE3 with q := rxE3.q.syncW2R.pop 2 }).f.syncW2R }
/-- A chunk is held. -/
def rxHeld : Chan := { rx2s with q := rx2s.q.pop 2, held := rx2s.held.set 0 true }

/-- Puts a chunk of `u` bytes (44_channel_tx.md R203). -/
def put (u : Half) (x : Chan) : Chan :=
  match acquire cfg .stx x with
  | some (h, y) => { y.setUsed h u with q := y.q.push 2 h }
  | none => x

/-- A transmit channel of two chunks: idle, one chunk queued, seen, running, running with another queued and seen, full. -/
def tx0 : Chan := ready .stx 2#8
def tx1 : Chan := put 3#16 tx0
def tx1s : Chan := { tx1 with q := tx1.q.syncW2R }
def tx2 : Chan := txKick cfg .stx tx1s
def tx3s : Chan := { put 2#16 tx2 with q := (put 2#16 tx2).q.syncW2R }
def tx4 : Chan := put 2#16 tx1
/-- Of one chunk, queued: the pool is empty and the queue is not full. -/
def txE : Chan := put 3#16 (ready .stx 1#8)

/-- Nothing initialised. -/
def none0 : State := State.resetWith cfg

/-- The operands of an access to host memory. -/
def ops (n : Word) (s : State) : State := { s with arg0L := 0x1000#32, arg1L := n }

/-- The turn is next. -/
def at_ (t : Turn) (s : State) : State := { s with schedule := [t] }

/-- The command with this word is latched and CMDENG is next. -/
def issued (w : Word) (s : State) : State := { s with cmdL := w, busy := true, schedule := [.cmdeng] }

/-- The host's next action. -/
def acts (op : HostOp) (s : State) : State := { s with host := [op], schedule := [.host] }

theorem inv_none : none0.Inv := inv_of_check rfl (by decide)
theorem inv_rx0 : (withChan .srx rx0).Inv := inv_of_check rfl (by decide)
theorem inv_rx1 : (withChan .srx rx1).Inv := inv_of_check rfl (by decide)
theorem inv_rx2 : (withChan .srx rx2).Inv := inv_of_check rfl (by decide)
theorem inv_rx2s : (withChan .srx rx2s).Inv := inv_of_check rfl (by decide)
theorem inv_rx3 : (withChan .srx rx3).Inv := inv_of_check rfl (by decide)
theorem inv_rxE2 : (withChan .srx rxE2).Inv := inv_of_check rfl (by decide)
theorem inv_rxE3 : (withChan .srx rxE3).Inv := inv_of_check rfl (by decide)
theorem inv_rxE4 : (withChan .srx rxE4).Inv := inv_of_check rfl (by decide)
theorem inv_rxHeld : (withChan .srx rxHeld).Inv := inv_of_check rfl (by decide)
theorem inv_tx0 : (withChan .stx tx0).Inv := inv_of_check rfl (by decide)
theorem inv_tx1 : (withChan .stx tx1).Inv := inv_of_check rfl (by decide)
theorem inv_tx1s : (withChan .stx tx1s).Inv := inv_of_check rfl (by decide)
theorem inv_tx2 : (withChan .stx tx2).Inv := inv_of_check rfl (by decide)
theorem inv_tx3s : (withChan .stx tx3s).Inv := inv_of_check rfl (by decide)
theorem inv_tx4 : (withChan .stx tx4).Inv := inv_of_check rfl (by decide)
theorem inv_txE : (withChan .stx txE).Inv := inv_of_check rfl (by decide)

/-- The model's own inputs and the latches do not enter the invariant. -/
theorem inv_ops {s : State} (h : s.Inv) (n : Word) : (ops n s).Inv := inv_congr h rfl rfl rfl rfl rfl
theorem inv_at {s : State} (h : s.Inv) (t : Turn) : (at_ t s).Inv := inv_congr h rfl rfl rfl rfl rfl
theorem inv_issued {s : State} (h : s.Inv) (w : Word) : (issued w s).Inv := inv_congr h rfl rfl rfl rfl rfl
theorem inv_acts {s : State} (h : s.Inv) (op : HostOp) : (acts op s).Inv := inv_congr h rfl rfl rfl rfl rfl

/-! ### Witnesses: for each statement with hypotheses, a state and operands that meet them, clause by clause -/

theorem witness_EncodedCommandDecodesBack : Instr.wf (.rxRelease .srx 255#8) = true := by decide

theorem witness_DecodedWordEncodesBack : decode 0xFFFFFF02#32 = .ok (.dispReg 15#4 15#4 0xFFFF#16) := by decide

theorem witness_DecodingFollowsOpcodeMap :
    (⟨"TX_PUT", 0x00000019#32, 0xFFFFFFDF#32⟩ : OpRow) ∈ opcodeMap ∧
    OpRow.selects ⟨"TX_PUT", 0x00000019#32, 0xFFFFFFDF#32⟩ 0x00000039#32 = true := by decide

theorem witness_OperandsAreFields :
    decode 0xBEEF2502#32 = .ok (.dispReg 5#4 2#4 0xBEEF#16) ∧ decode 0x00000F03#32 = .ok (.dispSwtrig 15#4) ∧
    decode 0x0000FF34#32 = .ok (.chInit .stx 255#8) ∧ decode 0x00000328#32 = .ok (.rxRelease .srx 3#8) ∧
    decode 0x00000035#32 = .ok (.chStart .stx) ∧ decode 0x00000026#32 = .ok (.rxGet .srx) ∧
    decode 0x00000007#32 = .ok (.rxGetNc .arx) ∧ decode 0x00000019#32 = .ok (.txPut .atx) := by decide

theorem witness_StepRunsDecodedCommand :
    ((issued 0#32 none0).Executes .nop ∧ ∃ t, exec .nop (issued 0#32 none0).advance = .next t) ∧
    (issued 0x303#32 (withChan .stx tx2)).Executes (.dispSwtrig 3#4) ∧
      exec (.dispSwtrig 3#4) (issued 0x303#32 (withChan .stx tx2)).advance = .fault .txCompletionWhileArmed :=
  ⟨⟨⟨rfl, rfl, rfl⟩, _, rfl⟩, ⟨rfl, rfl, rfl⟩, rfl⟩

theorem witness_UndecodableWordIsIllegalCommand :
    (issued 0x0000000A#32 none0).turn = .cmdeng ∧ (issued 0x0000000A#32 none0).busy = true ∧
    ∀ r ∈ opcodeMap, r.selects (issued 0x0000000A#32 none0).cmdL = false := by decide

theorem witness_FailingCommandChangesNothingElse :
    ∃ t, exec (.chStart .srx) none0 = .next t ∧ t.code ≠ .ok := ⟨_, rfl, by decide⟩

theorem witness_CommandsRaiseOnlyTheirFaults : none0.Inv := inv_none

theorem witness_LatchedCommandStaysLatched :
    (∃ t, step { none0 with busy := true, schedule := [.disp] } = .next t) ∧
    State.turn { none0 with busy := true, schedule := [.disp] } ≠ .cmdeng ∧
    State.turn { none0 with busy := true, schedule := [.disp] } ≠ .rstN := ⟨⟨_, rfl⟩, by decide, by decide⟩

/-- The fair turns in a cycle (70_reset_and_hazards.md R296). -/
def cycle : List Turn :=
  [.cmdeng, .disp] ++ Ch.all.map .syncQueueW2R ++ Ch.all.map .syncQueueR2W ++ Ch.all.map .syncFreeW2R ++ Ch.all.map .fsm

/-- Turn `n` of a fair run. -/
def fairTurns (n : Nat) : Turn := cycle.getD (n % 18) .cmdeng

/-- Its states: a NOP is latched; then nothing happens. -/
def fairStates (n : Nat) : State :=
  match n with
  | 0 => { none0 with busy := true }
  | k + 1 => { none0 with ticks := k + 1 }

theorem cycle_idles : ∀ t ∈ cycle, ∀ k, takeTurn t { none0 with ticks := k } = .next { none0 with ticks := k } := by
  simp only [cycle, Ch.all, List.map_cons, List.map_nil, List.cons_append, List.nil_append, List.forall_mem_cons]
  refine ⟨?_, ?_, ?_, ?_, ?_, ?_, ?_, ?_, ?_, ?_, ?_, ?_, ?_, ?_, ?_, ?_, ?_, ?_, ?_⟩
  all_goals first | (intro k; rfl) | simp

theorem fair_mem (n : Nat) : fairTurns n ∈ cycle := by
  have h : n % 18 < cycle.length := Nat.mod_lt _ (by decide)
  rw [fairTurns, List.getD_eq_getElem?_getD, List.getElem?_eq_getElem h]
  exact List.getElem_mem h

theorem mem_cycle_of_fair : ∀ t : Turn, t.fair = true → t ∈ cycle := by
  intro t ht
  cases t <;> simp_all [Turn.fair, cycle, Ch.mem_all]

theorem cycle_covers : ∀ t ∈ cycle, ∃ i, i < 18 ∧ cycle.getD i .cmdeng = t := by decide

theorem witness_EveryIssuedCommandExecutes :
    IsRun fairTurns fairStates ∧ WeaklyFair fairTurns fairStates ∧ (∀ m, fairTurns m ≠ .rstN) ∧
    (fairStates 0).busy = true := by
  refine ⟨fun n => ?_, fun t ht n _ => ?_, fun m hm => ?_, rfl⟩
  · cases n with
    | zero => rfl
    | succ k => exact cycle_idles _ (fair_mem _) _
  · obtain ⟨i, hi, rfl⟩ := cycle_covers t (mem_cycle_of_fair t ht)
    refine ⟨18 * n + i, by omega, ?_⟩
    rw [fairTurns, Nat.mul_add_mod, Nat.mod_eq_of_lt hi]
  · have := fair_mem m
    rw [hm] at this
    exact absurd this (by decide)

theorem witness_NopOnlyClearsCodeAndResult : (0x00000010#32 : Word).extractLsb' 0 4 = 0#4 ∧ (0x00000010#32 : Word) ≠ 0#32 := by
  decide

theorem witness_ResetValues : (at_ .rstN none0).turn = .rstN := rfl

/-- One witness per offset of the write map. -/
theorem witness_HostRegisterWrite :
    none0.cfg.Legal ∧ (acts (.writeReg .word (none0.cfg.regAddr 0x004) 5#32) none0).turn = .host ∧
    (acts (.writeReg .word (none0.cfg.regAddr 0x004) 5#32) none0).busy = false ∧
    (acts (.writeReg .word (none0.cfg.regAddr 0x004) 5#32) { none0 with busy := true }).busy = true ∧
    (acts (.writeReg .word (none0.cfg.regAddr 0x008) 5#32) none0).host = [.writeReg .word (cfg.regAddr 0x008) 5#32] ∧
    (acts (.writeReg .word (none0.cfg.regAddr 0x00C) 5#32) none0).host = [.writeReg .word (cfg.regAddr 0x00C) 5#32] ∧
    (acts (.writeReg .word (none0.cfg.regAddr 0x010) 0x100#32) none0).host = [.writeReg .word (cfg.regAddr 0x010) 0x100#32] ∧
    (0x100#32 : Word).getLsbD 8 = true ∧ (0xFF#32 : Word).getLsbD 8 = false ∧
    (acts (.writeReg .word (none0.cfg.regAddr 0x0FC) 5#32) none0).host = [.writeReg .word (cfg.regAddr 0x0FC) 5#32] := by
  decide

theorem witness_HostRegisterRead :
    none0.cfg.Legal ∧ (acts (.readReg .word (none0.cfg.regAddr 0x03C)) none0).turn = .host ∧
    (acts (.readReg .word (none0.cfg.regAddr 0x03C)) none0).host = [.readReg .word (none0.cfg.regAddr 0x03C)] := by decide

theorem witness_CommandPortRegisters : none0.cfg.Legal := cfg_legal

theorem witness_ChannelRegisters : (withChan .srx rx2s).Inv ∧ (withChan .stx tx1).Inv ∧ Ch.isRx .srx = true ∧ Ch.isTx .stx = true :=
  ⟨inv_rx2s, inv_tx1, rfl, rfl⟩

theorem witness_DispatcherRegisters : none0.cfg.Legal ∧ 3 < none0.cfg.m ∧ none0.cfg.m ≤ 4 := by decide

theorem witness_MisalignedRegisterAccessFaults :
    (acts (.readReg .byte 0x400000FF#32) none0).turn = .host ∧
    none0.cfg.regBase.toNat < (0x400000FF#32 : Word).toNat + Width.bytes .byte ∧
    (0x400000FF#32 : Word).toNat < none0.cfg.regBase.toNat + 0x100 ∧
    (0x3FFFFFFC#32 : Word).toNat + Width.bytes .word ≤ none0.cfg.regBase.toNat ∧
    none0.cfg.regBase.toNat + 0x100 ≤ (0x40000100#32 : Word).toNat := by decide

theorem witness_HostOwnershipOfBytes : (withChan .srx rxHeld).cfg.Legal := cfg_legal

/-- An RX_GET of the four bytes of SRX chunk 0 to 0x1000, issued and not yet executed. -/
def pend : State := { ops 4#32 (withChan .srx rx2s) with cmdL := 0x00000026#32, busy := true }

/-- The same with a destination too small: it will fail, so no copy is pending. -/
def pendShort : State := { pend with arg1L := 3#32 }

/-- A byte of the copy's range may be read old or new; the byte above it is SYS's; a command sure to fail races with nothing
(20_memory.md R67). -/
theorem test_race_read :
    (next (hostReadSys 0x1003#32 2 pend)).sysRdata = [Config.racedByte 0 0x1003, Config.powerUpByte 0x1004] ∧
    (next (hostReadSys 0x1003#32 2 pendShort)).sysRdata = [Config.powerUpByte 0x1003, Config.powerUpByte 0x1004] := ⟨rfl, rfl⟩

/-- A byte the host wrote in the pending copy's range is free after the copy; one it did not write is the chunk's. -/
theorem test_race_write :
    (next (exec (.rxGet .srx) (next (hostWriteSys 0x0FFF#32 [7#8, 8#8] pend)))).sys.read 0x1000 = Config.racedByte 0 0x1000 ∧
    (next (exec (.rxGet .srx) (next (hostWriteSys 0x0FFF#32 [7#8, 8#8] pend)))).sys.read 0x1001 = Config.powerUpByte 0x301 ∧
    (next (exec (.rxGet .srx) (next (hostWriteSys 0x0FFF#32 [7#8, 8#8] pend)))).sys.read 0x0FFF = 7#8 := ⟨rfl, rfl, rfl⟩

/-- Block-owned bytes; host-owned bytes up to the top of SYS; bytes that a pending copy writes and bytes that it does not. -/
theorem witness_HostSysAccess :
    (acts (.readSys 0x300#32 1) (withChan .srx rx0)).Inv ∧ (withChan .srx rx0).hostOwns 0x300 1 = false ∧
    (acts (.writeSys 0xFFFF#32 [7#8]) (withChan .srx rx0)).Inv ∧ (withChan .srx rx0).hostOwns 0xFFFF 1 = true ∧
    (withChan .srx rx0).busy = false ∧ 0xFFFF + 1 ≤ (withChan .srx rx0).cfg.sysSize ∧
    pend.Inv ∧ pend.hostOwns 0xFFF 6 = true ∧ pend.copyWrites 0x1000 = true ∧ pend.copyWrites 0x1003 = true ∧
    pend.copyWrites 0xFFF = false ∧ pend.copyWrites 0x1004 = false ∧ pend.busy = true :=
  ⟨inv_acts inv_rx0 _, by decide, inv_acts inv_rx0 _, by decide, by decide, by decide,
    inv_congr inv_rx2s rfl rfl rfl rfl rfl, by decide, by decide, by decide, by decide, by decide, by decide⟩

theorem witness_ViewElementReadsBack : Memory.wf [(0, 1#8), (5, 2#8)] := by decide

theorem witness_CopyIsForwardByteByByte : Memory.wf [(0, 1#8)] ∧ 4 + 3 ≤ 7 ∧ 7 + 3 ≤ 10 := by decide

theorem witness_DispRegBindsOrRefuses :
    (withChan .srx rx0).Inv ∧ (withChan .srx rx0).cfg.m ≤ (4#4 : BitVec 4).toNat ∧
    (3#4 : BitVec 4).toNat < (withChan .srx rx0).cfg.m ∧ ((withChan .srx rx0).entry 3).bound = false ∧
    ((withChan .srx rx0).entry 2).bound = true ∧ (2#4 : BitVec 4) ≠ 0#4 ∧ (2#4 : BitVec 4) ≠ 1#4 :=
  ⟨inv_rx0, by decide, by decide, by decide, by decide, by decide, by decide⟩

/-- The id of an armed transmit channel, of a disarmed one, of none, and one past M. -/
theorem witness_DispSwtrigSetsPending :
    (withChan .stx tx2).Inv ∧ (withChan .stx tx2).cfg.m ≤ (4#4 : BitVec 4).toNat ∧
    (Ch.isTx .stx = true ∧ (cfg.chan .stx).irq = (3#4 : BitVec 4).toNat ∧ ((withChan .stx tx2).ch .stx).per.armed = true) ∧
    ∀ c : Ch, c.isTx = true → (cfg.chan c).irq = (1#4 : BitVec 4).toNat → ((withChan .stx tx2).ch c).per.armed = false :=
  ⟨inv_tx2, by decide, by decide, fun c => by cases c <;> decide⟩

/-- A receive, a transmit and an external entry, and an unbound one. -/
theorem witness_DispatchServesLeastPending :
    (∀ s ∈ [(withChan .srx rx1).setPending 2 true], (at_ .disp s).turn = .disp ∧ 2 < s.cfg.m ∧ s.isPending 2 = true ∧
      s.isPending 0 = false ∧ s.isPending 1 = false ∧ s.entry 2 = channelEntry .srx ∧ s.sys.wf ∧
      (s.ch .srx).st = .active ∧ (s.ch .srx).per.armed = true ∧ (s.ch .srx).per.transferBytes = 4) ∧
    (∀ s ∈ [(withChan .stx tx2).setPending 3 true], (at_ .disp s).turn = .disp ∧ s.isPending 3 = true ∧
      s.leastPending = some 3 ∧ s.entry 3 = channelEntry .stx) ∧
    (∀ s ∈ [(none0.bind 1 2#4 9#16).setPending 1 true], s.leastPending = some 1 ∧ (s.entry 1).bound = true ∧
      (s.entry 1).cb ≠ 0#4 ∧ (s.entry 1).cb ≠ 1#4) ∧
    ∀ s ∈ [none0.setPending 0 true], s.leastPending = some 0 ∧ (s.entry 0).bound = false := by decide

/-- A simulated completion of an armed receive transfer leaves draws in its chunk and nothing past it
(70_reset_and_hazards.md R292). -/
theorem test_simulated_receive :
    (dispTurn ((withChan .srx rx1).setPending 2 true)).sys.read 0x300 = Config.rxByte 0 ∧
    (dispTurn ((withChan .srx rx1).setPending 2 true)).sys.read 0x303 = Config.rxByte 3 ∧
    (dispTurn ((withChan .srx rx1).setPending 2 true)).sys.read 0x304 = Config.powerUpByte 0x304 ∧
    (dispTurn ((withChan .srx rx1).setPending 2 true)).drawn = 4 := ⟨rfl, rfl, rfl, rfl⟩

/-- The run of no steps is observed at the state after reset; a receive channel in flight does not stand in the way; a pending
completion does (70_reset_and_hazards.md R298). -/
theorem test_observed :
    ObservedAt (fun _ => .host) (fun _ => none0) 0 (observe (fun _ => .host) (fun _ => none0) 0) ∧
    ¬(none0.setPending 2 true).Quiescent ∧
    ((withChan .srx { rx1 with f := rx1.f.syncW2R }).busy = false ∧
      (withChan .srx { rx1 with f := rx1.f.syncW2R }).Quiescent ∧ rx1.per.armed = true) := by
  refine ⟨⟨fun _ h => absurd h (Nat.not_lt_zero _), ⟨rfl, by decide, ?_, ?_⟩, rfl⟩, fun h => absurd h.2.1 (by decide), rfl,
    ⟨rfl, by decide, ?_, ?_⟩, by decide⟩
  all_goals (intro c; cases c <;> decide)

/-- The overwrite path of an armed peripheral raises `arm_c` (46_peripheral.md R244); SYNC does not. -/
theorem test_arm_strobe :
    (rx3.q.fullW 2 = true ∧ rx3.per.armed = true) ∧
    armPort .srx ((withChan .srx rx3).setPending 2 true) (dispTurn ((withChan .srx rx3).setPending 2 true)) = true ∧
    armPort .srx (withChan .srx rx3) (syncQueueW2R .srx (withChan .srx rx3)) = false := by decide

theorem witness_BoundEntriesPersist :
    (∃ t, step (at_ .disp (withChan .srx rx0)) = .next t) ∧ ((withChan .srx rx0).entry 2).bound = true ∧
    ¬(at_ .disp (withChan .srx rx0)).Executes .blkReset ∧
    (∃ t, step (issued 0x00002302#32 none0) = .next t ∧ (none0.entry 3).bound = false ∧ (t.entry 3).bound = true) ∧
    ∃ t, step (issued 0x00000324#32 none0) = .next t ∧ (none0.entry 2).bound = false ∧ (t.entry 2).bound = true :=
  ⟨⟨_, rfl⟩, by decide, fun h => absurd h.1 (by decide), ⟨_, rfl, by decide, by decide⟩, _, rfl, by decide, by decide⟩

theorem witness_ExternalPulseSetsPending :
    (at_ (.extIrq 3) (withChan .stx tx2)).Inv ∧ (at_ (.extIrq 3) (withChan .stx tx2)).turn = .extIrq 3 ∧
    ((withChan .stx tx2).ch .stx).per.armed = true ∧ (cfg.chan .stx).irq = 3 ∧ 3 < cfg.m ∧
    (at_ (.extIrq 3) (withChan .stx tx1)).Inv ∧ ((withChan .stx tx1).ch .stx).per.armed = false :=
  ⟨inv_at inv_tx2 _, rfl, by decide, by decide, by decide, inv_at inv_tx1 _, by decide⟩

theorem witness_GrayStepChangesOneBit : 0 < 1 ∧ 0 < 9 := by decide

theorem witness_FullTestsAgree : 7 < 2 * 2 ^ 2 ∧ 3 < 2 * 2 ^ 2 ∧ 1 ≤ 2 ∧ 1 < 2 * 2 ^ 0 := by decide

theorem witness_SyncStepsCopyPointers :
    (at_ (.syncQueueW2R .srx) none0).turn = .syncQueueW2R .srx ∧ (at_ (.syncQueueR2W .srx) none0).turn = .syncQueueR2W .srx ∧
    (at_ (.syncFreeW2R .srx) none0).turn = .syncFreeW2R .srx := by decide

theorem witness_ViewsBoundOccupancy : (withChan .srx rx3).Inv ∧ ((withChan .srx rx3).ch .srx).st ≠ .uninit :=
  ⟨inv_rx3, by decide⟩

theorem witness_EachHandleInOnePlace :
    (withChan .srx rxHeld).Inv ∧ ((withChan .srx rxHeld).ch .srx).st ≠ .uninit ∧
    (2#8 : Handle).toNat < ((withChan .srx rxHeld).ch .srx).n.toNat := ⟨inv_rxHeld, by decide, by decide⟩

/-- Full, not full, empty in the consumer's view, not empty. -/
theorem witness_QueueIsFifo :
    (rx3.q.Ok 2 ∧ rx3.q.occW 2 = 2) ∧ (rx0.q.Ok 2 ∧ rx0.q.occW 2 ≠ 2 ∧ rx0.q.r = rx0.q.ws) ∧
    rx2s.q.Ok 2 ∧ rx2s.q.r ≠ rx2s.q.ws := by decide

theorem witness_PoolIsFifo :
    cfg.Legal ∧ rx3.Live cfg .srx ∧ rx3.f.r = rx3.f.ws ∧ rx0.Live cfg .srx ∧ rx0.f.r ≠ rx0.f.ws ∧
    (0#8 : Handle).toNat < rx3.n.toNat ∧ (0#8 : Handle) ∉ rx3.f.contents (cfg.chan .srx).p :=
  ⟨cfg_legal, live_of_check (by decide), by decide, live_of_check (by decide), by decide, by decide, by decide⟩

/-- Not UNINIT, count 0, count past NMAX, the id bound, and ready at count 1 and at NMAX. -/
theorem witness_ChInitFillsThePool :
    (withChan .srx rx0).Inv ∧ ((withChan .srx rx0).ch .srx).st ≠ .uninit ∧ none0.Inv ∧ (none0.ch .srx).st = .uninit ∧
    (cfg.chan .srx).nmax < (4#8 : Byte).toNat ∧ (none0.bind 2 2#4 0#16).Inv ∧
    ((none0.bind 2 2#4 0#16).entry (cfg.chan .srx).irq).bound = true ∧ ((none0.bind 2 2#4 0#16).ch .srx).st = .uninit ∧
    ChInitReady .srx 1#8 none0 ∧ ChInitReady .srx 3#8 none0 :=
  ⟨inv_rx0, by decide, inv_none, by decide, by decide, inv_of_check rfl (by decide), by decide, by decide, by decide,
    by decide⟩

/-- Not IDLE; IDLE with an empty view (every chunk held); IDLE with a free chunk. -/
theorem witness_ChStartArmsReceive :
    (withChan .srx rx1).Inv ∧ ((withChan .srx rx1).ch .srx).st ≠ .idle ∧
    (∀ x ∈ [({ ready .srx 1#8 with held := [true, false, false], used := [4#16, 0#16, 0#16], f := { (ready .srx 1#8).f with r := 1 } } : Chan)],
      liveCheck cfg .srx x = true ∧ x.st = .idle ∧ x.f.r = x.f.ws) ∧
    (withChan .srx rx0).Inv ∧ ((withChan .srx rx0).ch .srx).st = .idle ∧
    ((withChan .srx rx0).ch .srx).f.r ≠ ((withChan .srx rx0).ch .srx).f.ws :=
  ⟨inv_rx1, by decide, by decide, inv_rx0, by decide, by decide⟩

theorem witness_ChStartOnTransmitDoesNothing :
    Ch.isTx .stx = true ∧ (none0.ch .stx).st = .uninit ∧ ((withChan .stx tx0).ch .stx).st ≠ .uninit := by decide

/-- Nothing in flight; the queue full; room and a free chunk; room and no free chunk. -/
theorem witness_RxCompletePaths :
    rx0.Live cfg .srx ∧ rx0.st ≠ .active ∧
    rx3.Live cfg .srx ∧ rx3.inflight = some 2#8 ∧ rx3.q.occW (cfg.chan .srx).k = (cfg.chan .srx).k ∧
    rx1.Live cfg .srx ∧ rx1.inflight = some 0#8 ∧ rx1.q.occW (cfg.chan .srx).k ≠ (cfg.chan .srx).k ∧ rx1.f.r ≠ rx1.f.ws ∧
    rxE2.Live cfg .srx ∧ rxE2.inflight = some 1#8 ∧ rxE2.q.occW (cfg.chan .srx).k ≠ (cfg.chan .srx).k ∧
    rxE2.f.r = rxE2.f.ws :=
  ⟨live_of_check (by decide), by decide, live_of_check (by decide), by decide, by decide, live_of_check (by decide),
    by decide, by decide, by decide, live_of_check (by decide), by decide, by decide, by decide⟩

theorem witness_RxRetryRearms :
    (at_ (.fsm .srx) (withChan .srx rxE4)).Inv ∧ (at_ (.fsm .srx) (withChan .srx rxE4)).turn = .fsm .srx ∧
    rxE4.st = .starved ∧ rxE4.f.r ≠ rxE4.f.ws := ⟨inv_at inv_rxE4 _, rfl, by decide, by decide⟩

/-- UNINIT; empty view; each way to LengthError; ready, with the largest address that fits. -/
theorem witness_RxGetCopiesAndReleases :
    none0.Inv ∧ (none0.ch .srx).st = .uninit ∧ (withChan .srx rx2).Inv ∧ rx2.q.r = rx2.q.ws ∧ rx2.st ≠ .uninit ∧
    (ops 3#32 (withChan .srx rx2s)).Inv ∧ (ops 3#32 (withChan .srx rx2s)).lenOp.toNat < (rx2s.usedOf 0#8).toNat ∧
    cfg.sysSize ≤ State.addrOp { withChan .srx rx2s with arg0L := 0x10000#32 } ∧
    cfg.sysSize < State.addrOp { withChan .srx rx2s with arg0L := 0xFFFD#32 } + (rx2s.usedOf 0#8).toNat ∧
    RxGetReady .srx { withChan .srx rx2s with arg0L := 0xFFFC#32, arg1L := 4#32 } ∧
    rx2s.q.front (cfg.chan .srx).k = 0#8 :=
  ⟨inv_none, by decide, inv_rx2, by decide, by decide, inv_ops inv_rx2s _, by decide, by decide, by decide, by decide,
    by decide⟩

theorem witness_RxGetNcHandsOver :
    none0.Inv ∧ (none0.ch .srx).st = .uninit ∧ (withChan .srx rx2).Inv ∧ rx2.q.r = rx2.q.ws ∧
    (withChan .srx rx2s).Inv ∧ RxGetNcReady .srx (withChan .srx rx2s) :=
  ⟨inv_none, by decide, inv_rx2, by decide, inv_rx2s, by decide⟩

/-- A destination that meets a block chunk; a source that does. -/
theorem witness_CopyOnBlockMemoryFaults :
    (∀ s ∈ [({ withChan .srx rx2s with arg0L := 0x2FD#32, arg1L := 4#32 } : State)],
      (s.ch .srx).st ≠ .uninit ∧ (s.ch .srx).q.r ≠ (s.ch .srx).q.ws ∧ ((s.ch .srx).usedOf 0#8).toNat = 4 ∧
      s.addrOp < s.cfg.sysSize ∧ 4 ≤ s.lenOp.toNat ∧ s.addrOp + 4 ≤ s.cfg.sysSize ∧ s.hostOwns s.addrOp 4 = false) ∧
    ∀ s ∈ [({ withChan .stx tx0 with arg0L := 0x407#32, arg1L := 1#32 } : State)],
      (s.ch .stx).st ≠ .uninit ∧ 1 ≤ s.lenOp.toNat ∧ s.lenOp.toNat ≤ (s.cfg.chan .stx).cap ∧
      s.lenOp.toNat % Ch.ew .stx = 0 ∧ s.addrOp + s.lenOp.toNat ≤ s.cfg.sysSize ∧
      (s.ch .stx).q.occW (s.cfg.chan .stx).k ≠ (s.cfg.chan .stx).k ∧ (s.ch .stx).f.r ≠ (s.ch .stx).f.ws ∧
      s.hostOwns s.addrOp s.lenOp.toNat = false := by decide

/-- UNINIT; a handle past n_c; a handle not held; ready. -/
theorem witness_RxReleaseReturnsChunk :
    none0.Inv ∧ (none0.ch .srx).st = .uninit ∧ (withChan .srx rxHeld).Inv ∧ rxHeld.st ≠ .uninit ∧
    rxHeld.n.toNat ≤ (3#8 : Handle).toNat ∧ rxHeld.holds 2#8 = false ∧
    RxReleaseReady .srx 0#8 (withChan .srx rxHeld) :=
  ⟨inv_none, by decide, inv_rxHeld, by decide, by decide, by decide, by decide⟩

/-- A pool of K_c + 1 chunks, and one of K_c. -/
theorem witness_ReceiveUnderLoad :
    none0.Inv ∧ ChInitReady .srx 3#8 none0 ∧ (cfg.chan .srx).k + 1 ≤ (3#8 : Byte).toNat ∧ ChInitReady .srx 2#8 none0 ∧
    (2#8 : Byte).toNat ≤ (cfg.chan .srx).k := ⟨inv_none, by decide, by decide, by decide, by decide⟩

/-- UNINIT; length 0, past CAP_c and odd on a 16-bit channel; an address at and past the top; queue full; pool empty; ready. -/
theorem witness_TxPutEnqueuesCopy :
    none0.Inv ∧ (none0.ch .stx).st = .uninit ∧ (withChan .stx tx0).Inv ∧ tx0.st ≠ .uninit ∧
    (ops 0#32 (withChan .stx tx0)).lenOp.toNat = 0 ∧ (cfg.chan .stx).cap < (ops 5#32 (withChan .stx tx0)).lenOp.toNat ∧
    ((withChan .atx (ready .atx 2#8)).Inv ∧ (ops 3#32 (withChan .atx (ready .atx 2#8))).lenOp.toNat % Ch.ew .atx ≠ 0) ∧
    cfg.sysSize ≤ State.addrOp { withChan .stx tx0 with arg0L := 0x10000#32 } ∧
    (withChan .stx tx4).Inv ∧ tx4.q.occW (cfg.chan .stx).k = (cfg.chan .stx).k ∧
    (withChan .stx txE).Inv ∧ txE.q.occW (cfg.chan .stx).k ≠ (cfg.chan .stx).k ∧ txE.f.r = txE.f.ws ∧
    TxPutReady .stx (ops 4#32 (withChan .stx tx0)) :=
  ⟨inv_none, by decide, inv_tx0, by decide, by decide, by decide, ⟨inv_of_check rfl (by decide), by decide⟩, by decide,
    inv_tx4, by decide, inv_txE, by decide, by decide, by decide⟩

theorem witness_TxKickStartsTransfer :
    (at_ (.fsm .stx) (withChan .stx tx1s)).Inv ∧ (at_ (.fsm .stx) (withChan .stx tx1s)).turn = .fsm .stx ∧
    tx1s.st = .idle ∧ tx1s.q.r ≠ tx1s.q.ws := ⟨inv_at inv_tx1s _, rfl, by decide, by decide⟩

/-- Idle; running with another chunk seen; running with none. -/
theorem witness_TxCompletePaths :
    tx0.Live cfg .stx ∧ tx0.st ≠ .active ∧ tx3s.Live cfg .stx ∧ tx3s.inflight = some 0#8 ∧ tx3s.q.r ≠ tx3s.q.ws ∧
    tx2.Live cfg .stx ∧ tx2.inflight = some 0#8 ∧ tx2.q.r = tx2.q.ws :=
  ⟨live_of_check (by decide), by decide, live_of_check (by decide), by decide, by decide, live_of_check (by decide),
    by decide, by decide⟩

theorem witness_TransmitCycle :
    (ops 3#32 (withChan .stx tx0)).Inv ∧ TxPutReady .stx (ops 3#32 (withChan .stx tx0)) ∧
    ((ops 3#32 (withChan .stx tx0)).ch .stx).st = .idle ∧
    ((ops 3#32 (withChan .stx tx0)).ch .stx).q.w = ((ops 3#32 (withChan .stx tx0)).ch .stx).q.r :=
  ⟨inv_ops inv_tx0 _, by decide, by decide, by decide⟩

/-- The step that puts a chunk, and one that moves the queue on. -/
theorem witness_TransmitOrder :
    (∀ s ∈ [issued 0x00000039#32 (ops 3#32 (withChan .stx tx2))], s.cfg = cfg ∧ invCheck s = true ∧
      s.isPending (s.cfg.chan .stx).irq = false ∧ (next (step s)).code = .ok) ∧
    (issued 0x00000039#32 (ops 3#32 (withChan .stx tx2))).Executes (.txPut .stx) ∧
    (∃ t, step (issued 0x00000039#32 (ops 3#32 (withChan .stx tx2))) = .next t) ∧
    (at_ (.fsm .stx) (withChan .stx tx1s)).Unsimulated .stx ∧ ¬(at_ (.fsm .stx) (withChan .stx tx1s)).Disturbs 3 ∧
    ∃ t, step (at_ (.fsm .stx) (withChan .stx tx1s)) = .next t := by
  refine ⟨by decide, ⟨rfl, rfl, rfl⟩, ⟨_, rfl⟩, by decide, ?_, ⟨_, rfl⟩⟩
  rintro (⟨_, h, -⟩ | h | h | h)
  · exact absurd h.1 (by decide)
  · exact absurd h (by decide)
  · exact absurd h.1 (by decide)
  · exact absurd h (by decide)

theorem witness_ReceiveCompletion :
    (at_ (.periph .srx) (withChan .srx rx1)).Inv ∧ (at_ (.periph .srx) (withChan .srx rx1)).turn = .periph .srx ∧
    rx1.per.en = true ∧ rx1.per.armed = true := ⟨inv_at inv_rx1 _, rfl, by decide, by decide⟩

theorem witness_TransmitCompletion :
    (at_ (.periph .stx) (withChan .stx tx2)).Inv ∧ (at_ (.periph .stx) (withChan .stx tx2)).turn = .periph .stx ∧
    tx2.per.armed = true ∧ tx2.inflight = some 0#8 := ⟨inv_at inv_tx2 _, rfl, by decide, by decide⟩

theorem witness_DisarmedPeripheralIsRefused :
    (at_ (.periph .stx) (withChan .stx tx1)).turn = .periph .stx ∧ tx1.per.en = false ∧
    Chan.per { tx2 with per := { tx2.per with armed := false } } = { tx2.per with armed := false } := by decide

theorem witness_ResetSatisfiesInvariant : cfg.Legal ∧ defaultParams.Legal := by decide

theorem witness_StepKeepsInvariant :
    (at_ (.fsm .stx) (withChan .stx tx1s)).Inv ∧ ∃ t, step (at_ (.fsm .stx) (withChan .stx tx1s)) = .next t :=
  ⟨inv_at inv_tx1s _, _, rfl⟩

theorem witness_StepKeepsMemoryCanonical :
    Memory.wf (acts (.writeSys 0x10#32 [1#8, 2#8]) none0).sys ∧
    ∃ t, step (acts (.writeSys 0x10#32 [1#8, 2#8]) none0) = .next t := ⟨by decide, _, rfl⟩

theorem witness_ChannelStateTransitions :
    (at_ (.fsm .stx) (withChan .stx tx1s)).Inv ∧
    ∃ t, step (at_ (.fsm .stx) (withChan .stx tx1s)) = .next t ∧
      (t.ch .stx).st ≠ ((at_ (.fsm .stx) (withChan .stx tx1s)).ch .stx).st := ⟨inv_at inv_tx1s _, _, rfl, by decide⟩

/-- A bit is set by a completion; another is cleared by a dispatch. -/
theorem witness_PendingBitEvents :
    ((at_ (.periph .stx) (withChan .stx tx2)).Inv ∧ ∃ t, step (at_ (.periph .stx) (withChan .stx tx2)) = .next t ∧
      (at_ (.periph .stx) (withChan .stx tx2)).isPending 3 = false ∧ t.isPending 3 = true) ∧
    ∃ t, step (at_ .disp (none0.setPending 3 true)) = .next t ∧
      (at_ .disp (none0.setPending 3 true)).isPending 3 = true ∧ t.isPending 3 = false :=
  ⟨⟨inv_at inv_tx2 _, _, rfl, by decide, by decide⟩, _, rfl, by decide, by decide⟩

end Sys2Proof.Tests
end

section
/-! Where the handles of an initialised channel are (10_state.md R51). -/

namespace Sys2Proof.Machine

/-- A handle of the channel stands once in its places, all of them read as one list. -/
theorem places_count {p : Params} {c : Ch} {x : Chan} (hp : p.Legal) (hx : x.Live p c) {h : Handle}
    (hh : h.toNat < x.n.toNat) : (x.places p c).count h = 1 := by
  have hmem : h ∈ x.places p c := hx.ownership.mem_iff.2 (List.mem_map.2 ⟨h.toNat, List.mem_range.2 hh, by simp⟩)
  have hnodup : (x.places p c).Nodup := placed_nodup hp (placed_of_live hx)
  exact List.count_eq_one_of_mem hnodup hmem

theorem inflight_count (x : Chan) (h : Handle) : x.inflight.toList.count h = if x.inflight = some h then 1 else 0 := by
  cases x.inflight with
  | none => rfl
  | some g => simp [List.count_singleton]

/-- Settles O35: the places are a permutation of the handles below n_c, so each handle counts once over them. -/
theorem eachHandleInOnePlace : Obligations.EachHandleInOnePlace := by
  intro s c hs hinit
  have hx : (s.ch c).Live s.cfg c := (hs.chan c).live hinit
  refine ⟨fun h hh => ?_, ?_⟩
  · have hone := places_count hs.legal hx hh
    simp only [Chan.places, List.count_append, inflight_count, heldHandles_count (held_length_le hs.legal hx)] at hone
    omega
  · rw [← heldHandles_length]
    exact places_occupancy hx

end Sys2Proof.Machine
end

section
/-! What the registers of 10_state.md R38 to R47 hold, field by field. -/

namespace Sys2Proof.Machine

@[simp] theorem getElem_bit (b : Bool) : (bit b)[0] = b := by cases b <;> rfl

/-! ### The command port (R41, R43) -/

theorem statusReg_fields (s : State) :
    s.statusReg.extractLsb' 0 4 = s.code.bits ∧ s.statusReg.extractLsb' 4 4 = 0#4 ∧ s.statusReg.getLsbD 8 = s.ovr ∧
    s.statusReg.extractLsb' 9 22 = 0#22 ∧ s.statusReg.getLsbD 31 = s.busy := by
  simp (disch := decide) only [State.statusReg, BitVec.extractLsb'_append_eq_of_le, BitVec.extractLsb'_append_eq_of_add_le,
    BitVec.getLsbD_append]
  simp

theorem paramReg_fields {p : Params} (hp : p.Legal) :
    ((paramReg p).extractLsb' 0 5).toNat = p.m ∧ (paramReg p).extractLsb' 5 3 = 0#3 ∧
    ((paramReg p).extractLsb' 8 6).toNat = p.addrW ∧ (paramReg p).extractLsb' 14 2 = 0#2 ∧
    ((paramReg p).extractLsb' 16 4).toNat = min p.syncStages 15 ∧ (paramReg p).getLsbD 20 = p.async ∧
    (paramReg p).extractLsb' 21 11 = 0#11 := by
  obtain ⟨-, -, haddr, -, hm, -⟩ := hp
  have hm5 : p.m < 32 := by omega
  have haddr6 : p.addrW < 64 := by omega
  simp (disch := decide) only [paramReg, BitVec.extractLsb'_append_eq_of_le, BitVec.extractLsb'_append_eq_of_add_le,
    BitVec.getLsbD_append]
  simp [hm5, haddr6]

/-- Settles O17: every register of the port is a concatenation of its fields, and M, ADDR_W and the capped SYNC_STAGES fit theirs. -/
theorem commandPortRegisters : Obligations.CommandPortRegisters := by
  refine ⟨by decide, fun s hp => ?_⟩
  obtain ⟨hcode, hlow, hovr, hmid, hbusy⟩ := statusReg_fields s
  exact ⟨rfl, rfl, rfl, rfl, hcode, hlow, hovr, hmid, hbusy, paramReg_fields hp⟩

/-! ### Bounds that hold in every state of a channel -/

theorem ok_cases {p : Params} {c : Ch} {x : Chan} (h : x.Ok p c) : x = Chan.reset p c ∨ x.Live p c :=
  (em (x.st = .uninit)).imp h.uninit h.live

theorem ok_queue {p : Params} {c : Ch} {x : Chan} (h : x.Ok p c) : x.q.Ok (p.chan c).k := by
  rcases ok_cases h with rfl | hx
  · exact queueOk_reset (k_pos _) (by simp)
  · exact hx.queue_ok

theorem ok_held_length {p : Params} {c : Ch} {x : Chan} (h : x.Ok p c) :
    x.held.length = if c.isRx then (p.chan c).nmax else 0 := by
  rcases ok_cases h with rfl | hx
  · simp [Chan.reset]
  · exact hx.held_length

/-- No view of the queue passes K_c (10_state.md R52). -/
theorem occT_le {p : Params} {c : Ch} {x : Chan} (h : x.Ok p c) : occT p c x ≤ (p.chan c).k := by
  obtain ⟨-, ⟨-, -, -, hocc, hview⟩, -, hprod, -⟩ := ok_queue h
  unfold occT Queue.occR Queue.occW
  split <;> omega

/-- What the acquiring side sees free is at most NMAX_c. -/
theorem freeView_le {p : Params} {c : Ch} {x : Chan} (h : x.Ok p c) : x.f.occR (p.chan c).p ≤ (p.chan c).nmax := by
  rcases ok_cases h with rfl | hx
  · simp [Chan.reset, FreeRing.occR, ptrSub]
  · obtain ⟨-, -, -, -, -, hview⟩ := hx.free_ok
    have hocc := places_occupancy hx
    have hn := hx.n_le
    simp only [FreeRing.occ] at hocc
    simp only [FreeRing.occR]
    omega

theorem freeT_le {p : Params} {c : Ch} {x : Chan} (h : x.Ok p c) : freeT p c x ≤ (p.chan c).nmax := by
  unfold freeT
  split
  · exact freeView_le h
  · exact Nat.zero_le _

/-- HELD_N counts the held bits on a transmit channel too, which has none (R44). -/
theorem heldN_eq {p : Params} {c : Ch} {x : Chan} (h : x.Ok p c) : heldN c x = x.held.count true := by
  have hlen := ok_held_length h
  unfold heldN
  split
  · rfl
  · next hr =>
    rw [if_neg hr] at hlen
    simp [List.eq_nil_of_length_eq_zero hlen]

theorem held_count_le {p : Params} {c : Ch} {x : Chan} (h : x.Ok p c) : x.held.count true ≤ (p.chan c).nmax := by
  have hlen := ok_held_length h
  have hcount := List.count_le_length (a := true) (l := x.held)
  split at hlen <;> omega

/-! ### The four registers of a channel (R44 to R47) -/

theorem regRead_channel (s : State) (c : Ch) {k : Nat} (hk : k < 0x10) :
    s.regRead (0x040 + k + 0x10 * c.bits.toNat) = s.chReg c k := by
  have hb : c.bits.toNat < 4 := c.bits.isLt
  have hch : Ch.ofBits (BitVec.ofNat 2 ((0x040 + k + 0x10 * c.bits.toNat) / 0x10)) = c := by
    have : BitVec.ofNat 2 ((0x040 + k + 0x10 * c.bits.toNat) / 0x10) = c.bits := by
      apply BitVec.eq_of_toNat_eq
      rw [BitVec.toNat_ofNat]
      omega
    rw [this, Ch.ofBits_bits]
  have hoff : (0x040 + k + 0x10 * c.bits.toNat) % 0x10 = k := by omega
  simp (disch := omega) only [State.regRead, if_neg, if_pos, hch, hoff]

theorem chStatReg_fields {p : Params} {c : Ch} {x : Chan} (hp : p.Legal) (hx : x.Ok p c) :
    (chStatReg c x).extractLsb' 0 2 = x.st.bits ∧ (chStatReg c x).getLsbD 2 = x.inflight.isSome ∧
    (chStatReg c x).extractLsb' 3 5 = 0#5 ∧ (chStatReg c x).extractLsb' 8 8 = x.inflight.getD 0#8 ∧
    (chStatReg c x).extractLsb' 16 8 = x.n ∧ ((chStatReg c x).extractLsb' 24 8).toNat = x.held.count true := by
  obtain ⟨-, -, hnmax, -⟩ := legal_chan hp c
  have hheld8 : x.held.count true < 256 := by
    have := held_count_le hx
    omega
  simp (disch := decide) only [chStatReg, heldN_eq hx, BitVec.extractLsb'_append_eq_of_le, BitVec.extractLsb'_append_eq_of_add_le,
    BitVec.getLsbD_append]
  simp [hheld8]

theorem chQstatReg_fields {p : Params} {c : Ch} {x : Chan} (hp : p.Legal) (hx : x.Ok p c) :
    ((chQstatReg p c x).extractLsb' 0 9).toNat = occT p c x ∧ (chQstatReg p c x).extractLsb' 9 7 = 0#7 ∧
    (chQstatReg p c x).getLsbD 16 = emptyT p c x ∧ (chQstatReg p c x).getLsbD 17 = fullT p c x ∧
    (chQstatReg p c x).extractLsb' 18 6 = 0#6 ∧ ((chQstatReg p c x).extractLsb' 24 8).toNat = freeT p c x := by
  obtain ⟨hlogK, -, hnmax, -⟩ := legal_chan hp c
  have hk : (p.chan c).k ≤ 2 ^ 8 := Nat.pow_le_pow_right (by decide) hlogK
  have hocc9 : occT p c x < 512 := by
    have := occT_le hx
    omega
  have hfree8 : freeT p c x < 256 := by
    have := freeT_le hx
    omega
  simp (disch := decide) only [chQstatReg, BitVec.extractLsb'_append_eq_of_le, BitVec.extractLsb'_append_eq_of_add_le,
    BitVec.getLsbD_append]
  simp [hocc9, hfree8]

theorem chGeomReg_fields {p : Params} (hp : p.Legal) (c : Ch) :
    ((chGeomReg p c).extractLsb' 0 16).toNat = (p.chan c).cap ∧
    2 ^ ((chGeomReg p c).extractLsb' 16 4).toNat = (p.chan c).k ∧
    ((chGeomReg p c).extractLsb' 20 1).toNat + 1 = c.ew ∧ (chGeomReg p c).extractLsb' 21 3 = 0#3 ∧
    ((chGeomReg p c).extractLsb' 24 8).toNat = (p.chan c).nmax := by
  obtain ⟨hlogK, -, hnmax, -, hcap, -⟩ := legal_chan hp c
  have hcap16 : (p.chan c).cap < 65536 := by omega
  have hlog4 : (p.chan c).logK % 16 = (p.chan c).logK := by omega
  have hnmax8 : (p.chan c).nmax < 256 := by omega
  have hew1 : (c.ew - 1) % 2 + 1 = c.ew := by cases c <;> rfl
  simp (disch := decide) only [chGeomReg, BitVec.extractLsb'_append_eq_of_le, BitVec.extractLsb'_append_eq_of_add_le]
  simp [ChanParams.k, hcap16, hlog4, hew1, hnmax8]

/-- Settles O18: each register is a concatenation of its fields, and the invariant bounds every count by the width of its field. -/
theorem channelRegisters : Obligations.ChannelRegisters := by
  refine ⟨by decide, fun s c stat qstat geom hs hstat hqstat hgeom => ?_⟩
  have hx := hs.chan c
  obtain rfl : stat = chStatReg c (s.ch c) := hstat.trans (regRead_channel s c (k := 0x0) (by decide))
  obtain rfl : qstat = chQstatReg s.cfg c (s.ch c) := hqstat.trans (regRead_channel s c (k := 0x4) (by decide))
  obtain rfl : geom = chGeomReg s.cfg c := hgeom.trans (regRead_channel s c (k := 0xC) (by decide))
  obtain ⟨hocc, hpad, hempty, hfull, hpad', hfree⟩ := chQstatReg_fields hs.legal hx
  refine ⟨chStatReg_fields hs.legal hx, ⟨fun hr => ?_, fun ht => ?_, hpad, ?_, ?_, hpad', fun ht => ?_, fun hr => ?_⟩,
    regRead_channel s c (k := 0x8) (by decide), chGeomReg_fields hs.legal c⟩
  · rw [hocc, occT, if_pos hr]
  · rw [hocc, occT, if_neg (by simp [tx_not_rx ht])]
  · rw [hempty, hocc, emptyT, beq_iff_eq]
  · rw [hfull, hocc, fullT, beq_iff_eq]
  · rw [hfree, freeT, if_pos ht]
  · apply BitVec.eq_of_toNat_eq
    rw [hfree, freeT, if_neg (rx_not_tx hr)]
    rfl

end Sys2Proof.Machine
end

section
/-! The encoding function by shifts, and the rows of the opcode map against the decoder (30_encoding.md R83, R84, R86). -/

namespace Sys2Proof

/-! ### The fields of a word written as a number (R80) -/

@[simp] theorem opcOf_ofNat (n : Nat) : opcOf (BitVec.ofNat 32 n) = BitVec.ofNat 4 n := by
  apply BitVec.eq_of_toNat_eq
  simp [opcOf]

@[simp] theorem chOf_ofNat (n : Nat) : chOf (BitVec.ofNat 32 n) = BitVec.ofNat 2 (n >>> 4) := by
  apply BitVec.eq_of_toNat_eq
  simp [chOf, Nat.shiftRight_eq_div_pow]
  omega

@[simp] theorem rsvOf_ofNat (n : Nat) : rsvOf (BitVec.ofNat 32 n) = BitVec.ofNat 2 (n >>> 6) := by
  apply BitVec.eq_of_toNat_eq
  simp [rsvOf, Nat.shiftRight_eq_div_pow]
  omega

@[simp] theorem bOf_ofNat (n : Nat) : bOf (BitVec.ofNat 32 n) = BitVec.ofNat 8 (n >>> 8) := by
  apply BitVec.eq_of_toNat_eq
  simp [bOf, Nat.shiftRight_eq_div_pow]
  omega

@[simp] theorem xOf_ofNat (n : Nat) : xOf (BitVec.ofNat 32 n) = BitVec.ofNat 16 (n >>> 16) := by
  apply BitVec.eq_of_toNat_eq
  simp [xOf, Nat.shiftRight_eq_div_pow]
  omega

/-! ### A row of the opcode map, field by field (R83) -/

theorem word_eq_iff {w v : Word} :
    w = v ↔ opcOf w = opcOf v ∧ chOf w = chOf v ∧ rsvOf w = rsvOf v ∧ bOf w = bOf v ∧ xOf w = xOf v := by
  obtain ⟨_, _, _, _, _, hw, rfl, rfl, rfl, rfl, rfl⟩ := word_fields w
  obtain ⟨_, _, _, _, _, hv, rfl, rfl, rfl, rfl, rfl⟩ := word_fields v
  refine ⟨fun h => by simp [h], fun ⟨hopc, hch, hrsv, hb, hx⟩ => ?_⟩
  rw [hw, hv, hopc, hch, hrsv, hb, hx]

theorem OpRow.selects_iff (r : OpRow) (w : Word) :
    r.selects w = true ↔ opcOf w &&& opcOf r.mask = opcOf r.pattern ∧ chOf w &&& chOf r.mask = chOf r.pattern ∧
      rsvOf w &&& rsvOf r.mask = rsvOf r.pattern ∧ bOf w &&& bOf r.mask = bOf r.pattern ∧
      xOf w &&& xOf r.mask = xOf r.pattern := by
  rw [OpRow.selects, beq_iff_eq, word_eq_iff]
  simp only [opcOf, chOf, rsvOf, bOf, xOf, BitVec.extractLsb'_and]

/-- `BitVec.and_allOnes` for a mask written as a literal. -/
theorem and_eq_self {n : Nat} {x m : BitVec n} (h : m = BitVec.allOnes n) : x &&& m = x := by
  rw [h, BitVec.and_allOnes]

/-- CH[0] = 0 names a receive channel. -/
theorem isRx_ofBits {b : BitVec 2} : (Ch.ofBits b).isRx = true ↔ b &&& 1#2 = 0#2 := by revert b; decide

/-- CH[0] = 1 names a transmit channel. -/
theorem isTx_ofBits {b : BitVec 2} : (Ch.ofBits b).isTx = true ↔ b &&& 1#2 = 1#2 := by revert b; decide

theorem cbOf_eq_zero {w : Word} : cbOf w = 0#4 ↔ bOf w &&& 0xF0#8 = 0#8 := by
  have hmask : bOf w &&& 0xF0#8 = cbOf w ++ 0#4 := by
    rw [bOf_eq, show 0xF0#8 = 15#4 ++ 0#4 from rfl, BitVec.and_append, and_eq_self (m := 15#4) rfl, BitVec.and_zero]
  rw [hmask, show 0#8 = 0#4 ++ 0#4 from rfl, BitVec.append_left_inj]

/-! ### The decoder against the opcode map (R83, R84) -/

theorem opcodeMap_mnemonic_inj : ∀ r ∈ opcodeMap, ∀ r' ∈ opcodeMap, r.mnemonic = r'.mnemonic → r = r' := by decide

theorem unusedZero_eq_directed (zero : Bool) (i : Instr) : unusedZero zero i = directed zero true i := rfl

/-- Row by row: the fields a row fixes are those its branch of the decoder asks for. -/
theorem decode_of_selects {r : OpRow} {w : Word} (hr : r ∈ opcodeMap) (hs : r.selects w = true) :
    ∃ i, decode w = .ok i ∧ i.mnemonic = r.mnemonic := by
  simp only [opcodeMap, List.mem_cons, List.not_mem_nil, or_false] at hr
  rcases hr with rfl | rfl | rfl | rfl | rfl | rfl | rfl | rfl | rfl | rfl
  all_goals
    revert hs
    simp +contextual [OpRow.selects_iff, and_eq_self, ← cbOf_eq_zero, decode, unusedZero_eq_directed, directed,
      isRx_ofBits, isTx_ofBits, Instr.mnemonic]

/-- Branch by branch: a word the decoder accepts has the fields that the row of its command fixes. -/
theorem selects_of_decode {w : Word} {i : Instr} (h : decode w = .ok i) :
    ∃ r ∈ opcodeMap, r.selects w = true ∧ r.mnemonic = i.mnemonic := by
  unfold decode at h
  split at h
  case isFalse => cases h
  case isTrue hrsv =>
    split at h
    case h_11 => cases h
    all_goals
      next hnat =>
      have hopc := congrArg (BitVec.ofNat 4) hnat
      rw [BitVec.ofNat_toNat, BitVec.setWidth_eq] at hopc
      simp only [unusedZero_eq_directed, directed_ok, decide_eq_true_eq, isRx_ofBits, isTx_ofBits] at h
      obtain ⟨hzero, hdir, rfl⟩ := h
      simp [opcodeMap, OpRow.selects_iff, and_eq_self, ← cbOf_eq_zero, Instr.mnemonic, hopc, hrsv, hzero, hdir]

theorem selects_iff_decode {r : OpRow} (hr : r ∈ opcodeMap) (w : Word) :
    r.selects w = true ↔ ∃ i, decode w = .ok i ∧ i.mnemonic = r.mnemonic := by
  refine ⟨decode_of_selects hr, fun ⟨i, hi, hm⟩ => ?_⟩
  obtain ⟨r', hr', hs', hm'⟩ := selects_of_decode hi
  rwa [opcodeMap_mnemonic_inj r hr r' hr' (hm.symm.trans hm'.symm)]

/-- No two rows overlap: both would have the mnemonic of the one command the word decodes to. -/
theorem selects_unique {r r' : OpRow} {w : Word} (hr : r ∈ opcodeMap) (hr' : r' ∈ opcodeMap) (hs : r.selects w = true)
    (hs' : r'.selects w = true) : r = r' := by
  obtain ⟨i, hi, hm⟩ := decode_of_selects hr hs
  obtain ⟨i', hi', hm'⟩ := decode_of_selects hr' hs'
  obtain rfl : i = i' := Except.ok.inj (hi.symm.trans hi')
  exact opcodeMap_mnemonic_inj r hr r' hr' (hm.symm.trans hm')

theorem decode_error_iff (w : Word) : (∃ e, decode w = .error e) ↔ ∀ r ∈ opcodeMap, r.selects w = false := by
  constructor
  · rintro ⟨e, he⟩ r hr
    refine Bool.eq_false_iff.2 fun hs => ?_
    obtain ⟨i, hi, -⟩ := decode_of_selects hr hs
    cases he.symm.trans hi
  · intro hnone
    cases hd : decode w with
    | error e => exact ⟨e, rfl⟩
    | ok i =>
      obtain ⟨r, hr, hs, -⟩ := selects_of_decode hd
      exact absurd hs (by simp [hnone r hr])

theorem Machine.cmdengTurn_of_decode_error {s : Machine.State} {e : Illegal} (hb : s.busy = true)
    (he : decode s.cmdL = .error e) :
    Machine.cmdengTurn s = .next { s with code := .illegalCommand, result := 0#32, busy := false } := by
  rw [Machine.cmdengTurn, if_pos hb, he]
  rfl

/-- Settles O8: a word that decodes selects the row of its command and no other; one that does not selects none, and CMDENG
ends it with IllegalCommand. -/
theorem undecodableWordIsIllegalCommand : Obligations.UndecodableWordIsIllegalCommand := by
  refine ⟨fun w => ?_, fun s hturn hbusy hnone => ?_⟩
  · cases hd : decode w with
    | error e => exact .inr ⟨(decode_error_iff w).1 ⟨e, hd⟩, e, rfl⟩
    | ok i =>
      obtain ⟨r, hr, hs, hm⟩ := selects_of_decode hd
      exact .inl ⟨r, hr, hs, fun r' hr' hs' => selects_unique hr' hr hs' hs, i, rfl, hm.symm⟩
  · obtain ⟨e, he⟩ := (decode_error_iff s.cmdL).2 hnone
    rw [Machine.step, hturn]
    exact Machine.cmdengTurn_of_decode_error (s := s.advance) hbusy he

/-! ### The encoding function (R86) -/

theorem enc_eq_or (opc : BitVec 4) (c : BitVec 2) (b : Byte) (x : Half) :
    enc opc c b x =
      opc.setWidth 32 ||| (c.setWidth 32 <<< 4) ||| (b.setWidth 32 <<< 8) ||| (x.setWidth 32 <<< 16) := by
  calc enc opc c b x
      = (x ++ b ++ 0#2 ++ c ++ opc).setWidth 32 := (BitVec.setWidth_eq _).symm
    _ = (x.setWidth 32 <<< 12 ||| b.setWidth 32 <<< 4 ||| (0#2).setWidth 32 <<< 2 ||| c.setWidth 32) <<< 4 |||
          opc.setWidth 32 := by
        rw [BitVec.setWidth_append_eq_shiftLeft_setWidth_or,
          BitVec.setWidth_append_append_append_eq_shiftLeft_setWidth_or]
    _ = x.setWidth 32 <<< 16 ||| b.setWidth 32 <<< 8 ||| c.setWidth 32 <<< 4 ||| opc.setWidth 32 := by
        simp only [BitVec.shiftLeft_or_distrib, ← BitVec.shiftLeft_add, BitVec.setWidth_zero, BitVec.zero_shiftLeft,
          BitVec.or_zero, Nat.reduceAdd]
    _ = _ := by
        rw [BitVec.or_comm, BitVec.or_comm _ (c.setWidth 32 <<< 4), BitVec.or_comm (x.setWidth 32 <<< 16),
          ← BitVec.or_assoc, ← BitVec.or_assoc]

/-- B of DISP_REG and DISP_SWTRIG. -/
theorem cb_append_irq (cb irq : BitVec 4) : cb ++ irq = (cb.setWidth 8 <<< 4) ||| irq.setWidth 8 := by
  rw [← BitVec.setWidth_append_eq_shiftLeft_setWidth_or]
  exact (BitVec.setWidth_eq _).symm

/-- Settles O5: each concatenation of fields is the disjunction of the fields shifted to their places, and the example words
are computed. -/
theorem encodingFunction : Obligations.EncodingFunction := by
  refine ⟨enc_eq_or, fun irq cb ctx => ?_, fun irq => ?_, by decide⟩
  · rw [encode, cb_append_irq]
  · rw [encode, cb_append_irq, BitVec.setWidth_zero, BitVec.zero_shiftLeft, BitVec.zero_or]

end Sys2Proof
end

section
/-! The pool of a channel as a FIFO of handles (40_chunk_pool.md R105, R106, R109). -/

namespace Sys2Proof.Machine

/-- Acquire's test is on the consumer's view of the free ring (R105). -/
theorem acquire_none_iff_view_empty {p : Params} {c : Ch} {x : Chan} : acquire p c x = none ↔ x.f.r = x.f.ws := by
  rw [acquire_none, FreeRing.emptyR, beq_iff_eq]

/-- Settles O37: acquire advances the read pointer over the oldest entry that its view shows; while a handle of the channel
is outside the free ring, the ring has a slot for the handle release writes. -/
theorem poolIsFifo : Obligations.PoolIsFifo := by
  intro p c x hp hx
  refine ⟨acquire_none_iff_view_empty.2, fun hne => ?_, fun h hh hout => ?_⟩
  · obtain ⟨y, hacq, hcontents, hzero, hothers, hw, hws, hframe, -⟩ := acquire_spec hx hp hne
    exact ⟨_, y, hacq, hcontents, hzero, hothers, hw, hws, hframe⟩
  · have hroom : x.f.occ (p.chan c).p < (p.chan c).p := occ_lt_of_not_free hp hx hh hout
    exact ⟨release_contents hx.free_ok hroom, rfl, rfl, rfl⟩

end Sys2Proof.Machine
end

section
/-! The gray code of a ring pointer (41_async_fifo.md R120 to R122). -/

namespace Sys2Proof.Machine

@[simp] theorem gray_getLsbD {w : Nat} (b : BitVec w) (i : Nat) :
    (gray b).getLsbD i = (b.getLsbD i ^^ b.getLsbD (i + 1)) := by
  simp [gray, Nat.add_comm 1 i]

/-! ### Decoding (R121) -/

/-- The exclusive or of the `n` bits from bit `i` up. -/
def xorBits {w : Nat} (g : BitVec w) (i n : Nat) : Bool := ((List.range n).map fun k => g.getLsbD (i + k)).foldl xor false

@[simp] theorem xorBits_zero {w : Nat} (g : BitVec w) (i : Nat) : xorBits g i 0 = false := rfl

theorem xorBits_succ {w : Nat} (g : BitVec w) (i n : Nat) : xorBits g i (n + 1) = (xorBits g i n ^^ g.getLsbD (i + n)) := by
  simp [xorBits, List.range_succ]

theorem foldl_shifts_getLsbD {w : Nat} (g : BitVec w) (i n : Nat) :
    ((List.range n).foldl (fun acc k => acc ^^^ (g >>> k)) 0#w).getLsbD i = xorBits g i n := by
  induction n with
  | zero => simp
  | succ n ih => simp [List.range_succ, xorBits_succ, ih, Nat.add_comm n i]

theorem bin_getLsbD {w : Nat} (g : BitVec w) (i : Nat) : (bin g).getLsbD i = xorBits g i w := foldl_shifts_getLsbD g i w

/-- Each bit of `b` between the two ends enters two bits of the gray code, and cancels. -/
theorem xorBits_gray {w : Nat} (b : BitVec w) (i n : Nat) : xorBits (gray b) i n = (b.getLsbD i ^^ b.getLsbD (i + n)) := by
  induction n with
  | zero => simp
  | succ n ih => simp [xorBits_succ, ih, Nat.add_assoc]

theorem bin_gray {w : Nat} (b : BitVec w) : bin (gray b) = b := by
  refine BitVec.eq_of_getLsbD_eq fun i _ => ?_
  rw [bin_getLsbD, xorBits_gray, BitVec.getLsbD_of_ge b (i + w) (Nat.le_add_left w i), Bool.xor_false]

/-- Settles O30: bit i of bin is the exclusive or of the bits above it, which on a gray code telescopes to bit i of the value. -/
theorem grayDecodesBack : Obligations.GrayDecodesBack := fun _ b => ⟨bin_gray b, bin_getLsbD b⟩

/-! ### Counting (R122) -/

/-- The carry of `b + 1` reaches the lowest clear bit, or the top one where every bit is set. -/
theorem exists_carry_end {w : Nat} (b : BitVec w) (hw : 0 < w) :
    ∃ i, i < w ∧ (∀ k, k < i → b.getLsbD k = true) ∧ (b.getLsbD i = false ∨ i + 1 = w) := by
  have hex : ∃ i, b.getLsbD i = false ∨ i + 1 = w := ⟨w - 1, .inr (by omega)⟩
  refine ⟨Nat.find hex, ?_, fun k hk => ?_, Nat.find_spec hex⟩
  · have := Nat.find_min' hex (m := w - 1) (.inr (by omega))
    omega
  · simpa using (not_or.1 (Nat.find_min hex hk)).1

theorem getLsbD_add_one {w : Nat} (b : BitVec w) {j : Nat} (hj : j < w) :
    (b + 1).getLsbD j = (b.getLsbD j ^^ decide (∀ k, k < j → b.getLsbD k = true)) := by
  have hneg : b + 1 = -(~~~b) := by rw [BitVec.neg_eq_not_add, BitVec.not_not]; rfl
  have hstop : (∃ k < j, (~~~b).getLsbD k = true) ↔ ¬∀ k, k < j → b.getLsbD k = true := by
    push Not
    refine exists_congr fun k => and_congr_right fun hk => ?_
    simp [show k < w by omega]
  simp only [hneg, BitVec.getLsbD_neg, hstop, decide_not]
  simp only [BitVec.getLsbD_not, hj, decide_true, Bool.true_and, Bool.not_bne_not]

/-- Adding 1 flips the bits up to where the carry ends, and no other. -/
theorem exists_getLsbD_add_one {w : Nat} (b : BitVec w) (hw : 0 < w) :
    ∃ i, i < w ∧ ∀ j, (b + 1).getLsbD j = (b.getLsbD j ^^ decide (j ≤ i)) := by
  obtain ⟨i, hi, hset, hend⟩ := exists_carry_end b hw
  refine ⟨i, hi, fun j => ?_⟩
  by_cases hj : j < w
  · have hcarry : (∀ k, k < j → b.getLsbD k = true) ↔ j ≤ i := by
      refine ⟨fun hall => ?_, fun hji k hk => hset k (by omega)⟩
      by_contra hij
      have hclear : b.getLsbD i = false := hend.resolve_right (by omega)
      rw [hall i (by omega)] at hclear
      cases hclear
    simp only [getLsbD_add_one b hj, hcarry]
  · rw [BitVec.getLsbD_of_ge _ _ (by omega), BitVec.getLsbD_of_ge _ _ (by omega), decide_eq_false (by omega)]
    rfl

/-- Settles O31: where the bits up to i flip, a gray bit below i sees two flips, the gray bit i
sees one and those above it none. -/
theorem grayStepChangesOneBit : Obligations.GrayStepChangesOneBit := by
  intro w b hw
  obtain ⟨i, hi, hflip⟩ := exists_getLsbD_add_one b hw
  refine ⟨i, hi, fun j => ?_⟩
  have hone : (decide (j ≤ i) ^^ decide (j + 1 ≤ i)) = decide (j = i) := by
    rcases Nat.lt_trichotomy j i with hlt | rfl | hgt
    · simp [hlt.le, Nat.succ_le_of_lt hlt, hlt.ne]
    · simp
    · simp [hgt.not_ge, (Nat.lt_succ_of_lt hgt).not_ge, hgt.ne']
  rw [gray_getLsbD, gray_getLsbD, hflip, hflip, ← hone]
  simp only [Bool.xor_assoc, Bool.xor_left_comm]

end Sys2Proof.Machine
end

section
/-! The queue of a channel as a FIFO of handles (41_async_fifo.md R130 to R132, R135). -/

namespace Sys2Proof.Machine

theorem fullW_iff {d : Nat} {q : Queue} : q.fullW d = true ↔ q.occW d = d := by rw [Queue.fullW, beq_iff_eq]

theorem emptyR_iff {q : Queue} : q.emptyR = true ↔ q.r = q.ws := by rw [Queue.emptyR, beq_iff_eq]

theorem queuePut_full {d : Nat} {q : Queue} (h : Handle) (hf : q.fullW d = true) : q.put d h = none := if_pos hf

theorem queuePut_room {d : Nat} {q : Queue} (h : Handle) (hf : q.fullW d = false) : q.put d h = some (q.push d h) := by
  simp [Queue.put, hf]

theorem queueGet_entry {d : Nat} {q : Queue} (he : q.emptyR = false) : q.get d = some (q.front d, q.pop d) := by
  simp [Queue.get, he]

/-- Q_HEAD answers the handle that Q_GET takes out, and fails where it fails (R132). -/
theorem queueHead_eq_get (d : Nat) (q : Queue) : q.head d = (q.get d).map Prod.fst := by
  unfold Queue.head Queue.get
  split <;> rfl

/-- Settles O36: the producer's view bounds the occupancy from above and the consumer's from below, so a put that finds room
writes past the last entry and a get that finds an entry takes the oldest. -/
theorem queueIsFifo : Obligations.QueueIsFifo := by
  intro d q h hq
  refine ⟨fun hfull => queuePut_full h (fullW_iff.2 hfull), fun hroom => ?_, fun hempty => ?_, fun hsome => ?_⟩
  · have hf : q.fullW d = false := Bool.eq_false_iff.2 (mt fullW_iff.1 hroom)
    obtain ⟨hok, hcontents⟩ := queueOk_push h hq hf
    exact ⟨_, queuePut_room h hf, hok, hcontents, rfl, rfl, rfl⟩
  · have hget : q.get d = none := queueGet_none.2 (emptyR_iff.2 hempty)
    exact ⟨hget, by rw [queueHead_eq_get, hget]; rfl⟩
  · have he : q.emptyR = false := Bool.eq_false_iff.2 (mt emptyR_iff.1 hsome)
    have hget := queueGet_entry (d := d) he
    obtain ⟨hok, hcontents⟩ := queueOk_pop hq he
    exact ⟨_, _, hget, by rw [queueHead_eq_get, hget]; rfl, hok, hcontents, rfl, rfl, rfl, rfl⟩

end Sys2Proof.Machine
end

section
/-! The dispatcher's commands, and what a step does to the callback table (42_dispatch.md R150, R151, R158). -/

namespace Sys2Proof.Machine

/-! ### DISP_REG (R150) -/

theorem exec_dispReg_invalid {s : State} {irq cb : BitVec 4} (ctx : Half)
    (h : s.cfg.m ≤ irq.toNat ∨ cb = 0#4 ∨ cb = 1#4) : exec (.dispReg irq cb ctx) s = raise .invalidConfig s := by
  by_cases hirq : s.cfg.m ≤ irq.toNat
  · exact if_pos hirq
  · exact (if_neg hirq).trans (if_pos (h.resolve_left hirq))

theorem exec_dispReg_valid {s : State} {irq cb : BitVec 4} (ctx : Half)
    (h : ¬(s.cfg.m ≤ irq.toNat ∨ cb = 0#4 ∨ cb = 1#4)) :
    exec (.dispReg irq cb ctx) s =
      if (s.entry irq.toNat).bound then raise .alreadyBound s else complete 0#32 (s.bind irq.toNat cb ctx) := by
  obtain ⟨hirq, hcb⟩ := not_or.1 h
  exact (if_neg hirq).trans (if_neg hcb)

/-- Settles O25: the first failing check names the code, and past the checks the command is `bind` of an id inside the table. -/
theorem dispRegBindsOrRefuses : Obligations.DispRegBindsOrRefuses := by
  intro s irq cb ctx hs
  refine ⟨exec_dispReg_invalid ctx, fun hirq h0 h1 hbound => ?_, fun hirq h0 h1 hfree => ?_⟩
  · exact (exec_dispReg_valid ctx (by simp [hirq, h0, h1])).trans (if_pos hbound)
  · have hexec := (exec_dispReg_valid (s := s) (cb := cb) ctx (by simp [hirq, h0, h1])).trans (if_neg (Bool.eq_false_iff.1 hfree))
    have hentry := fun j => entry_bind s irq.toNat j cb ctx (hs.table.length.symm ▸ hirq)
    refine ⟨_, hexec, rfl, rfl, (hentry _).trans (if_pos rfl), fun j hj => (hentry j).trans (if_neg hj), rfl, rfl, rfl,
      fun _ => rfl, ?_⟩
    simp [SamePort]

/-! ### DISP_SWTRIG (R151, 60_exceptions.md R253 F4) -/

theorem exec_dispSwtrig_valid {s : State} {irq : BitVec 4} (h : irq.toNat < s.cfg.m) :
    exec (.dispSwtrig irq) s = simulate irq.toNat s (complete 0#32) := if_neg h.not_ge

theorem simulate_armed {s : State} {i : Nat} (done : State → Res)
    (h : ∃ c : Ch, c.isTx = true ∧ (s.cfg.chan c).irq = i ∧ (s.ch c).per.armed = true) :
    simulate i s done = .fault .txCompletionWhileArmed := if_pos ((armedTxIrq_iff s i).2 h)

theorem simulate_disarmed {s : State} {i : Nat} (done : State → Res)
    (h : ∀ c : Ch, c.isTx = true → (s.cfg.chan c).irq = i → (s.ch c).per.armed = false) :
    simulate i s done = done (s.setPending i true) := by
  refine if_neg fun harmed => ?_
  obtain ⟨c, htx, hirq, hon⟩ := (armedTxIrq_iff s i).1 harmed
  exact Bool.eq_false_iff.1 (h c htx hirq) hon

/-- Settles O26: F4 is asked of exactly the armed transmit channels, and otherwise the command sets one bit, which exists. -/
theorem dispSwtrigSetsPending : Obligations.DispSwtrigSetsPending := by
  intro s irq hs
  refine ⟨fun hirq => if_pos hirq, fun hirq harmed => ?_, fun hirq hdisarmed => ?_⟩
  · exact (exec_dispSwtrig_valid hirq).trans (simulate_armed _ harmed)
  · have hexec := (exec_dispSwtrig_valid hirq).trans (simulate_disarmed (complete 0#32) hdisarmed)
    have hpending := fun j => isPending_setPending s irq.toNat j true (hs.pending_length.symm ▸ hirq)
    refine ⟨_, hexec, rfl, rfl, (hpending _).trans (if_pos rfl), fun j hj => (hpending j).trans (if_neg hj), rfl, rfl, rfl,
      fun _ => rfl, ?_⟩
    simp [SamePort]

/-! ### The callback table over a step (R158) -/

/-- The command is one that binds entry `j`: DISP_REG of `j`, or CH_INIT of the channel whose id is `j`. -/
def Binds (p : Params) (i : Instr) (j : Nat) : Prop :=
  (∃ irq cb ctx, i = .dispReg irq cb ctx ∧ irq.toNat = j) ∨ ∃ c count, i = .chInit c count ∧ (p.chan c).irq = j

/-- The table of `t` is that of `s` but for the entry `j`, which was not bound. -/
structure BoundAt (s t : State) (j : Nat) : Prop where
  free : (s.entry j).bound = false
  table : ∃ cb ctx, t.table = (s.bind j cb ctx).table

theorem entry_congr {s t : State} (h : t.table = s.table) (i : Nat) : t.entry i = s.entry i := by
  simp [State.entry, h]

/-- `bind` of another entry; an index past the table writes nothing. -/
theorem entry_bind_of_ne (s : State) {i j : Nat} (cb : BitVec 4) (ctx : Half) (h : i ≠ j) :
    (s.bind j cb ctx).entry i = s.entry i := by
  simp [State.bind, State.entry, List.getD_eq_getElem?_getD, h.symm]

theorem BoundAt.entry_of_ne {s t : State} {i j : Nat} (h : BoundAt s t j) (hij : i ≠ j) : t.entry i = s.entry i := by
  obtain ⟨cb, ctx, ht⟩ := h.table
  exact (entry_congr ht i).trans (entry_bind_of_ne s cb ctx hij)

/-- DISP_REG binds only an entry that its check found unbound (R150). -/
theorem exec_dispReg_table {s t : State} {irq cb : BitVec 4} {ctx : Half} (h : exec (.dispReg irq cb ctx) s = .next t) :
    t.table = s.table ∨ BoundAt s t irq.toNat := by
  by_cases hbad : s.cfg.m ≤ irq.toNat ∨ cb = 0#4 ∨ cb = 1#4
  · rw [exec_dispReg_invalid ctx hbad] at h
    cases h
    exact .inl rfl
  · rw [exec_dispReg_valid ctx hbad] at h
    split at h
    · cases h
      exact .inl rfl
    · next hfree =>
      cases h
      exact .inr ⟨Bool.eq_false_iff.2 hfree, _, _, rfl⟩

theorem bind_setCh_table (s : State) (c : Ch) (x : Chan) (j : Nat) (cb : BitVec 4) (ctx : Half) :
    ((s.setCh c x).bind j cb ctx).table = (s.bind j cb ctx).table := by simp [State.bind]

/-- What a command does to the table. -/
theorem exec_table {i : Instr} {s t : State} (h : exec i s = .next t) (hi : i ≠ .blkReset) :
    t.table = s.table ∨ ∃ j, Binds s.cfg i j ∧ BoundAt s t j := by
  obtain ⟨_, _, rfl, -⟩ | ⟨hblk, -⟩ | ⟨irq, cb, ctx, rfl, -⟩ | ⟨_, -, rfl⟩ |
    ⟨c, count, hc, ⟨-, -, -, hfree⟩, -, rfl⟩ | ⟨c, count, hc, ⟨-, -, -, hfree⟩, -, rfl⟩ | ⟨_, -, -, -, _, _, _, -, rfl⟩ |
    ⟨_, -, -, _, rfl⟩ | ⟨_, -, -, _, rfl⟩ | ⟨_, _, -, -, rfl⟩ | ⟨_, -, -, _, _, _, -, rfl⟩ := exec_cases h
  · exact .inl rfl
  · exact absurd hblk hi
  · exact (exec_dispReg_table h).imp_right fun hat => ⟨_, .inl ⟨irq, cb, ctx, rfl, rfl⟩, hat⟩
  · exact .inl rfl
  · exact .inr ⟨_, .inr ⟨c, count, hc, rfl⟩, hfree, _, _, bind_setCh_table ..⟩
  · exact .inr ⟨_, .inr ⟨c, count, hc, rfl⟩, hfree, _, _, bind_setCh_table ..⟩
  all_goals exact .inl (setCh_table ..)

theorem dispTurn_table (s : State) : (dispTurn s).table = s.table := by
  rw [dispTurn_eq]
  split
  · rfl
  · next i _ => exact (runHandler_frame i (s.entry i) (s.setPending i false)).2.2

theorem simulate_next_table {s t : State} {i : Nat} (h : simulate i s .next = .next t) : t.table = s.table := by
  unfold simulate at h
  split at h
  · cases h
  · cases h
    rfl

theorem periphTurn_table {s t : State} {c : Ch} (h : periphTurn c s = .next t) : t.table = s.table := by
  unfold periphTurn at h
  split_ifs at h <;> cases h
  · simp [txTransfer, signalDone]
  · simp [rxTransfer, signalDone]

/-- Only CMDENG and the reset input write the table. -/
theorem takeTurn_table {u : Turn} {s t : State} (h : takeTurn u s = .next t) (hc : u ≠ .cmdeng) (hr : u ≠ .rstN) :
    t.table = s.table := by
  cases u with
  | host =>
    obtain ⟨-, -, -, htable, -⟩ := hostTurn_frame h
    exact htable
  | cmdeng => exact absurd rfl hc
  | syncQueueW2R c => cases h; exact setCh_table ..
  | syncQueueR2W c => cases h; exact setCh_table ..
  | syncFreeW2R c => cases h; exact setCh_table ..
  | disp => cases h; exact dispTurn_table s
  | fsm c => cases h; exact setCh_table ..
  | periph c => exact periphTurn_table h
  | extIrq i =>
    simp only [takeTurn, extIrqTurn] at h
    split at h
    · cases h
    · exact simulate_next_table h
  | rstN => exact absurd rfl hr

/-- Everything a step that is no reset can do to the table. -/
theorem step_table {s t : State} (h : step s = .next t) (hblk : ¬s.Executes .blkReset) (hrst : s.turn ≠ .rstN) :
    t.table = s.table ∨ ∃ i j, s.Executes i ∧ Binds s.cfg i j ∧ BoundAt s t j := by
  by_cases hturn : s.turn = .cmdeng
  · rw [step, hturn] at h
    obtain ⟨rfl, -⟩ | ⟨e, -, -, rfl⟩ | ⟨i, u, hbusy, hdec, hexec, rfl⟩ := cmdengTurn_cases h
    · exact .inl rfl
    · exact .inl rfl
    · have hi : s.Executes i := ⟨hturn, hbusy, hdec⟩
      exact (exec_table hexec fun e => hblk (e ▸ hi)).imp_right fun ⟨j, hbinds, hat⟩ =>
        ⟨i, j, hi, hbinds, hat.free, hat.table⟩
  · exact .inl (takeTurn_table (s := s.advance) h hturn hrst)

/-- Settles O28: a step that is no reset writes at most one entry, one that was not bound, and only by a command that binds it. -/
theorem boundEntriesPersist : Obligations.BoundEntriesPersist := by
  intro s t i h hblk hrst
  obtain htable | ⟨cmd, j, hexec, hbinds, hat⟩ := step_table h hblk hrst
  · have hsame := entry_congr htable i
    exact ⟨fun _ => hsame, fun hfree hbound => by simp [hsame, hfree] at hbound⟩
  · refine ⟨fun hbound => hat.entry_of_ne ?_, fun hfree hbound => ?_⟩
    · rintro rfl
      exact Bool.eq_false_iff.1 hat.free hbound
    · have hij : i = j := by
        by_contra hne
        simp [hat.entry_of_ne hne, hfree] at hbound
      subst hij
      exact hbinds.imp (fun ⟨irq, cb, ctx, hcmd, hirq⟩ => ⟨irq, cb, ctx, hcmd ▸ hexec, hirq⟩)
        fun ⟨c, count, hcmd, hirq⟩ => ⟨c, count, hcmd ▸ hexec, hirq⟩

end Sys2Proof.Machine
end

section
/-! What a step that writes one channel leaves, and the channel that CH_START and the retry step arm (43_channel_rx.md R171,
R175). -/

namespace Sys2Proof.Machine

/-! ### One channel written -/

theorem onlyChan_setCh (s : State) (c : Ch) (x : Chan) : OnlyChan c s (s.setCh c x) :=
  ⟨by simp [SamePort], by simp [SameDispatcher], fun _ hd => ch_setCh_other s x hd, fun _ => by rw [setCh_sys]⟩

/-- A command that ends normally and has written channel `c`. -/
theorem exec_completes {i : Instr} {s : State} {c : Ch} {x : Chan} {r : Word}
    (hexec : exec i s = complete r (s.setCh c x)) :
    ∃ t, exec i s = .next t ∧ t.code = .ok ∧ t.result = r ∧ t.ch c = x ∧ OnlyChan c s t := by
  obtain ⟨hport, hdisp, hothers, hsys⟩ := onlyChan_setCh s c x
  exact ⟨_, hexec, rfl, rfl, (ch_congr rfl c).trans (ch_setCh_same s c x), hport, hdisp,
    fun d hd => (ch_congr rfl d).trans (hothers d hd), hsys⟩

/-! ### Acquire and arm -/

/-- Acquire answers the handle at the read pointer while its view of the free ring shows one (40_chunk_pool.md R105). -/
theorem acquire_of_view {p : Params} {c : Ch} {x : Chan} (hne : x.f.r ≠ x.f.ws) :
    ∃ y, acquire p c x = some (freeRdData p c x, y) := ⟨_, if_neg (by simpa [FreeRing.emptyR] using hne)⟩

theorem freeRdData_lt_used {p : Params} {c : Ch} {x : Chan} (hp : p.Legal) (hx : x.Live p c) (hne : x.f.r ≠ x.f.ws) :
    (freeRdData p c x).toNat < x.used.length := by
  obtain ⟨y, hacq⟩ := acquire_of_view (p := p) (c := c) hne
  rw [hx.used_length]
  exact (acquire_lt hp hx hacq).trans_le hx.n_le

/-- That handle is the oldest of the free ring; it stands before what the ring holds once it is read. -/
theorem free_contents_eq_cons {p : Params} {c : Ch} {x : Chan} (hok : x.f.Ok (p.chan c).p) (hne : x.f.r ≠ x.f.ws) :
    x.f.contents (p.chan c).p =
      freeRdData p c x :: ringContents (p.chan c).p x.f.slots x.f.w (ptrSucc (p.chan c).p x.f.r) :=
  ringContents_read hok.2.1 hok.2.2.1 (occ_pos_of_view hok.2 hne)

/-- `y` is `x` with the oldest free handle `h` acquired, put in flight and programmed. -/
structure ArmedFrom (p : Params) (c : Ch) (x : Chan) (h : Handle) (y : Chan) : Prop where
  oldest : x.f.contents (p.chan c).p = h :: y.f.contents (p.chan c).p
  inflight : y.inflight = some h
  st : y.st = .active
  programmed : programmedFor p c h y
  armed : y.per.armed = true
  used_self : y.usedOf h = 0#16
  used_other : ∀ g, g ≠ h → y.usedOf g = x.usedOf g
  free_w : y.f.w = x.f.w
  free_ws : y.f.ws = x.f.ws
  free_slots : y.f.slots = x.f.slots
  q : y.q = x.q
  n : y.n = x.n
  held : y.held = x.held
  txOut : y.txOut = x.txOut

theorem armedFrom_arm {p : Params} {c : Ch} {x y : Chan} {h : Handle} (hok : x.f.Ok (p.chan c).p)
    (hlt : h.toNat < x.used.length) (hacq : acquire p c x = some (h, y)) : ArmedFrom p c x h (arm p c h y) := by
  have hother : ∀ g, g ≠ h → y.usedOf g = x.usedOf g := fun g hg => acquire_usedOf hacq hlt hg
  obtain ⟨hview, hhead, rfl⟩ := acquire_eq hacq
  have hne : x.f.r ≠ x.f.ws := by simpa [FreeRing.emptyR] using hview
  have hself := usedOf_setUsed { x with f := { x.f with r := ptrSucc (p.chan c).p x.f.r } } h h 0#16 hlt
  exact {
    oldest := hhead ▸ free_contents_eq_cons hok hne
    inflight := rfl
    st := rfl
    programmed := programmedFor_program ..
    armed := rfl
    used_self := hself.trans (if_pos rfl)
    used_other := hother
    free_w := rfl
    free_ws := rfl
    free_slots := rfl
    q := rfl
    n := rfl
    held := rfl
    txOut := rfl }

/-- A live channel whose free-ring view shows a handle can be armed with it. -/
theorem exists_armedFrom {p : Params} {c : Ch} {x : Chan} (hp : p.Legal) (hx : x.Live p c) (hne : x.f.r ≠ x.f.ws) :
    ∃ h y, acquire p c x = some (h, y) ∧ ArmedFrom p c x h (arm p c h y) := by
  obtain ⟨y, hacq⟩ := acquire_of_view (p := p) (c := c) hne
  exact ⟨_, y, hacq, armedFrom_arm hx.free_ok (freeRdData_lt_used hp hx hne) hacq⟩

/-- The element count a receive channel is programmed with. -/
theorem transferCount_rx_toNat {p : Params} {c : Ch} (hp : p.Legal) (hr : c.isRx = true) (x : Chan) (h : Handle) :
    (transferCount p c x h).toNat = (p.chan c).cap / c.ew := by
  obtain ⟨-, -, -, -, hcap, -⟩ := legal_chan hp c
  have hle := Nat.div_le_self (p.chan c).cap c.ew
  rw [transferCount, if_pos hr, BitVec.toNat_ofNat, Nat.mod_eq_of_lt (by omega)]

/-! ### CH_START on a receive channel (R171) -/

theorem exec_chStart_rx {c : Ch} (hr : c.isRx = true) (s : State) : exec (.chStart c) s = chStartRx c s :=
  if_neg (rx_not_tx hr)

theorem chStartRx_exhausted {s : State} {c : Ch} (hst : (s.ch c).st = .idle) (hview : (s.ch c).f.r = (s.ch c).f.ws) :
    chStartRx c s = raise .poolExhausted s := by
  simp [chStartRx, hst, acquire_none_iff_view_empty.2 hview]

theorem chStartRx_arms {s : State} {c : Ch} {h : Handle} {x : Chan} (hst : (s.ch c).st = .idle)
    (hacq : acquire s.cfg c (s.ch c) = some (h, x)) :
    chStartRx c s = complete (h.setWidth 32) (s.setCh c (arm s.cfg c h x)) := by
  simp [chStartRx, hst, hacq]

/-- Settles O39: past the two checks the command acquires the oldest free handle and arms the channel with it. -/
theorem chStartArmsReceive : Obligations.ChStartArmsReceive := by
  intro s c hs hr
  refine ⟨fun hst => (exec_chStart_rx hr s).trans (if_pos hst),
    fun hst hview => (exec_chStart_rx hr s).trans (chStartRx_exhausted hst hview), fun hst hne => ?_⟩
  have hx : (s.ch c).Live s.cfg c := (hs.chan c).live (by simp [hst])
  obtain ⟨h, y, hacq, harmed⟩ := exists_armedFrom hs.legal hx hne
  obtain ⟨t, ht, hcode, hresult, hch, honly⟩ := exec_completes ((exec_chStart_rx hr s).trans (chStartRx_arms hst hacq))
  obtain ⟨haddr, hstride, hcount, hen⟩ := harmed.programmed
  refine ⟨t, h, ht, hcode, hresult, ?_⟩
  rw [hch]
  exact ⟨harmed.oldest, harmed.st, harmed.inflight, harmed.used_self, harmed.used_other,
    by rw [haddr, chunkAddr_toNat hs.legal], by rw [hstride, ew_toNat],
    by rw [hcount, transferCount_rx_toNat hs.legal hr], hen, harmed.armed, harmed.free_w, harmed.free_ws, harmed.q,
    harmed.n, harmed.held, harmed.txOut, honly⟩

/-! ### The retry step (R175) -/

theorem step_fsm_rx {s : State} {c : Ch} (hr : c.isRx = true) (hturn : s.turn = .fsm c) :
    step s = .next (s.advance.setCh c (rxRetry s.cfg c (s.ch c))) := by
  rw [step, hturn, takeTurn, fsmTurn, if_neg (rx_not_tx hr), advance_ch]
  rfl

theorem rxRetry_arms {p : Params} {c : Ch} {x y : Chan} {h : Handle} (hst : x.st = .starved)
    (hacq : acquire p c x = some (h, y)) : rxRetry p c x = arm p c h y := by
  simp [rxRetry, rxRetryEnabled, hst, (acquire_eq hacq).1, hacq]

/-- Settles O42: the step is enabled, so it acquires the oldest free handle and arms the channel with it. -/
theorem rxRetryRearms : Obligations.RxRetryRearms := by
  intro s c hs hr hturn hst hne
  have hx : (s.ch c).Live s.cfg c := (hs.chan c).live (by simp [hst])
  obtain ⟨h, y, hacq, harmed⟩ := exists_armedFrom hs.legal hx hne
  have hstep := step_fsm_rx hr hturn
  rw [rxRetry_arms hst hacq] at hstep
  refine ⟨_, h, hstep, ?_⟩
  rw [ch_setCh_same]
  exact ⟨harmed.oldest, harmed.inflight, harmed.st, harmed.programmed, harmed.armed, harmed.used_self, harmed.used_other,
    harmed.free_w, harmed.free_ws, harmed.free_slots, harmed.q, harmed.n, harmed.held, harmed.txOut, setCh_code ..,
    setCh_result .., onlyChan_setCh ..⟩

end Sys2Proof.Machine
end

section
/-! The completion handler of a receive channel, path by path (43_channel_rx.md R172, R173, R174, R182). -/

namespace Sys2Proof.Machine

/-- The completed chunk `h` holds CAP_c bytes. -/
def filled (p : Params) (c : Ch) (h : Handle) (x : Chan) : Chan := x.setUsed h (BitVec.ofNat 16 (p.chan c).cap)

/-- The completed chunk `h` is in the queue. -/
def queued (p : Params) (c : Ch) (h : Handle) (x : Chan) : Chan :=
  { filled p c h x with q := x.q.push (p.chan c).k h }

theorem usedOf_filled {p : Params} {c : Ch} {x : Chan} {h : Handle} (hlt : h.toNat < x.used.length) (g : Handle) :
    (filled p c h x).usedOf g = if g = h then BitVec.ofNat 16 (p.chan c).cap else x.usedOf g :=
  usedOf_setUsed x h g _ hlt

theorem rxComplete_idle {p : Params} {c : Ch} {x : Chan} (hst : x.st ≠ .active) : rxComplete p c x = x := by
  unfold rxComplete
  split
  · next hactive _ => exact absurd hactive hst
  · rfl

section
variable {p : Params} {c : Ch} {x y : Chan} {h g : Handle}

theorem rxComplete_full (hst : x.st = .active) (hi : x.inflight = some h) (hfull : x.q.fullW (p.chan c).k = true) :
    rxComplete p c x = program p c h (filled p c h x) := by
  simp [rxComplete, hst, hi, hfull, filled]

theorem rxComplete_refill (hst : x.st = .active) (hi : x.inflight = some h) (hroom : x.q.fullW (p.chan c).k = false)
    (hacq : acquire p c (queued p c h x) = some (g, y)) : rxComplete p c x = arm p c g y := by
  have hy : y.st = .active := (acquire_st hacq).trans hst
  simp only [queued, filled] at hacq
  simp only [rxComplete, hst, hi, setUsed_q, hroom, hacq, arm, hy]
  rfl

theorem rxComplete_starve (hst : x.st = .active) (hi : x.inflight = some h) (hroom : x.q.fullW (p.chan c).k = false)
    (hview : x.f.r = x.f.ws) :
    rxComplete p c x = stop { queued p c h x with inflight := none, st := .starved } := by
  have hacq : acquire p c (queued p c h x) = none := acquire_none_iff_view_empty.2 hview
  simp only [queued, filled] at hacq
  simp only [rxComplete, hst, hi, setUsed_q, hroom, hacq, queued, filled]
  rfl

/-- The refill acquires a chunk that is not the one just queued. -/
theorem exists_armedFrom_queued (hp : p.Legal) (hx : x.Live p c) (hi : x.inflight = some h) (hne : x.f.r ≠ x.f.ws) :
    ∃ g y, g ≠ h ∧ acquire p c (queued p c h x) = some (g, y) ∧ ArmedFrom p c (queued p c h x) g (arm p c g y) := by
  obtain ⟨y, hacq⟩ := acquire_of_view (p := p) (c := c) (x := queued p c h x) hne
  have hlt : (freeRdData p c (queued p c h x)).toNat < (queued p c h x).used.length :=
    (freeRdData_lt_used hp hx hne).trans_eq (setUsed_used_length ..).symm
  refine ⟨_, y, ?_, hacq, armedFrom_arm hx.free_ok hlt hacq⟩
  have hnodup := placed_nodup hp (placed_of_live hx)
  simp only [Chan.places, free_contents_eq_cons hx.free_ok hne, hi, List.nil_append, List.cons_append, List.nodup_cons] at hnodup
  intro e
  have hfree : freeRdData p c x = h := e
  exact hnodup.1 (by simp [hfree])

/-- What the handler leaves on every path. -/
theorem rxComplete_frame (hp : p.Legal) (hx : x.Live p c) (hi : x.inflight = some h) (e : y = rxComplete p c x) :
    y.usedOf h = BitVec.ofNat 16 (p.chan c).cap ∧ (∀ g, g ≠ h → y.inflight ≠ some g → y.usedOf g = x.usedOf g) ∧
      y.n = x.n ∧ y.held = x.held ∧ y.txOut = x.txOut ∧ y.q.r = x.q.r ∧ y.q.ws = x.q.ws ∧ y.q.rs = x.q.rs ∧
      y.f.w = x.f.w ∧ y.f.ws = x.f.ws := by
  subst e
  have hst : x.st = .active := hx.inflight_iff.2 (by simp [hi])
  have hused := usedOf_filled (p := p) (c := c) (inflight_lt_used hp hx hi)
  have hself := (hused h).trans (if_pos rfl)
  have hother : ∀ g, g ≠ h → (filled p c h x).usedOf g = x.usedOf g := fun g hg => (hused g).trans (if_neg hg)
  cases hroom : x.q.fullW (p.chan c).k with
  | true =>
    rw [rxComplete_full hst hi hroom]
    exact ⟨hself, fun g hg _ => hother g hg, rfl, rfl, rfl, rfl, rfl, rfl, rfl, rfl⟩
  | false =>
    by_cases hview : x.f.r = x.f.ws
    · rw [rxComplete_starve hst hi hroom hview]
      exact ⟨hself, fun g hg _ => hother g hg, rfl, rfl, rfl, rfl, rfl, rfl, rfl, rfl⟩
    · obtain ⟨g, y, hgh, hacq, harmed⟩ := exists_armedFrom_queued hp hx hi hview
      rw [rxComplete_refill hst hi hroom hacq, harmed.q, harmed.inflight]
      exact ⟨(harmed.used_other h hgh.symm).trans hself,
        fun g' hg' hne => (harmed.used_other g' fun e => hne (e ▸ rfl)).trans (hother g' hg'),
        harmed.n, harmed.held, harmed.txOut, rfl, rfl, rfl, harmed.free_w, harmed.free_ws⟩

/-- With room in its view the handler has put the completed chunk in the queue, whether it finds another or not. -/
theorem rxComplete_q (hp : p.Legal) (hx : x.Live p c) (hi : x.inflight = some h) (hroom : x.q.fullW (p.chan c).k = false) :
    (rxComplete p c x).q = x.q.push (p.chan c).k h := by
  have hst : x.st = .active := hx.inflight_iff.2 (by simp [hi])
  by_cases hview : x.f.r = x.f.ws
  · rw [rxComplete_starve hst hi hroom hview]
    rfl
  · obtain ⟨g, y, -, hacq, harmed⟩ := exists_armedFrom_queued hp hx hi hview
    rw [rxComplete_refill hst hi hroom hacq, harmed.q]
    rfl

end

/-- Settles O41: the two views, of the queue and of the free ring, choose the path; each path is an equation for the channel
the handler leaves. -/
theorem rxCompletePaths : Obligations.RxCompletePaths := by
  intro p c x y h e
  refine ⟨fun hst => e.trans (rxComplete_idle hst), fun hp _ hx hi => ?_⟩
  have hst : x.st = .active := hx.inflight_iff.2 (by simp [hi])
  have room : x.q.occW (p.chan c).k ≠ (p.chan c).k → x.q.fullW (p.chan c).k = false :=
    fun hne => Bool.eq_false_iff.2 (mt fullW_iff.1 hne)
  refine ⟨rxComplete_frame hp hx hi e, fun hfull => ?_, fun hne => ?_, fun hne hview => ?_, fun hne hview => ?_⟩
  · rw [rxComplete_full hst hi (fullW_iff.2 hfull)] at e
    subst e
    exact ⟨rfl, rfl, hi, hst, programmedFor_program .., rfl⟩
  · rw [e, rxComplete_q hp hx hi (room hne)]
    exact (queueOk_push h hx.queue_ok (room hne)).2
  · obtain ⟨g, z, -, hacq, harmed⟩ := exists_armedFrom_queued hp hx hi hview
    rw [e, rxComplete_refill hst hi (room hne) hacq]
    exact ⟨g, harmed.oldest, harmed.inflight, harmed.st, harmed.used_self, harmed.programmed, harmed.armed⟩
  · rw [e, rxComplete_starve hst hi (room hne) hview]
    exact ⟨rfl, rfl, rfl, rfl⟩

end Sys2Proof.Machine
end

section
/-! The host takes a received chunk and gives it back (43_channel_rx.md R177, R178). -/

namespace Sys2Proof.Machine

/-- A held bit after one is written. -/
theorem holds_of_set {x y : Chan} {h : Handle} {b : Bool} (e : y.held = x.held.set h.toNat b)
    (hlt : h.toNat < x.held.length) (g : Handle) : y.holds g = if g = h then b else x.holds g := by
  unfold Chan.holds
  rw [e]
  by_cases hgh : g = h
  · subst hgh
    simp [List.getD_eq_getElem?_getD, hlt]
  · have hne : h.toNat ≠ g.toNat := fun e => hgh (BitVec.eq_of_toNat_eq e.symm)
    simp [List.getD_eq_getElem?_getD, hgh, hne]

/-- Each handle of a receive channel has a held bit (10_state.md R29). -/
theorem lt_held_length {p : Params} {c : Ch} {x : Chan} {h : Handle} (hr : c.isRx = true) (hx : x.Live p c)
    (hh : h.toNat < x.n.toNat) : h.toNat < x.held.length := by
  rw [hx.held_length, if_pos hr]
  exact hh.trans_le hx.n_le

/-! ### RX_GET_NC (R177) -/

section
variable {s : State} {c : Ch}

theorem exec_rxGetNc_uninit (hr : c.isRx = true) (hst : (s.ch c).st = .uninit) :
    exec (.rxGetNc c) s = raise .badState s := (if_neg (rx_not_tx hr)).trans (if_pos hst)

theorem exec_rxGetNc_empty (hr : c.isRx = true) (hst : (s.ch c).st ≠ .uninit) (hview : (s.ch c).q.r = (s.ch c).q.ws) :
    exec (.rxGetNc c) s = raise .queueEmpty s := by
  simp [exec, execRxGetNc, rx_not_tx hr, hst, queueGet_none.2 (emptyR_iff.2 hview)]

theorem exec_rxGetNc_ready (h : RxGetNcReady c s) :
    exec (.rxGetNc c) s =
      complete ((s.ch c).usedOf ((s.ch c).q.front (s.cfg.chan c).k) ++ 0#8 ++ (s.ch c).q.front (s.cfg.chan c).k)
        (s.setCh c { s.ch c with
          q := (s.ch c).q.pop (s.cfg.chan c).k
          held := (s.ch c).held.set ((s.ch c).q.front (s.cfg.chan c).k).toNat true }) := by
  obtain ⟨hr, hst, hsome⟩ := h
  simp [exec, execRxGetNc, rx_not_tx hr, hst, queueGet_entry hsome]

end

/-- Settles O44: the head of the queue is in that one place, so it is not held before; the command moves it to the held ones. -/
theorem rxGetNcHandsOver : Obligations.RxGetNcHandsOver := by
  intro s c hs hr
  refine ⟨exec_rxGetNc_uninit hr, exec_rxGetNc_empty hr, fun hready => ?_⟩
  have ⟨_, hst, hsome⟩ := hready
  have hx : (s.ch c).Live s.cfg c := (hs.chan c).live hst
  have hcontents := (queueOk_pop hx.queue_ok hsome).2
  obtain ⟨hlt, -⟩ := front_initialised hs.legal hx hsome
  obtain ⟨t, ht, hcode, hresult, hch, honly⟩ := exec_completes (exec_rxGetNc_ready hready)
  have hholds := holds_of_set (x := s.ch c) (congrArg Chan.held hch) (lt_held_length hr hx hlt)
  refine ⟨t, (s.ch c).q.front (s.cfg.chan c).k, ht, hcode,
    hresult.trans (result_concat ..), ?_, holds_eq_false hs.legal hx (by simp [hcontents]), (hholds _).trans (if_pos rfl),
    fun g hg => (hholds g).trans (if_neg hg), ?_⟩
  · rw [hch]
    exact hcontents
  · rw [hch]
    exact ⟨rfl, rfl, rfl, rfl, rfl, rfl, rfl, rfl, rfl, rfl, rfl, honly⟩

/-! ### RX_RELEASE (R178) -/

section
variable {s : State} {c : Ch} {h : Handle}

theorem exec_rxRelease_uninit (hr : c.isRx = true) (hst : (s.ch c).st = .uninit) :
    exec (.rxRelease c h) s = raise .badState s := (if_neg (rx_not_tx hr)).trans (if_pos hst)

theorem exec_rxRelease_invalid (hr : c.isRx = true) (hst : (s.ch c).st ≠ .uninit)
    (hbad : (s.ch c).n.toNat ≤ h.toNat ∨ (s.ch c).holds h = false) :
    exec (.rxRelease c h) s = raise .invalidHandle s := by
  refine ((if_neg (rx_not_tx hr)).trans (if_neg hst)).trans ?_
  by_cases hn : (s.ch c).n.toNat ≤ h.toNat
  · exact if_pos hn
  · exact (if_neg hn).trans (if_pos (by simp [hbad.resolve_left hn]))

theorem exec_rxRelease_ready (hready : RxReleaseReady c h s) :
    exec (.rxRelease c h) s =
      complete 0#32 (s.setCh c (release s.cfg c h { s.ch c with held := (s.ch c).held.set h.toNat false })) := by
  obtain ⟨hr, hst, hn, hheld⟩ := hready
  simp [exec, execRxRelease, rx_not_tx hr, hst, hn.not_ge, hheld]

end

/-- Settles O46: a held handle is outside the free ring, so the ring has a slot for it. -/
theorem rxReleaseReturnsChunk : Obligations.RxReleaseReturnsChunk := by
  intro s c h hs hr
  refine ⟨exec_rxRelease_uninit hr, exec_rxRelease_invalid hr, fun hready => ?_⟩
  have ⟨_, hst, hn, hheld⟩ := hready
  have hx : (s.ch c).Live s.cfg c := (hs.chan c).live hst
  have hout : h ∉ (s.ch c).f.contents (s.cfg.chan c).p := fun hmem => by
    simp [holds_eq_false hs.legal hx (List.mem_append_left _ hmem)] at hheld
  have hroom := occ_lt_of_not_free hs.legal hx hn hout
  obtain ⟨t, ht, hcode, hresult, hch, honly⟩ := exec_completes (exec_rxRelease_ready hready)
  have hholds := holds_of_set (x := s.ch c) (congrArg Chan.held hch) (lt_held_length hr hx hn)
  refine ⟨t, ht, hcode, hresult, (hholds h).trans (if_pos rfl),
    fun g hg => (hholds g).trans (if_neg hg), ?_⟩
  rw [hch]
  exact ⟨release_contents hx.free_ok hroom, rfl, rfl, rfl, rfl, rfl, rfl, rfl, rfl, rfl, honly⟩

end Sys2Proof.Machine
end

section
/-! CH_INIT on a channel of either direction (43_channel_rx.md R170, 44_channel_tx.md R200). -/

namespace Sys2Proof.Machine

/-- The channel CH_INIT leaves: a transmit channel has no held bits (10_state.md R29), so one record serves both directions. -/
def initChan (p : Params) (c : Ch) (count : Byte) (x : Chan) : Chan :=
  { poolInit p c count x with
    q := { x.q with w := 0, r := 0, ws := 0, rs := 0 }
    held := List.replicate (if c.isRx then (p.chan c).nmax else 0) false
    inflight := none
    per := { cfgAddr := 0#32, cfgCount := 0#16, cfgStride := 0#2, en := false, armed := false }
    st := .idle }

theorem initRx_eq {p : Params} {c : Ch} (hr : c.isRx = true) (count : Byte) (x : Chan) :
    initRx p c count x = initChan p c count x := by simp [initRx, initChan, hr]

theorem initTx_reset {p : Params} {c : Ch} (ht : c.isTx = true) (count : Byte) :
    initTx p c count (Chan.reset p c) = initChan p c count (Chan.reset p c) := by
  simp [initTx, initChan, poolInit, Chan.reset, tx_not_rx ht]

/-- CH_INIT in one text for both directions: the checks in the rules' order, then the channel and its entry. -/
theorem exec_chInit {s : State} (hs : s.Inv) (c : Ch) (count : Byte) :
    exec (.chInit c count) s =
      if (s.ch c).st ≠ .uninit then raise .badState s
      else if count = 0#8 ∨ (s.cfg.chan c).nmax < count.toNat then raise .invalidConfig s
      else if (s.entry (s.cfg.chan c).irq).bound then raise .alreadyBound s
      else complete 0#32 ((s.setCh c (initChan s.cfg c count (s.ch c))).bind (s.cfg.chan c).irq (internalCb c)
        (c.bits.setWidth 16)) := by
  by_cases ht : c.isTx = true
  · have hinit : ¬(s.ch c).st ≠ .uninit → initTx s.cfg c count (s.ch c) = initChan s.cfg c count (s.ch c) := by
      intro hst
      rw [(hs.chan c).uninit (not_not.1 hst), initTx_reset ht]
    have hcb : internalCb c = 1#4 := by simp [internalCb, tx_not_rx ht]
    rw [exec, execChInit, if_pos ht, chInitTx, hcb]
    split
    · rfl
    · next hst => rw [hinit hst]
  · have hr : c.isRx = true := by simpa [Ch.isRx] using ht
    have hcb : internalCb c = 0#4 := by simp [internalCb, hr]
    rw [exec, execChInit, if_neg ht, chInitRx, initRx_eq hr, hcb]

theorem initChan_contents {p : Params} {c : Ch} {count : Byte} {x : Chan} (hp : p.Legal) (hx : x = Chan.reset p c)
    (hcount : count.toNat ≤ (p.chan c).nmax) :
    (initChan p c count x).f.contents (p.chan c).p = (List.range count.toNat).map (BitVec.ofNat 8) :=
  poolInit_contents (x := x) (by simp [hx, Chan.reset]) (hcount.trans (nmax_le_p (legal_chan hp c).2.2.1))

theorem initChan_usedOf (p : Params) (c : Ch) (count : Byte) (x : Chan) (h : Handle) :
    (initChan p c count x).usedOf h = 0#16 := by
  simp only [Chan.usedOf, initChan, poolInit, List.getD_eq_getElem?_getD, List.getElem?_replicate]
  split_ifs <;> rfl

theorem initChan_holds (p : Params) (c : Ch) (count : Byte) (x : Chan) (h : Handle) :
    (initChan p c count x).holds h = false := by
  simp only [Chan.holds, initChan, List.getD_eq_getElem?_getD, List.getElem?_replicate]
  split_ifs <;> rfl

/-- Settles O38: the two directions are one command, whose channel starts from its reset value and whose entry lies in the
table. -/
theorem chInitFillsThePool : Obligations.ChInitFillsThePool := by
  intro s c count hs
  have hexec := exec_chInit hs c count
  refine ⟨fun hst => hexec.trans (if_pos hst), fun hst hbad => ?_, fun hst hpos hle hbound => ?_, fun hready => ?_⟩
  · exact (hexec.trans (if_neg (not_not.2 hst))).trans (if_pos hbad)
  · exact ((hexec.trans (if_neg (not_not.2 hst))).trans (if_neg (by simp [hpos, hle]))).trans (if_pos hbound)
  obtain ⟨hst, hpos, hle, hfree⟩ := hready
  have hcount : ¬(count = 0#8 ∨ (s.cfg.chan c).nmax < count.toNat) := by
    rintro (rfl | hlt)
    · exact absurd hpos (by decide)
    · omega
  rw [if_neg (not_not.2 hst), if_neg hcount, if_neg (by simp [hfree])] at hexec
  obtain ⟨-, -, -, -, -, -, hirq, -⟩ := legal_chan hs.legal c
  have hentry := fun j => entry_bind (s.setCh c (initChan s.cfg c count (s.ch c))) (s.cfg.chan c).irq j (internalCb c)
    (c.bits.setWidth 16) (by simpa [hs.table.length] using hirq)
  have hch := fun d => ch_update_bind s c d (initChan s.cfg c count (s.ch c)) (s.cfg.chan c).irq (internalCb c)
    (c.bits.setWidth 16) .ok 0#32
  refine ⟨_, hexec, rfl, rfl, ?_⟩
  rw [(hch c).trans (if_pos rfl)]
  exact ⟨rfl, rfl, rfl, initChan_contents hs.legal ((hs.chan c).uninit hst) hle, rfl, rfl, rfl, rfl, rfl, rfl, rfl,
    initChan_usedOf _ _ _ _, initChan_holds _ _ _ _, rfl, rfl, (hentry _).trans (if_pos rfl),
    fun j hj => ((hentry j).trans (if_neg hj)).trans (setCh_entry ..), setCh_pending .., setCh_cbOut ..,
    fun d hd => (hch d).trans (if_neg hd), fun _ => congrArg (Memory.read · _) (setCh_sys ..), by simp [SamePort]⟩

end Sys2Proof.Machine
end

section
/-! CH_START on a transmit channel (44_channel_tx.md R201), and the head of the queue put in flight by the kick step (R204) and
by the completion handler (R205, R206). -/

namespace Sys2Proof.Machine

/-! ### CH_START on a transmit channel (R201) -/

theorem exec_chStart_tx {c : Ch} (ht : c.isTx = true) (s : State) : exec (.chStart c) s = chStartTx c s := if_pos ht

/-- Settles O40: past its one check the command completes on the state as it is. -/
theorem chStartOnTransmitDoesNothing : Obligations.ChStartOnTransmitDoesNothing := fun s _ ht =>
  ⟨fun hst => (exec_chStart_tx ht s).trans (if_pos hst), fun hst => (exec_chStart_tx ht s).trans (if_neg hst)⟩

/-! ### The head of the queue put in flight -/

/-- The kick and the refill of the handler in one text: the head of the queue is taken, put in flight and programmed. -/
def launch (p : Params) (c : Ch) (x : Chan) : Chan :=
  program p c (x.q.front (p.chan c).k)
    { x with q := x.q.pop (p.chan c).k, inflight := some (x.q.front (p.chan c).k), st := .active }

section
variable {p : Params} {c : Ch} {x : Chan} {h : Handle}

theorem txKick_eq_launch (hst : x.st = .idle) (hview : x.q.r ≠ x.q.ws) : txKick p c x = launch p c x := txKick_eq hst hview

theorem contents_eq_front_cons_launch (hq : x.q.Ok (p.chan c).k) (hview : x.q.r ≠ x.q.ws) :
    x.q.contents (p.chan c).k = x.q.front (p.chan c).k :: (launch p c x).q.contents (p.chan c).k :=
  (queueOk_pop hq (Bool.eq_false_iff.2 (mt emptyR_iff.1 hview))).2

theorem programmedFor_launch : programmedFor p c (x.q.front (p.chan c).k) (launch p c x) := programmedFor_program ..

/-- The count and the stride of a live transmit channel multiply to the used length of the chunk in flight (46_peripheral.md
R240). -/
theorem cfgCount_mul_ew_tx (hp : p.Legal) (ht : c.isTx = true) (hx : x.Live p c) (hi : x.inflight = some h) :
    x.per.cfgCount.toNat * c.ew = (x.usedOf h).toNat := by
  obtain ⟨hbytes, -⟩ := transfer_bytes hp hx hi
  obtain ⟨-, hstride, -, -⟩ := hx.programmed h hi
  rwa [Periph.transferBytes, hstride, ew_toNat, if_neg (by simp [tx_not_rx ht])] at hbytes

end

/-! ### The kick step (R204) -/

theorem step_fsm_tx {s : State} {c : Ch} (ht : c.isTx = true) (hturn : s.turn = .fsm c) :
    step s = .next (s.advance.setCh c (txKick s.cfg c (s.ch c))) := by
  rw [step, hturn, takeTurn, fsmTurn, if_pos ht, advance_ch]
  rfl

/-- Settles O49: the step is enabled, so it launches the head of the queue; the channel it leaves is live, which gives the
length of the transfer. -/
theorem txKickStartsTransfer : Obligations.TxKickStartsTransfer := by
  intro s c hs ht hturn hst hview
  have hx : (s.ch c).Live s.cfg c := (hs.chan c).live (by simp [hst])
  have hstep := step_fsm_tx ht hturn
  have hlive := live_txKick hx
  rw [txKick_eq_launch hst hview] at hstep hlive
  obtain ⟨haddr, hstride, -, hen⟩ := programmedFor_launch (p := s.cfg) (c := c) (x := s.ch c)
  refine ⟨_, (s.ch c).q.front (s.cfg.chan c).k, hstep, ?_⟩
  rw [ch_setCh_same]
  exact ⟨contents_eq_front_cons_launch hx.queue_ok hview, rfl, rfl, by rw [haddr, chunkAddr_toNat hs.legal],
    by rw [hstride, ew_toNat], cfgCount_mul_ew_tx hs.legal ht hlive rfl, hen, rfl, rfl, rfl, rfl, rfl, rfl, rfl, rfl, rfl,
    setCh_code .., setCh_result .., onlyChan_setCh ..⟩

/-! ### The completion handler (R205, R206) -/

theorem txComplete_idle {p : Params} {c : Ch} {x : Chan} (hst : x.st ≠ .active) : txComplete p c x = x := by
  unfold txComplete
  split
  · next hactive _ => exact absurd hactive hst
  · rfl

section
variable {p : Params} {c : Ch} {x : Chan} {h : Handle}

theorem txComplete_refill (hst : x.st = .active) (hi : x.inflight = some h) (hview : x.q.r ≠ x.q.ws) :
    txComplete p c x = launch p c (release p c h x) := by
  have hget := queueGet_entry (d := (p.chan c).k) (Bool.eq_false_iff.2 (mt emptyR_iff.1 hview))
  simp only [txComplete, hst, hi, release_st, release_q, hget, launch]

theorem txComplete_last (hst : x.st = .active) (hi : x.inflight = some h) (hview : x.q.r = x.q.ws) :
    txComplete p c x = stop { release p c h x with inflight := none, st := .idle } := by
  have hget : x.q.get (p.chan c).k = none := queueGet_none.2 (emptyR_iff.2 hview)
  simp only [txComplete, hst, hi, release_q, hget]

/-- What the handler does alike on both paths: the release, and the producer's side of the queue left alone. -/
theorem txComplete_frame (hst : x.st = .active) (hi : x.inflight = some h) :
    (txComplete p c x).f = (release p c h x).f ∧ (txComplete p c x).used = x.used ∧ (txComplete p c x).n = x.n ∧
      (txComplete p c x).held = x.held ∧ (txComplete p c x).txOut = x.txOut ∧ (txComplete p c x).q.w = x.q.w ∧
      (txComplete p c x).q.ws = x.q.ws ∧ (txComplete p c x).q.rs = x.q.rs := by
  by_cases hview : x.q.r = x.q.ws
  · rw [txComplete_last hst hi hview]
    exact ⟨rfl, rfl, rfl, rfl, rfl, rfl, rfl, rfl⟩
  · rw [txComplete_refill hst hi hview]
    exact ⟨rfl, rfl, rfl, rfl, rfl, rfl, rfl, rfl⟩

/-- The chunk in flight is in that one place, so the free ring has a slot for it (10_state.md R51). -/
theorem release_inflight_contents (hp : p.Legal) (hx : x.Live p c) (hi : x.inflight = some h) :
    (release p c h x).f.contents (p.chan c).p = x.f.contents (p.chan c).p ++ [h] := by
  have hnodup : (x.places p c).Nodup := placed_nodup hp (placed_of_live hx)
  have hlt : h.toNat < x.n.toNat := placed_lt hp (placed_of_live hx) (by simp [Chan.places, hi])
  have hout : h ∉ x.f.contents (p.chan c).p := fun hmem =>
    List.disjoint_of_nodup_append hnodup hmem (by simp [hi])
  exact release_contents hx.free_ok (occ_lt_of_not_free hp hx hlt hout)

end

/-- Settles O50: the queue's view chooses the path; each path is an equation for the channel the handler leaves. -/
theorem txCompletePaths : Obligations.TxCompletePaths := by
  intro p c x y h e
  subst e
  refine ⟨txComplete_idle, fun hp _ hx hi => ?_⟩
  have hst : x.st = .active := hx.inflight_iff.2 (by simp [hi])
  refine ⟨?_, fun hview => ?_, fun hview => ?_⟩
  · obtain ⟨hf, hrest⟩ := txComplete_frame (p := p) (c := c) hst hi
    rw [hf]
    exact ⟨release_inflight_contents hp hx hi, rfl, rfl, hrest⟩
  · rw [txComplete_refill hst hi hview]
    exact ⟨_, contents_eq_front_cons_launch (x := release p c h x) hx.queue_ok hview, rfl, rfl, programmedFor_launch, rfl⟩
  · rw [txComplete_last hst hi hview]
    exact ⟨rfl, rfl, rfl, rfl⟩

end Sys2Proof.Machine
end

section
/-! NOP (45_command_port.md R221): the row of the opcode map with opcode 0 is selected by the word 0 alone. -/

namespace Sys2Proof

theorem opcodeMap_mask_opcode : ∀ r ∈ opcodeMap, opcOf r.mask = BitVec.allOnes 4 := by decide

/-- A row fixes the whole opcode (30_encoding.md R83). -/
theorem opcOf_of_selects {r : OpRow} {w : Word} (hr : r ∈ opcodeMap) (hs : r.selects w = true) :
    opcOf w = opcOf r.pattern := by
  obtain ⟨hopc, -⟩ := (r.selects_iff w).1 hs
  rwa [and_eq_self (opcodeMap_mask_opcode r hr)] at hopc

theorem opcodeMap_opcode_zero :
    ∀ r ∈ opcodeMap, opcOf r.pattern = 0#4 → r.pattern = 0#32 ∧ r.mask = BitVec.allOnes 32 := by decide

theorem eq_zero_of_selects_of_opcOf_eq_zero {r : OpRow} {w : Word} (hr : r ∈ opcodeMap) (hs : r.selects w = true)
    (hopc : opcOf w = 0#4) : w = 0#32 := by
  obtain ⟨hpattern, hmask⟩ := opcodeMap_opcode_zero r hr ((opcOf_of_selects hr hs).symm.trans hopc)
  rwa [OpRow.selects, beq_iff_eq, and_eq_self hmask, hpattern] at hs

theorem Machine.exec_nop (s : Machine.State) : Machine.exec .nop s = .next { s with code := .ok, result := 0#32 } := rfl

/-- Settles O13: NOP only completes; a row that a word of opcode 0 selects is the one of NOP, whose mask fixes every bit, so a
nonzero such word selects no row. -/
theorem nopOnlyClearsCodeAndResult : Obligations.NopOnlyClearsCodeAndResult := by
  refine ⟨Machine.exec_nop, fun w hopc hne => (decode_error_iff w).2 fun r hr => Bool.eq_false_iff.2 fun hs => ?_⟩
  exact hne (eq_zero_of_selects_of_opcOf_eq_zero hr hs hopc)

end Sys2Proof
end

section
/-! The turns of the environment: a pulse on an external line, and a transmit completion (46_peripheral.md R242, R243). -/

namespace Sys2Proof.Machine

/-! ### The state whose turn is taken -/

@[simp] theorem advance_cfg (s : State) : s.advance.cfg = s.cfg := rfl

@[simp] theorem advance_pending (s : State) : s.advance.pending = s.pending := rfl

theorem advance_chunkBytes (s : State) (c : Ch) (h : Handle) : s.advance.chunkBytes c h = s.chunkBytes c h := by
  rw [State.chunkBytes, advance_ch]
  rfl

/-! ### EXTIRQ (R243, 60_exceptions.md R253 F4) -/

theorem step_extIrq {s : State} {i : Nat} (hturn : s.turn = .extIrq i) (hi : i < s.cfg.m) :
    step s = simulate i s.advance .next := by
  rw [step, hturn]
  exact if_neg hi.not_ge

/-- Settles O29: the pulse acts as DISP_SWTRIG does; F4 is asked of exactly the armed transmit channels, and otherwise the step
sets one bit, which exists. -/
theorem externalPulseSetsPending : Obligations.ExternalPulseSetsPending := by
  intro s i hs hturn hi
  have hstep := step_extIrq hturn hi
  refine ⟨fun harmed => ?_, fun hdisarmed => ?_⟩
  · exact hstep.trans (simulate_armed _ (by simpa only [advance_ch, advance_cfg] using harmed))
  · have hpending := fun j => isPending_setPending s.advance i j true (hs.pending_length.symm ▸ hi)
    exact ⟨_, hstep.trans (simulate_disarmed _ (by simpa only [advance_ch, advance_cfg] using hdisarmed)),
      (hpending i).trans (if_pos rfl), fun j hj => (hpending j).trans (if_neg hj), rfl⟩

/-! ### PERIPH_c on a transmit channel (R242) -/

/-- The channel a transmit completion leaves: the sent bytes appended to the trace, the peripheral disarmed. -/
def sentChan (x : Chan) (sent : List Byte) : Chan :=
  { x with per := { x.per with armed := false }, txOut := x.txOut ++ [sent] }

/-- A transmit completion in one text: one channel and one pending bit are written. -/
theorem txTransfer_eq (c : Ch) (s : State) :
    txTransfer c s = (s.setCh c (sentChan (s.ch c) (s.sys.readRun (s.ch c).per.cfgAddr.toNat
      (s.ch c).per.transferBytes))).setPending (s.cfg.chan c).irq true := by cases c <;> rfl

/-- A chunk is in flight only on an initialised channel (10_state.md R24). -/
theorem live_of_inflight {p : Params} {c : Ch} {x : Chan} {h : Handle} (hx : x.Ok p c) (hi : x.inflight = some h) :
    x.Live p c := by
  refine hx.live fun hst => ?_
  rw [hx.uninit hst] at hi
  exact absurd hi (by simp [Chan.reset])

section
variable {s : State} {c : Ch} {h : Handle}

/-- The programmed range of a transmit channel holds the used bytes of the chunk in flight (R240). -/
theorem readRun_transfer (hp : s.cfg.Legal) (hx : (s.ch c).Live s.cfg c) (ht : c.isTx = true)
    (hi : (s.ch c).inflight = some h) :
    s.sys.readRun (s.ch c).per.cfgAddr.toNat (s.ch c).per.transferBytes = s.chunkBytes c h := by
  obtain ⟨hbytes, haddr, -⟩ := transfer_bytes hp hx hi
  rw [hbytes, haddr, if_neg (by simp [tx_not_rx ht]), State.chunkBytes]

/-- With a chunk in flight the peripheral is enabled and its range lies in SYS, so an armed one completes. -/
theorem periphTurn_tx (hp : s.cfg.Legal) (hx : (s.ch c).Live s.cfg c) (ht : c.isTx = true)
    (harmed : (s.ch c).per.armed = true) (hi : (s.ch c).inflight = some h) :
    periphTurn c s =
      .next ((s.setCh c (sentChan (s.ch c) (s.chunkBytes c h))).setPending (s.cfg.chan c).irq true) := by
  obtain ⟨-, -, -, hen⟩ := hx.programmed h hi
  obtain ⟨-, haddr, hfits, -⟩ := transfer_bytes hp hx hi
  rw [periphTurn, if_neg (by simp [hen, harmed]), if_neg (by omega), if_pos ht, txTransfer_eq,
    readRun_transfer hp hx ht hi]

theorem step_periph_tx (hs : s.Inv) (ht : c.isTx = true) (hturn : s.turn = .periph c)
    (harmed : (s.ch c).per.armed = true) (hi : (s.ch c).inflight = some h) :
    step s = .next ((s.advance.setCh c (sentChan (s.ch c) (s.chunkBytes c h))).setPending (s.cfg.chan c).irq true) := by
  have hturns := periphTurn_tx (s := s.advance) (c := c) (h := h) hs.legal
  rw [advance_ch, advance_chunkBytes] at hturns
  rw [step, hturn]
  exact hturns (live_of_inflight (hs.chan c) hi) ht harmed hi

end

/-- Settles O54: the completion reads the used bytes of the chunk in flight, and writes its channel and one pending bit, which
exists. -/
theorem transmitCompletion : Obligations.TransmitCompletion := by
  intro s c h hs ht hturn harmed hi
  obtain ⟨-, -, -, -, -, -, hirq, -⟩ := legal_chan hs.legal c
  have hpending := fun j => isPending_setPending (s.advance.setCh c (sentChan (s.ch c) (s.chunkBytes c h)))
    (s.cfg.chan c).irq j true (by simpa [hs.pending_length] using hirq)
  refine ⟨_, step_periph_tx hs ht hturn harmed hi, ?_⟩
  rw [setPending_ch, ch_setCh_same]
  exact ⟨rfl, rfl, fun d hd => by rw [setPending_ch, ch_setCh_other _ _ hd, advance_ch], (hpending _).trans (if_pos rfl),
    fun j hj => ((hpending j).trans (if_neg hj)).trans (setCh_isPending ..), fun _ => congrArg (Memory.read · _) (setCh_sys ..),
    setCh_table .., setCh_cbOut .., setCh_code .., setCh_result .., by simp [SamePort]⟩

end Sys2Proof.Machine
end

section
/-! The bytes of SYS that the host owns (60_exceptions.md R254), byte by byte. -/

namespace Sys2Proof.Machine

theorem cap_pos {p : Params} (hp : p.Legal) (c : Ch) : 0 < (p.chan c).cap := by
  obtain ⟨-, -, -, hcap, -⟩ := legal_chan hp c
  exact hcap

theorem ownsChunk_iff (s : State) (c : Ch) (h : Handle) :
    s.ownsChunk c h = true ↔
      (s.ch c).st ≠ .uninit ∧ h.toNat < (s.ch c).n.toNat ∧ ¬ (c.isRx = true ∧ (s.ch c).holds h = true) := by
  simp only [State.ownsChunk, Bool.and_eq_true, bne_iff_ne, decide_eq_true_eq, Bool.not_eq_true', ← Bool.not_eq_true,
    and_assoc]

/-- A chunk, which is not empty, meets a range when they have a byte in common: the higher of their two first bytes. -/
theorem chunkMeets_iff_exists_byte {p : Params} (hp : p.Legal) (c : Ch) (h : Handle) (a n : Nat) :
    chunkMeets p c h a n = true ↔
      ∃ x, (a ≤ x ∧ x < a + n) ∧ chunkAddr p c h ≤ x ∧ x < chunkAddr p c h + (p.chan c).cap := by
  have hcap := cap_pos hp c
  simp only [chunkMeets, Bool.and_eq_true, decide_eq_true_eq]
  constructor
  · intro hmeets
    exact ⟨max a (chunkAddr p c h), by omega, by omega⟩
  · rintro ⟨x, hrange, hchunk⟩
    omega

/-- The model's test counts the chunks below `n_c`; every handle of a chunk that is the block's is one of them. -/
theorem hostOwns_iff_handle (s : State) (a n : Nat) :
    s.hostOwns a n = true ↔ ∀ (c : Ch) (h : Handle), s.ownsChunk c h = true → ¬ chunkMeets s.cfg c h a n = true := by
  rw [hostOwns_iff]
  constructor
  · intro hno c h hown hmeets
    obtain ⟨-, hlt, -⟩ := (ownsChunk_iff s c h).1 hown
    exact hno c h.toNat hlt (by simpa using ⟨hown, hmeets⟩)
  · rintro hno c j - ⟨hown, hmeets⟩
    exact hno c _ hown hmeets

/-- Settles O21: the test fails exactly for a chunk that is the block's and has a byte in common with the range. -/
theorem hostOwnershipOfBytes : Obligations.HostOwnershipOfBytes := by
  intro s a n hp
  rw [hostOwns_iff_handle]
  constructor
  · intro hno x hax hxn c h hcx hxc hlt hst
    by_contra hheld
    exact hno c h ((ownsChunk_iff s c h).2 ⟨hst, hlt, hheld⟩)
      ((chunkMeets_iff_exists_byte hp c h a n).2 ⟨x, ⟨hax, hxn⟩, hcx, hxc⟩)
  · intro hbytes c h hown hmeets
    obtain ⟨hst, hlt, hheld⟩ := (ownsChunk_iff s c h).1 hown
    obtain ⟨x, ⟨hax, hxn⟩, hcx, hxc⟩ := (chunkMeets_iff_exists_byte hp c h a n).1 hmeets
    exact hheld (hbytes x hax hxn c h hcx hxc hlt hst)

end Sys2Proof.Machine
end

section
/-! The encoding and the decoder undo each other (30_encoding.md R82 to R86). -/

namespace Sys2Proof

/-! ### The fields of an encoded word (R86) -/

@[simp] theorem opcOf_enc (opc : BitVec 4) (c : BitVec 2) (b : Byte) (x : Half) : opcOf (enc opc c b x) = opc :=
  opcOf_concat ..

@[simp] theorem chOf_enc (opc : BitVec 4) (c : BitVec 2) (b : Byte) (x : Half) : chOf (enc opc c b x) = c :=
  chOf_concat ..

@[simp] theorem rsvOf_enc (opc : BitVec 4) (c : BitVec 2) (b : Byte) (x : Half) : rsvOf (enc opc c b x) = 0#2 :=
  rsvOf_concat ..

@[simp] theorem bOf_enc (opc : BitVec 4) (c : BitVec 2) (b : Byte) (x : Half) : bOf (enc opc c b x) = b :=
  bOf_concat ..

@[simp] theorem xOf_enc (opc : BitVec 4) (c : BitVec 2) (b : Byte) (x : Half) : xOf (enc opc c b x) = x :=
  xOf_concat ..

@[simp] theorem irqOf_enc (opc cb irq : BitVec 4) (c : BitVec 2) (x : Half) : irqOf (enc opc c (cb ++ irq) x) = irq :=
  irqOf_concat ..

@[simp] theorem cbOf_enc (opc cb irq : BitVec 4) (c : BitVec 2) (x : Half) : cbOf (enc opc c (cb ++ irq) x) = cb :=
  cbOf_concat ..

/-- Settles O1: in the branch of its opcode the decoder reads back each field of the encoded word, and the direction that
`wf` asks for is the one the branch checks. -/
theorem encodedCommandDecodesBack : Obligations.EncodedCommandDecodesBack := by
  intro i hwf
  cases i with
  | nop => simp [encode, decode, unusedZero]
  | blkReset => simp [encode, decode, unusedZero]
  | dispReg irq cb ctx => simp [encode, decode, unusedZero]
  | dispSwtrig irq => simp [encode, decode, unusedZero]
  | chInit c count => simp [encode, decode, unusedZero]
  | chStart c => simp [encode, decode, unusedZero]
  | rxGet c => simpa [Instr.wf, encode, decode, directed] using hwf
  | rxGetNc c => simpa [Instr.wf, encode, decode, directed] using hwf
  | rxRelease c h => simpa [Instr.wf, encode, decode, directed] using hwf
  | txPut c => simpa [Instr.wf, encode, decode, directed] using hwf

/-- A word without reserved bits is `enc` of its fields. -/
theorem enc_fields_of_rsv {w : Word} (h : rsvOf w = 0#2) : enc (opcOf w) (chOf w) (bOf w) (xOf w) = w :=
  word_eq_iff.2 (by simp [h])

theorem bOf_of_cbOf_eq_zero {w : Word} (h : cbOf w = 0#4) : bOf w = 0#4 ++ irqOf w := by rw [bOf_eq, h]

/-- Settles O2: a branch of the decoder fixes to 0 the fields its command does not use, so the word is `enc` of the command's
own fields. -/
theorem decodedWordEncodesBack : Obligations.DecodedWordEncodesBack := by
  intro w i h
  unfold decode at h
  split at h
  case isFalse => cases h
  case isTrue hrsv =>
    have hword := enc_fields_of_rsv hrsv
    split at h
    case h_11 => cases h
    all_goals
      next hnat =>
      have hopc := congrArg (BitVec.ofNat 4) hnat
      rw [BitVec.ofNat_toNat, BitVec.setWidth_eq] at hopc
      simp only [unusedZero_eq_directed, directed_ok, decide_eq_true_eq] at h
      obtain ⟨hzero, hdir, rfl⟩ := h
      refine ⟨by simp [Instr.wf, hdir], Eq.trans ?_ hword⟩
      simp [encode, hopc, hzero, Ch.bits_ofBits, ← bOf_eq, bOf_of_cbOf_eq_zero]

/-- Settles O3: the decoder and the rows agree word by word, and the rows have different mnemonics. -/
theorem decodingFollowsOpcodeMap : Obligations.DecodingFollowsOpcodeMap :=
  fun w => ⟨fun _ hr => selects_iff_decode hr w, fun _ hr _ hr' => selects_unique hr hr'⟩

/-! ### The operands are fields (R82) -/

theorem encode_of_decode {w : Word} {i : Instr} (h : decode w = .ok i) : encode i = w := (decodedWordEncodesBack w i h).2

/-- Settles O4: the word that decodes to a command is the command's encoding, whose fields are its operands. -/
theorem operandsAreFields : Obligations.OperandsAreFields := by
  refine ⟨fun w irq cb ctx h => ?_, fun w irq h => ?_, fun w c n h => ?_, fun w c h hd => ?_, fun w c i hi h => ?_,
    fun s => ⟨rfl, rfl⟩⟩
  · rw [← encode_of_decode h]
    exact ⟨(irqOf_enc ..).symm, (cbOf_enc ..).symm, (xOf_enc ..).symm⟩
  · rw [← encode_of_decode h]
    exact (irqOf_enc ..).symm
  · rw [← encode_of_decode h]
    exact ⟨(chOf_enc ..).symm, (bOf_enc ..).symm⟩
  · rw [← encode_of_decode hd]
    exact ⟨(chOf_enc ..).symm, (bOf_enc ..).symm⟩
  · rw [← encode_of_decode h]
    simp only [List.mem_cons, List.not_mem_nil, or_false] at hi
    rcases hi with rfl | rfl | rfl | rfl
    all_goals exact (chOf_enc ..).symm

/-- Settles O6, by running the decoder on each word. -/
theorem exampleWordsDecode : Obligations.ExampleWordsDecode := by
  unfold Obligations.ExampleWordsDecode
  decide

end Sys2Proof
end

section
/-! The dispatcher's registers, and the accesses of the host to the register window (10_state.md R37, R48, R49; 45_command_port.md
R220, R226 to R228). -/

namespace Sys2Proof.Machine

/-! ### IRQ_PEND and DISP_ENT_i (R48, R49) -/

theorem foldl_pending_getLsbD (s : State) (i : Nat) {n : Nat} (hn : n ≤ 32) :
    ((List.range n).foldl (fun w j => w ||| ((bit (s.isPending j)).setWidth 32 <<< j)) 0#32).getLsbD i =
      (decide (i < n) && s.isPending i) := by
  induction n with
  | zero => simp
  | succ n ih =>
    rw [List.range_succ, List.foldl_append, List.foldl_cons, List.foldl_nil, BitVec.getLsbD_or, ih (by omega),
      BitVec.getLsbD_shiftLeft]
    obtain hlt | rfl | hgt := Nat.lt_trichotomy i n
    · simp [hlt, Nat.lt_succ_of_lt hlt]
    · simp [show i < 32 by omega]
    · simp [hgt.not_gt, show ¬i < n + 1 by omega, BitVec.getLsbD_of_ge _ _ (show 1 ≤ i - n by omega)]

theorem irqPendReg_getLsbD {s : State} (hp : s.cfg.Legal) (i : Nat) :
    s.irqPendReg.getLsbD i = (decide (i < s.cfg.m) && s.isPending i) := by
  obtain ⟨-, -, -, -, hm, -⟩ := hp
  exact foldl_pending_getLsbD s i (by omega)

theorem regRead_dispEnt (s : State) {i : Nat} (hi : i < 16) : s.regRead (0x0C0 + 4 * i) = s.dispEntReg i := by
  have hindex : (0x0C0 + 4 * i - 0x0C0) / 4 = i := by omega
  simp (disch := omega) only [State.regRead, if_neg, if_pos, hindex]

theorem dispEntReg_fields {s : State} {i : Nat} (hi : i < s.cfg.m) :
    (s.dispEntReg i).getLsbD 0 = (s.entry i).bound ∧ (s.dispEntReg i).extractLsb' 1 3 = 0#3 ∧
    (s.dispEntReg i).extractLsb' 4 4 = (s.entry i).cb ∧ (s.dispEntReg i).extractLsb' 8 8 = 0#8 ∧
    (s.dispEntReg i).extractLsb' 16 16 = (s.entry i).ctx := by
  rw [State.dispEntReg, if_pos hi]
  simp (disch := decide) only [BitVec.extractLsb'_append_eq_of_le, BitVec.extractLsb'_append_eq_of_add_le,
    BitVec.getLsbD_append]
  simp

/-- Settles O19: M is at most 16, so every id has its bit and its register. -/
theorem dispatcherRegisters : Obligations.DispatcherRegisters := by
  intro s hp
  have hbit := irqPendReg_getLsbD hp
  obtain ⟨-, -, -, -, hm, -⟩ := hp
  refine ⟨fun i hi => ?_, fun i hi => ?_, fun i hi => ?_, fun i hi hi16 => ?_⟩
  · exact (hbit i).trans (by simp [hi])
  · exact (hbit i).trans (by simp [hi.not_gt])
  · rw [regRead_dispEnt s (by omega)]
    exact dispEntReg_fields hi
  · rw [regRead_dispEnt s hi16]
    exact if_neg hi.not_gt

/-! ### A HOST turn -/

/-- The state in which the host's next action is taken. -/
theorem step_host {s : State} {op : HostOp} {rest : List HostOp} (hturn : s.turn = .host) (hhost : s.host = op :: rest) :
    step s = hostAct op { s.advance with host := rest } := by
  rw [step, hturn]
  simp only [takeTurn, hostTurn, State.advance, hhost]

/-! ### Aligned words in the window (R226, R227) -/

section
variable {p : Params} {off : Nat}

/-- REG_BASE is a multiple of 0x100, so no address of the window wraps (10_state.md R37). -/
theorem regAddr_toNat (hp : p.Legal) (hoff : off < 0x100) : (p.regAddr off).toNat = p.regBase.toNat + off := by
  obtain ⟨-, -, -, -, -, hbase, -⟩ := hp
  have hlt := p.regBase.isLt
  rw [Params.regAddr, BitVec.toNat_add, BitVec.toNat_ofNat]
  omega

theorem touchesWindow_regAddr (hp : p.Legal) (hoff : off < 0x100) : touchesWindow p .word (p.regAddr off) = true := by
  simp [touchesWindow, regAddr_toNat hp hoff, Width.bytes, hoff]
  omega

theorem alignedWord_regAddr (hp : p.Legal) (hoff : off < 0x100) (h4 : off % 4 = 0) :
    alignedWord .word (p.regAddr off) = true := by
  have haddr := regAddr_toNat hp hoff
  obtain ⟨-, -, -, -, -, hbase, -⟩ := hp
  simp only [alignedWord, haddr, Bool.and_eq_true, beq_iff_eq, true_and]
  omega

theorem hostWriteReg_regAddr {s : State} (hp : s.cfg.Legal) (hoff : off < 0x100) (h4 : off % 4 = 0) (v : Word) :
    hostWriteReg .word (s.cfg.regAddr off) v s = .next (s.regWrite off v) := by
  simp [hostWriteReg, touchesWindow_regAddr hp hoff, alignedWord_regAddr hp hoff h4, regAddr_toNat hp hoff]

theorem hostReadReg_regAddr {s : State} (hp : s.cfg.Legal) (hoff : off < 0x100) (h4 : off % 4 = 0) :
    hostReadReg .word (s.cfg.regAddr off) s = .next { s with rdata := s.regRead off } := by
  simp [hostReadReg, touchesWindow_regAddr hp hoff, alignedWord_regAddr hp hoff h4, regAddr_toNat hp hoff]

end

/-- Settles O15: the step is `regWrite` at the offset, whose branches are the rows of the write map. -/
theorem hostRegisterWrite : Obligations.HostRegisterWrite := by
  rintro s u off v rest hp hoff h4 hturn hhost rfl
  have hstep : step s = .next (State.regWrite { s.advance with host := rest } off v) :=
    (step_host hturn hhost).trans (hostWriteReg_regAddr (s := { s.advance with host := rest }) hp hoff h4 v)
  rw [hstep]
  refine ⟨?_, ?_, ?_, ?_, ?_, ?_, fun hcmd harg0 harg1 hstatus => ?_⟩
  · rintro rfl hbusy
    simp [State.regWrite, issue, State.advance, hbusy]
  · rintro rfl hbusy
    simp [State.regWrite, issue, State.advance, hbusy]
  · rintro rfl
    rfl
  · rintro rfl
    rfl
  · rintro rfl hbit
    simp [State.regWrite, hbit]
  · rintro rfl hbit
    have hkeep : ¬v.getLsbD 8 = true := Bool.eq_false_iff.1 hbit
    rw [State.regWrite, if_neg (by decide), if_neg (by decide), if_neg (by decide), if_pos rfl, if_neg hkeep]
  · simp [State.regWrite, hcmd, harg0, harg1, hstatus]

/-- The offsets with no readable register (R37): CMD, and the two gaps of the map. -/
theorem regRead_empty (s : State) {off : Nat}
    (h : off = 0x004 ∨ (0x01C ≤ off ∧ off < 0x040) ∨ (0x084 ≤ off ∧ off < 0x0C0)) : s.regRead off = 0#32 := by
  rcases h with rfl | hgap | hgap
  · rfl
  · simp (disch := omega) only [State.regRead, if_neg]
  · simp (disch := omega) only [State.regRead, if_neg]

theorem regRead_congr_host (s : State) (rest : List HostOp) (off : Nat) :
    State.regRead { s.advance with host := rest } off = s.regRead off := by
  have hch : ∀ c, State.ch { s.advance with host := rest } c = s.ch c := fun c => ch_congr rfl c
  simp only [State.regRead, State.chReg, hch]
  rfl

/-- Settles O16: the step only holds the value read, and no register reads the host's queue or the schedule. -/
theorem hostRegisterRead : Obligations.HostRegisterRead := by
  intro s off rest hp hoff h4 hturn hhost
  refine ⟨?_, regRead_empty s⟩
  have hread := hostReadReg_regAddr (s := { s.advance with host := rest }) hp hoff h4
  rw [regRead_congr_host] at hread
  exact (step_host hturn hhost).trans hread

/-! ### Other accesses (R228) -/

theorem touchesWindow_eq_false {p : Params} {width : Width} {addr : Word}
    (hout : addr.toNat + width.bytes ≤ p.regBase.toNat ∨ p.regBase.toNat + 0x100 ≤ addr.toNat) :
    touchesWindow p width addr = false := by
  refine Bool.eq_false_iff.2 fun hin => ?_
  simp only [touchesWindow, Bool.and_eq_true, decide_eq_true_eq] at hin
  omega

theorem hostAct_reg_fault {s : State} {width : Width} {addr v : Word} {op : HostOp}
    (hop : op = .readReg width addr ∨ op = .writeReg width addr v) (hin : touchesWindow s.cfg width addr = true)
    (hbad : alignedWord width addr = false) : hostAct op s = .fault .registerAccess := by
  rcases hop with rfl | rfl
  · simp [hostAct, hostReadReg, hin, hbad]
  · simp [hostAct, hostWriteReg, hin, hbad]

theorem hostAct_reg_outside {s : State} {width : Width} {addr v : Word} {op : HostOp}
    (hop : op = .readReg width addr ∨ op = .writeReg width addr v) (hout : touchesWindow s.cfg width addr = false) :
    hostAct op s = .next s := by
  rcases hop with rfl | rfl
  · simp [hostAct, hostReadReg, hout]
  · simp [hostAct, hostWriteReg, hout]

/-- Settles O20: the window is asked for first, the alignment only of an access that meets it. -/
theorem misalignedRegisterAccessFaults : Obligations.MisalignedRegisterAccessFaults := by
  intro s width addr v op rest hturn hop hhost
  rw [step_host hturn hhost]
  refine ⟨fun hlo hhi hbad => hostAct_reg_fault hop ?_ ?_, fun hout =>
    hostAct_reg_outside hop (touchesWindow_eq_false hout)⟩
  · simp [touchesWindow, hlo, hhi]
  · simpa [alignedWord, imp_iff_not_or] using hbad

end Sys2Proof.Machine
end

section
/-! The reset action (70_reset_and_hazards.md R280, R284; 45_command_port.md R222). -/

namespace Sys2Proof.Machine

/-! ### The state after power-up -/

@[simp] theorem resetWith_ch (p : Params) (c : Ch) : (State.resetWith p).ch c = Chan.reset p c := by cases c <;> rfl

@[simp] theorem resetAction_ch (s : State) (c : Ch) : (resetAction s).ch c = Chan.reset s.cfg c := by cases c <;> rfl

@[simp] theorem resetWith_entry (p : Params) (i : Nat) :
    (State.resetWith p).entry i = { bound := false, cb := 0#4, ctx := 0#16 } := by
  simp only [State.entry, State.resetWith, List.getD_eq_getElem?_getD, List.getElem?_replicate]
  split <;> rfl

theorem chanAtReset_reset (p : Params) (c : Ch) : (Chan.reset p c).AtReset := by
  simp +contextual [Chan.AtReset, Chan.reset]

theorem atReset_resetWith (p : Params) : (State.resetWith p).AtReset :=
  ⟨rfl, rfl, rfl, rfl, rfl, rfl, rfl, rfl, rfl, fun c => resetWith_ch p c ▸ chanAtReset_reset p c,
    fun _ hb => List.eq_of_mem_replicate hb, fun _ he => List.eq_of_mem_replicate he, rfl⟩

/-- The reset table does not speak of SYS, the configuration or the model's own fields. -/
theorem atReset_resetAction (s : State) : (resetAction s).AtReset := atReset_resetWith s.cfg

/-! ### What the registers read (R280) -/

section
variable {s : State}

theorem isPending_of_atReset (h : s.AtReset) (i : Nat) : s.isPending i = false := by
  obtain ⟨-, -, -, -, -, -, -, -, -, -, hpending, -⟩ := h
  rw [State.isPending, List.getD_eq_getElem?_getD]
  cases hb : s.pending[i]? with
  | none => rfl
  | some b => exact hpending b (List.mem_of_getElem? hb)

theorem entry_of_atReset (h : s.AtReset) (i : Nat) : s.entry i = { bound := false, cb := 0#4, ctx := 0#16 } := by
  obtain ⟨-, -, -, -, -, -, -, -, -, -, -, htable, -⟩ := h
  rw [State.entry, List.getD_eq_getElem?_getD]
  cases he : s.table[i]? with
  | none => rfl
  | some e => exact htable e (List.mem_of_getElem? he)

theorem irqPendReg_of_atReset (h : s.AtReset) : s.irqPendReg = 0#32 := by
  simp [State.irqPendReg, isPending_of_atReset h, bit]

theorem dispEntReg_of_atReset (h : s.AtReset) (i : Nat) : s.dispEntReg i = 0#32 := by
  rw [State.dispEntReg, entry_of_atReset h, ite_eq_right_iff]
  exact fun _ => rfl

end

section
variable {x : Chan}

theorem chStatReg_of_atReset (h : x.AtReset) (c : Ch) : chStatReg c x = 0#32 := by
  obtain ⟨hst, hi, hn, -, -, -, -, -, -, -, -, -, -, hheld, -⟩ := h
  have hcount : heldN c x = 0 := by
    rw [heldN, ite_eq_right_iff]
    exact fun _ => List.count_eq_zero.2 fun hmem => absurd (hheld true hmem) (by decide)
  rw [chStatReg, hst, hi, hn, hcount]
  rfl

theorem chQstatReg_of_atReset (h : x.AtReset) (p : Params) (c : Ch) : chQstatReg p c x = 0x00010000#32 := by
  obtain ⟨-, -, -, -, -, hw, hrs, hr, hws, -, -, hfr, hfws, -⟩ := h
  have hocc : occT p c x = 0 := by simp [occT, Queue.occR, Queue.occW, hw, hrs, hr, hws, ptrSub]
  have hfree : freeT p c x = 0 := by simp [freeT, FreeRing.occR, hfr, hfws, ptrSub]
  have hempty : emptyT p c x = true := by simp [emptyT, hocc]
  have hfull : fullT p c x = false := by simp [fullT, hocc, (k_pos (p.chan c)).ne]
  rw [chQstatReg, hocc, hfree, hempty, hfull]
  rfl

end

theorem readsReset_of_atReset {s : State} (h : s.AtReset) : s.ReadsReset := by
  have ⟨_, _, _, _, _, hbusy, hovr, hcode, hresult, hchans, _, _, _⟩ := h
  refine ⟨rfl, ?_, hresult, fun c => ⟨?_, ?_⟩, rfl, fun c => ⟨regRead_channel s c (k := 0x8) (by decide),
    regRead_channel s c (k := 0xC) (by decide)⟩, irqPendReg_of_atReset h,
    fun i hi => (regRead_dispEnt s hi).trans (dispEntReg_of_atReset h i)⟩
  · calc s.regRead 0x010 = s.statusReg := rfl
      _ = 0#32 := by rw [State.statusReg, hbusy, hovr, hcode]; rfl
  · exact (regRead_channel s c (k := 0x0) (by decide)).trans (chStatReg_of_atReset (hchans c) c)
  · exact (regRead_channel s c (k := 0x4) (by decide)).trans (chQstatReg_of_atReset (hchans c) s.cfg c)

/-! ### Launch (R284) -/

theorem launch_of_atReset {s : State} (h : s.AtReset) : s.Launch := by
  obtain ⟨-, -, -, -, -, hbusy, -, -, -, hchans, hpending, htable, hcb⟩ := h
  refine ⟨hbusy, fun c => ?_, fun c => ?_, fun c => ?_, hpending, fun e he => htable e he ▸ rfl, fun c => ?_, hcb⟩
  all_goals
    obtain ⟨hst, hi, -, -, -, hw, hrs, hr, hws, -, hfw, hfr, hfws, -, -, -, -, -, -, htx⟩ := hchans c
  · exact ⟨hst, hi⟩
  · exact ⟨hw.trans hr.symm, hws.trans hw.symm, hrs.trans hr.symm⟩
  · exact ⟨hfw.trans hfr.symm, hfws.trans hfw.symm⟩
  · exact htx

/-- Settles O14: BLK_RESET and `rst_n` run the same reset action, and every state with the reset table's values reads as R280
lists and meets the launch premises. -/
theorem resetValues : Obligations.ResetValues := by
  refine ⟨fun s => ?_, fun s hturn => ?_, fun p => ?_⟩
  · have hreset := atReset_resetAction s
    exact ⟨resetAction s, rfl, hreset, readsReset_of_atReset hreset, rfl, rfl, rfl, rfl, rfl, rfl, rfl, rfl, rfl⟩
  · have hreset := atReset_resetAction s.advance
    exact ⟨resetAction s.advance, by rw [step, hturn, takeTurn], hreset, readsReset_of_atReset hreset, rfl, rfl⟩
  · have hreset := atReset_resetWith p
    exact ⟨hreset, readsReset_of_atReset hreset, launch_of_atReset hreset⟩

/-! ### The invariant after a reset (log 2) -/

theorem ok_reset (p : Params) (c : Ch) : (Chan.reset p c).Ok p c := ⟨fun _ => rfl, fun h => absurd rfl h⟩

theorem inv_resetWith {p : Params} (hp : p.Legal) : (State.resetWith p).Inv where
  legal := hp
  pending_length := List.length_replicate
  table :=
    { length := List.length_replicate
      unbound := fun e he _ => by
        rw [List.eq_of_mem_replicate he]
        exact ⟨rfl, rfl⟩
      bound_internal := fun i hbound => by simp at hbound
      initialised := fun c hst => by simp [Chan.reset] at hst }
  sys := ⟨List.Pairwise.nil, fun _ hx => absurd hx List.not_mem_nil⟩
  chan := fun c => resetWith_ch p c ▸ ok_reset p c

theorem defaultParams_legal : defaultParams.Legal := by decide

/-- Settles O56: with nothing bound and every channel at its reset value the clauses of the invariant are those of the
configuration. -/
theorem resetSatisfiesInvariant : Obligations.ResetSatisfiesInvariant :=
  ⟨fun _ hp => inv_resetWith hp, inv_resetWith defaultParams_legal⟩

end Sys2Proof.Machine
end

section
/-! Every step of every agent keeps the invariant (10_state.md R23 to R32, R51, R52; 42_dispatch.md R152). -/

namespace Sys2Proof.Machine

/-! ### Commands -/

theorem inv_resetAction {s : State} (h : s.Inv) : (resetAction s).Inv :=
  inv_congr (inv_sys (inv_resetWith h.legal) h.sys.canonical h.sys.inRange) rfl rfl rfl rfl rfl

theorem inv_setPending {s : State} (i : Nat) (b : Bool) (h : s.Inv) : (s.setPending i b).Inv :=
  inv_congr h rfl (setPending_pending_length ..) rfl rfl rfl

theorem inv_exec_dispReg {s t : State} {irq cb : BitVec 4} {ctx : Half} (h : s.Inv)
    (e : exec (.dispReg irq cb ctx) s = .next t) : t.Inv := by
  by_cases hbad : s.cfg.m ≤ irq.toNat ∨ cb = 0#4 ∨ cb = 1#4
  · exact inv_raise h ((exec_dispReg_invalid ctx hbad).symm.trans e)
  · rw [exec_dispReg_valid ctx hbad] at e
    obtain ⟨hirq, hcb⟩ := not_or.1 hbad
    obtain ⟨h0, h1⟩ := not_or.1 hcb
    split at e
    · exact inv_raise h e
    · next hfree => exact inv_complete (inv_bind_ext h (by omega) (Bool.eq_false_iff.2 hfree) h0 h1) e

/-- The channel CH_INIT leaves is initialised. -/
theorem live_initChan {p : Params} {c : Ch} {count : Byte} (hp : p.Legal) (hpos : 1 ≤ count.toNat)
    (hle : count.toNat ≤ (p.chan c).nmax) : (initChan p c count (Chan.reset p c)).Live p c :=
  live_init (n := count) (x := Chan.reset p c) hp hpos hle (by simp [Chan.reset]) (by simp [Chan.reset]) rfl rfl rfl rfl
    rfl rfl rfl ⟨rfl, rfl⟩

/-- CH_INIT on a channel that is ready for it. -/
theorem inv_initChan {s : State} {c : Ch} {count : Byte} (h : s.Inv) (hready : ChInitReady c count s) :
    ((s.setCh c (initChan s.cfg c count (s.ch c))).bind (s.cfg.chan c).irq (internalCb c) (c.bits.setWidth 16)).Inv := by
  obtain ⟨hst, hpos, hle, hfree⟩ := hready
  have hlive := live_initChan h.legal hpos hle
  rw [← (h.chan c).uninit hst] at hlive
  exact inv_init h hst hfree hlive (by simp [initChan])

theorem inv_exec_chInit {s t : State} {c : Ch} {count : Byte} (h : s.Inv) (e : exec (.chInit c count) s = .next t) :
    t.Inv := by
  rw [exec_chInit h] at e
  split at e
  · exact inv_raise h e
  next hst =>
  split at e
  · exact inv_raise h e
  next hcount =>
  split at e
  · exact inv_raise h e
  next hfree =>
  obtain ⟨hne, hle⟩ := not_or.1 hcount
  have hpos : 1 ≤ count.toNat := Nat.one_le_iff_ne_zero.2 fun h0 => hne (BitVec.eq_of_toNat_eq h0)
  exact inv_complete (inv_initChan h ⟨not_not.1 hst, hpos, Nat.not_lt.1 hle, Bool.eq_false_iff.2 hfree⟩) e

/-- A command keeps the invariant, row by row of what it can do. -/
theorem inv_exec {i : Instr} {s t : State} (h : s.Inv) (e : exec i s = .next t) : t.Inv := by
  have live : ∀ {c}, (s.ch c).st ≠ .uninit → (s.ch c).Live s.cfg c := fun {c} hst => (h.chan c).live hst
  obtain ⟨k, r, rfl, -⟩ | ⟨-, rfl⟩ | ⟨irq, cb, ctx, rfl, -⟩ | ⟨irq, -, rfl⟩ | ⟨c, count, rfl, -⟩ | ⟨c, count, rfl, -⟩ |
    ⟨c, -, hr, hst, g, x, r, hacq, rfl⟩ | ⟨c, -, ⟨hr, hst, hsome, -, -, hfits, -⟩, r, rfl⟩ |
    ⟨c, -, ⟨hr, hst, hsome⟩, r, rfl⟩ | ⟨c, g, -, ⟨hr, hst, hn, hheld⟩, rfl⟩ |
    ⟨c, -, ⟨ht, hst, hlen, hcap, hew, -, hroom, -, -⟩, g, x, r, hacq, rfl⟩ := exec_cases e
  · exact inv_congr h rfl rfl rfl rfl rfl
  · exact inv_resetAction h
  · exact inv_exec_dispReg h e
  · exact inv_congr (inv_setPending irq.toNat true h) rfl rfl rfl rfl rfl
  · exact inv_exec_chInit h e
  · exact inv_exec_chInit h e
  · have hlive := live_arm h.legal hr (live (by simp [hst])) (by simp [hst]) hacq
    exact inv_congr (inv_live h (by simp [hst]) hlive (by simp [arm])) rfl rfl rfl rfl rfl
  · have hinv := inv_live h hst (live_rxGet h.legal (live hst) hsome) hst
    refine inv_congr (inv_sys hinv (copyHost_wf s _ _ _ h.sys.canonical) ?_) rfl rfl rfl rfl rfl
    rw [setCh_cfg]
    exact copyHost_bound s _ _ _ _ h.sys.inRange hfits
  · exact inv_congr (inv_live h hst (live_rxGetNc h.legal hr (live hst) hsome) hst) rfl rfl rfl rfl rfl
  · exact inv_congr (inv_live h hst (live_rxRelease h.legal hr (live hst) hheld) hst) rfl rfl rfl rfl rfl
  · have hx := live hst
    have hleg : usedLegal s.cfg c s.lenOp.toNat := by
      rw [usedLegal, if_neg (by simp [tx_not_rx ht])]
      exact ⟨hlen, hcap, hew⟩
    have hinv := inv_live h hst (live_txPut h.legal hx hleg hroom hacq) (by simpa [acquire_st hacq] using hst)
    refine inv_congr (inv_sys hinv (copyHost_wf s _ _ _ h.sys.canonical) ?_) rfl rfl rfl rfl rfl
    obtain ⟨-, hchunk, hpool⟩ := chunkAddr_in_pool h.legal ((acquire_lt h.legal hx hacq).trans_le hx.n_le)
    rw [setCh_cfg]
    exact copyHost_bound s _ _ _ _ h.sys.inRange (by omega)

/-! ### Turns -/

theorem inv_cmdengTurn {s t : State} (h : s.Inv) (e : cmdengTurn s = .next t) : t.Inv := by
  obtain ⟨rfl, -⟩ | ⟨-, -, -, rfl⟩ | ⟨i, u, -, -, hexec, rfl⟩ := cmdengTurn_cases e
  · exact h
  · exact inv_congr h rfl rfl rfl rfl rfl
  · exact inv_congr (inv_exec h hexec) rfl rfl rfl rfl rfl

theorem inv_hostTurn {s t : State} (h : s.Inv) (e : hostTurn s = .next t) : t.Inv := by
  unfold hostTurn at e
  split at e
  · next op rest _ => exact inv_host (s := { s with host := rest }) (inv_congr h rfl rfl rfl rfl rfl) e
  · exact inv_host h e

theorem inv_fsmTurn {s : State} {c : Ch} (h : s.Inv) : (fsmTurn c s).Inv := by
  unfold fsmTurn
  split
  · exact inv_map (txKick s.cfg c) h (by simp [txKick, txKickEnabled, Chan.reset]) live_txKick txKick_st
  · next ht =>
    have hr : c.isRx = true := by simpa [Ch.isRx] using ht
    exact inv_map (rxRetry s.cfg c) h (by simp [rxRetry, rxRetryEnabled, Chan.reset]) (live_rxRetry h.legal hr) rxRetry_st

theorem inv_periphTurn {s t : State} {c : Ch} (h : s.Inv) (e : periphTurn c s = .next t) : t.Inv := by
  unfold periphTurn at e
  split at e
  · cases e
  next hon =>
  have hen : (s.ch c).per.en = true := by
    simp only [Bool.not_eq_true', Bool.not_eq_false, Bool.and_eq_true] at hon
    exact hon.1
  split at e
  · cases e
  next hfits =>
  split at e <;> cases e
  · rw [txTransfer_eq]
    exact inv_signal h hen
  · exact inv_signal (inv_receiveBytes h (Nat.not_lt.1 hfits)) (receiveBytes_ch c c s ▸ hen)

theorem inv_extIrqTurn {s t : State} {i : Nat} (h : s.Inv) (e : extIrqTurn i s = .next t) : t.Inv := by
  simp only [extIrqTurn, simulate] at e
  split_ifs at e
  cases e
  exact inv_setPending i true h

theorem inv_takeTurn {u : Turn} {s t : State} (h : s.Inv) (e : takeTurn u s = .next t) : t.Inv := by
  cases u with
  | host => exact inv_hostTurn h e
  | cmdeng => exact inv_cmdengTurn h e
  | syncQueueW2R c =>
    cases e
    exact inv_map (fun x => { x with q := x.q.syncW2R }) h rfl live_syncQueueW2R Iff.rfl
  | syncQueueR2W c =>
    cases e
    exact inv_map (fun x => { x with q := x.q.syncR2W }) h rfl live_syncQueueR2W Iff.rfl
  | syncFreeW2R c =>
    cases e
    exact inv_map (fun x => { x with f := x.f.syncW2R }) h rfl live_syncFreeW2R Iff.rfl
  | disp =>
    cases e
    exact inv_disp h
  | fsm c =>
    cases e
    exact inv_fsmTurn h
  | periph c => exact inv_periphTurn h e
  | extIrq i => exact inv_extIrqTurn h e
  | rstN =>
    cases e
    exact inv_resetAction h

theorem inv_advance {s : State} (h : s.Inv) : s.advance.Inv := inv_congr h rfl rfl rfl rfl rfl

/-- Settles O57: each agent's turn keeps the invariant, and the schedule does not enter it. -/
theorem stepKeepsInvariant : Obligations.StepKeepsInvariant := fun _ _ h e => inv_takeTurn (inv_advance h) e

end Sys2Proof.Machine
end

section
/-! How a command ends, and the command that CMDENG executes (45_command_port.md R223; 60_exceptions.md R253;
70_reset_and_hazards.md R296). -/

namespace Sys2Proof.Machine

/-! ### The outcomes of a command -/

/-- The chunk that a copy of `n` bytes reads or fills: the head of the queue, or the next free chunk (43_channel_rx.md R176,
44_channel_tx.md R203). -/
def CopiesChunk (s : State) (c : Ch) (h : Handle) (n : Nat) : Prop :=
  (s.ch c).q.head (s.cfg.chan c).k = some h ∧ n = ((s.ch c).usedOf h).toNat ∨
    (∃ x, acquire s.cfg c (s.ch c) = some (h, x)) ∧ n ≤ (s.cfg.chan c).cap

/-- Every way command `i` can end: a failing check, its normal end, the reset, or one of the model's faults. -/
inductive ExecEnds (i : Instr) (s : State) : Res → Prop
  | raised (x : Code) : ExecEnds i s (raise x s)
  | completed (r : Word) (u : State) : ExecEnds i s (complete r u)
  | reset : ExecEnds i s (.next (resetAction s))
  | notHostOwned (c : Ch) (hi : i = .rxGet c ∨ i = .txPut c) : ExecEnds i s (.fault .sysNotHostOwned)
  | outOfRange (c : Ch) (h : Handle) (n : Nat) (hst : (s.ch c).st ≠ .uninit) (hc : CopiesChunk s c h n)
      (hover : s.cfg.sysSize < chunkAddr s.cfg c h + n) : ExecEnds i s (.fault .sysOutOfRange)
  | armed (irq : BitVec 4) (hi : i = .dispSwtrig irq) : ExecEnds i s (.fault .txCompletionWhileArmed)

theorem exec_ends (i : Instr) (s : State) : ExecEnds i s (exec i s) := by
  cases i with
  | nop => exact .completed _ _
  | blkReset => exact .reset
  | dispReg irq cb ctx =>
    simp only [exec, execDispReg]
    split_ifs
    exacts [.raised _, .raised _, .raised _, .completed _ _]
  | dispSwtrig irq =>
    simp only [exec, execDispSwtrig, simulate]
    split_ifs
    exacts [.raised _, .armed irq rfl, .completed _ _]
  | chInit c count =>
    simp only [exec, execChInit, chInitTx, chInitRx]
    split_ifs
    exacts [.raised _, .raised _, .raised _, .completed _ _, .raised _, .raised _, .raised _, .completed _ _]
  | chStart c =>
    simp only [exec, execChStart, chStartTx, chStartRx]
    split_ifs
    · exact .raised _
    · exact .completed _ _
    · exact .raised _
    · split
      exacts [.raised _, .completed _ _]
  | rxGet c =>
    simp only [exec, execRxGet]
    split; · exact .raised _
    split; · exact .raised _
    next hst =>
    split; · exact .raised _
    next h hhead =>
    split_ifs with _ _ _ _ hover
    exacts [.raised _, .raised _, .raised _, .notHostOwned c (.inl rfl), .outOfRange c h _ hst (.inl ⟨hhead, rfl⟩) hover,
      .completed _ _]
  | rxGetNc c =>
    simp only [exec, execRxGetNc]
    split; · exact .raised _
    split; · exact .raised _
    split
    exacts [.raised _, .completed _ _]
  | rxRelease c h =>
    simp only [exec, execRxRelease]
    split_ifs
    exacts [.raised _, .raised _, .raised _, .raised _, .completed _ _]
  | txPut c =>
    simp only [exec, execTxPut]
    split; · exact .raised _
    split; · exact .raised _
    next hst =>
    split; · exact .raised _
    next hlen =>
    split; · exact .raised _
    split; · exact .raised _
    split; · exact .raised _
    next h x hacq =>
    have hcap : s.lenOp.toNat ≤ (s.cfg.chan c).cap := by
      simp only [badTxLen, Bool.or_eq_true, decide_eq_true_eq, not_or, Nat.not_lt] at hlen
      exact hlen.1.2
    split_ifs with _ hover
    exacts [.notHostOwned c (.inr rfl), .outOfRange c h _ hst (.inr ⟨⟨x, hacq⟩, hcap⟩) hover, .completed _ _]

/-- Settles O9: of the ends of a command only a failing check leaves another code than OK. -/
theorem failingCommandChangesNothingElse : Obligations.FailingCommandChangesNothingElse := by
  intro i s t h hcode
  have hends := exec_ends i s
  rw [h] at hends
  cases hends with
  | raised x => rfl
  | completed r u => exact absurd rfl hcode
  | reset => exact absurd rfl hcode

theorem CopiesChunk.inPool {s : State} (hs : s.Inv) {c : Ch} {h : Handle} {n : Nat} (hst : (s.ch c).st ≠ .uninit)
    (hc : CopiesChunk s c h n) : h.toNat < (s.ch c).n.toNat ∧ n ≤ (s.cfg.chan c).cap := by
  have hx := (hs.chan c).live hst
  obtain ⟨hhead, rfl⟩ | ⟨⟨x, hacq⟩, hn⟩ := hc
  · rw [Queue.head] at hhead
    split_ifs at hhead with hempty
    cases hhead
    exact ⟨(front_initialised hs.legal hx (Bool.eq_false_iff.2 hempty)).1, usedOf_le_cap hx _⟩
  · exact ⟨acquire_lt hs.legal hx hacq, hn⟩

/-- A chunk of an initialised channel lies in SYS, and so does a copy from or to it (20_memory.md R62). -/
theorem CopiesChunk.inSys {s : State} (hs : s.Inv) {c : Ch} {h : Handle} {n : Nat} (hst : (s.ch c).st ≠ .uninit)
    (hc : CopiesChunk s c h n) : chunkAddr s.cfg c h + n ≤ s.cfg.sysSize := by
  obtain ⟨hlt, hn⟩ := hc.inPool hs hst
  obtain ⟨-, hchunk, hpool⟩ := chunkAddr_in_pool hs.legal (hlt.trans_le ((hs.chan c).live hst).n_le)
  omega

/-- Settles O10: the one other fault of the ends of a command is an access past the top of SYS, which the invariant excludes. -/
theorem commandsRaiseOnlyTheirFaults : Obligations.CommandsRaiseOnlyTheirFaults := by
  intro i s hs
  have hends := exec_ends i s
  generalize exec i s = r at hends ⊢
  cases hends with
  | raised x => exact .inl ⟨_, rfl⟩
  | completed r u => exact .inl ⟨_, rfl⟩
  | reset => exact .inl ⟨_, rfl⟩
  | notHostOwned c hi => exact .inr (.inl ⟨rfl, c, hi⟩)
  | outOfRange c h n hst hc hover => exact absurd (hc.inSys hs hst) hover.not_ge
  | armed irq hi => exact .inr (.inr ⟨rfl, irq, hi⟩)

/-! ### The CMDENG step (R223) -/

theorem step_executes {s : State} {i : Instr} (h : s.Executes i) : step s = clearBusy (exec i s.advance) := by
  obtain ⟨hturn, hbusy, hdec⟩ := h
  have hb : s.advance.busy = true := hbusy
  have hd : decode s.advance.cmdL = .ok i := hdec
  rw [step, hturn]
  simp only [takeTurn, cmdengTurn, hb, hd, if_true]

/-- Settles O7: the step is `clearBusy` of the command's outcome. -/
theorem stepRunsDecodedCommand : Obligations.StepRunsDecodedCommand := by
  intro s i h
  refine ⟨fun t ht => ?_, fun f hf => ?_⟩
  · rw [step_executes h, ht]
    rfl
  · rw [step_executes h, hf]
    rfl

/-! ### A latched command (R296, R299) -/

/-- BUSY and what was latched at issue are unchanged. -/
def SameLatch (s t : State) : Prop :=
  t.busy = s.busy ∧ t.cmdL = s.cmdL ∧ t.arg0L = s.arg0L ∧ t.arg1L = s.arg1L

theorem SameLatch.refl (s : State) : SameLatch s s := ⟨rfl, rfl, rfl, rfl⟩

theorem SameLatch.trans {s t u : State} (h : SameLatch s t) (h' : SameLatch t u) : SameLatch s u := by
  obtain ⟨h1, h2, h3, h4⟩ := h
  obtain ⟨h1', h2', h3', h4'⟩ := h'
  exact ⟨h1'.trans h1, h2'.trans h2, h3'.trans h3, h4'.trans h4⟩

theorem sameLatch_setCh (s : State) (c : Ch) (x : Chan) : SameLatch s (s.setCh c x) := by simp [SameLatch]

theorem sameLatch_runHandler (i : Nat) (e : Entry) (s : State) : SameLatch s (runHandler i e s) := by
  unfold runHandler
  split_ifs <;> simp [SameLatch]

theorem sameLatch_dispTurn (s : State) : SameLatch s (dispTurn s) := by
  rw [dispTurn_eq]
  split
  · exact .refl s
  · next i _ => exact sameLatch_runHandler i (s.entry i) (s.setPending i false)

/-- A write to CMD while BUSY = 1 is dropped (R220). -/
theorem sameLatch_regWrite {s : State} (hb : s.busy = true) (off : Nat) (v : Word) : SameLatch s (s.regWrite off v) := by
  unfold State.regWrite issue
  rw [if_pos hb]
  split_ifs <;> exact ⟨rfl, rfl, rfl, rfl⟩

theorem sameLatch_hostAct {op : HostOp} {s t : State} (hb : s.busy = true) (h : hostAct op s = .next t) :
    SameLatch s t := by
  cases op with
  | readReg width addr =>
    simp only [hostAct, hostReadReg] at h
    split_ifs at h <;> cases h <;> exact ⟨rfl, rfl, rfl, rfl⟩
  | writeReg width addr v =>
    simp only [hostAct, hostWriteReg] at h
    split_ifs at h <;> cases h
    · exact .refl s
    · exact sameLatch_regWrite hb _ v
  | readSys addr n =>
    simp only [hostAct, hostReadSys, hostSys] at h
    split_ifs at h
    cases h
    exact ⟨rfl, rfl, rfl, rfl⟩
  | writeSys addr bytes =>
    simp only [hostAct, hostWriteSys, hostSys] at h
    split_ifs at h
    cases h
    exact ⟨rfl, rfl, rfl, rfl⟩
  | wait =>
    cases h
    exact ⟨rfl, rfl, rfl, rfl⟩
  | retry times line =>
    simp only [hostAct, hostRetry] at h
    split at h <;> cases h <;> exact ⟨rfl, rfl, rfl, rfl⟩
  | retryTest times line =>
    cases h
    exact ⟨rfl, rfl, rfl, rfl⟩

theorem sameLatch_hostTurn {s t : State} (hb : s.busy = true) (h : hostTurn s = .next t) : SameLatch s t := by
  unfold hostTurn at h
  split at h
  · next op rest _ => exact sameLatch_hostAct (s := { s with host := rest }) hb h
  · exact sameLatch_hostAct hb h

theorem sameLatch_periphTurn {s t : State} {c : Ch} (h : periphTurn c s = .next t) : SameLatch s t := by
  unfold periphTurn at h
  split_ifs at h <;> cases h
  · simp [SameLatch, txTransfer, signalDone]
  · simp [SameLatch, rxTransfer, signalDone]

/-- Only CMDENG and the reset input touch a latched command. -/
theorem sameLatch_takeTurn {u : Turn} {s t : State} (hb : s.busy = true) (hcmd : u ≠ .cmdeng) (hrst : u ≠ .rstN)
    (h : takeTurn u s = .next t) : SameLatch s t := by
  cases u with
  | host => exact sameLatch_hostTurn hb h
  | cmdeng => exact absurd rfl hcmd
  | syncQueueW2R c => cases h; exact sameLatch_setCh ..
  | syncQueueR2W c => cases h; exact sameLatch_setCh ..
  | syncFreeW2R c => cases h; exact sameLatch_setCh ..
  | disp => cases h; exact sameLatch_dispTurn s
  | fsm c => cases h; exact sameLatch_setCh ..
  | periph c => exact sameLatch_periphTurn h
  | extIrq i =>
    simp only [takeTurn, extIrqTurn, simulate] at h
    split_ifs at h
    cases h
    exact ⟨rfl, rfl, rfl, rfl⟩
  | rstN => exact absurd rfl hrst

/-- Settles O11: no agent but CMDENG and the reset input touches a latched command. -/
theorem latchedCommandStaysLatched : Obligations.LatchedCommandStaysLatched := by
  intro s t h hb hcmd hrst
  obtain ⟨hbusy, hlatch⟩ := sameLatch_takeTurn (s := s.advance) hb hcmd hrst h
  exact ⟨hbusy.trans hb, hlatch⟩

/-- While CMDENG has not moved since, a run without a reset keeps the command latched. -/
theorem sameLatch_run {τ : Nat → Turn} {σ : Nat → State} (hrun : IsRun τ σ) (hrst : ∀ m, τ m ≠ .rstN) {n : Nat}
    (hb : (σ n).busy = true) {m : Nat} (hnm : n ≤ m) (hcmd : ∀ k, n ≤ k → k < m → τ k ≠ .cmdeng) :
    SameLatch (σ n) (σ m) := by
  induction m, hnm using Nat.le_induction with
  | base => exact .refl _
  | succ m hm ih =>
    have hsame := ih fun k hk hkm => hcmd k hk (hkm.trans m.lt_succ_self)
    have hbm : (σ m).advance.busy = true := hsame.1.trans hb
    exact hsame.trans (sameLatch_takeTurn (s := (σ m).advance) hbm (hcmd m hm m.lt_succ_self) (hrst m) (hrun m))

/-- Settles O12: weak fairness gives a CMDENG step; at the first one the command is still latched. -/
theorem everyIssuedCommandExecutes : Obligations.EveryIssuedCommandExecutes := by
  intro τ σ hrun hfair hrst n hb
  have hex : ∃ m, n ≤ m ∧ τ m = .cmdeng := by
    by_contra hnone
    push Not at hnone
    refine absurd (hfair .cmdeng rfl n fun m hm => ?_) fun ⟨m, hm, hτ⟩ => hnone m hm hτ
    exact (sameLatch_run hrun hrst hb hm fun k hk _ => hnone k hk).1.trans hb
  obtain ⟨hle, hτ⟩ := Nat.find_spec hex
  obtain ⟨hbusy, hlatch⟩ := sameLatch_run hrun hrst hb hle fun k hk hlt hcmd => Nat.find_min hex hlt ⟨hk, hcmd⟩
  exact ⟨Nat.find hex, hle, hτ, hbusy.trans hb, hlatch⟩

end Sys2Proof.Machine
end

section
/-! SYNC, the peripherals' refusals, and what a step does to SYS, to the pending bits and to the channels' states (41_async_fifo.md
R126; 46_peripheral.md R241, R245; 60_exceptions.md R255; 43_channel_rx.md R179; 44_channel_tx.md R207). -/

namespace Sys2Proof.Machine

/-! ### SYNC (R126) -/

/-- Settles O33: each turn writes one field of its channel. -/
theorem syncStepsCopyPointers : Obligations.SyncStepsCopyPointers := by
  refine fun s c => ⟨fun hturn => ?_, fun hturn => ?_, fun hturn => ?_⟩
  · rw [step, hturn, takeTurn, syncQueueW2R, advance_ch]
    rfl
  · rw [step, hturn, takeTurn, syncQueueR2W, advance_ch]
    rfl
  · rw [step, hturn, takeTurn, syncFreeW2R, advance_ch]
    rfl

/-! ### A peripheral without a step (R245, F3) -/

/-- Settles O55: the peripheral asks for both before anything else. -/
theorem disarmedPeripheralIsRefused : Obligations.DisarmedPeripheralIsRefused := by
  intro s c hturn hoff
  have hoff' : (!((s.ch c).per.en && (s.ch c).per.armed)) = true := by
    rcases hoff with hoff | hoff <;> simp [hoff]
  rw [step, hturn, takeTurn, periphTurn, advance_ch, if_pos hoff']

/-! ### SYS stays canonical (20_memory.md R60; log 8) -/

theorem exec_sys_wf {i : Instr} {s t : State} (h : s.sys.wf) (e : exec i s = .next t) : t.sys.wf := by
  obtain ⟨_, _, rfl, -⟩ | ⟨-, rfl⟩ | ⟨_, _, _, -, rfl⟩ | ⟨_, -, rfl⟩ | ⟨_, _, -, -, -, rfl⟩ | ⟨_, _, -, -, -, rfl⟩ |
    ⟨_, -, -, -, _, _, _, -, rfl⟩ | ⟨_, -, -, _, rfl⟩ | ⟨_, -, -, _, rfl⟩ | ⟨_, _, -, -, rfl⟩ |
    ⟨_, -, -, _, _, _, -, rfl⟩ := exec_cases e
  · exact h
  · exact h
  · exact h
  · exact h
  · simpa using h
  · simpa using h
  · simpa using h
  · exact copyHost_wf s _ _ _ h
  · simpa using h
  · simpa using h
  · exact copyHost_wf s _ _ _ h

theorem periphTurn_sys_wf {s t : State} {c : Ch} (h : s.sys.wf) (e : periphTurn c s = .next t) : t.sys.wf := by
  unfold periphTurn at e
  split_ifs at e <;> cases e
  · simpa [txTransfer, signalDone] using h
  · simpa [rxTransfer, signalDone, receiveBytes] using writeRun_wf _ _ _ h

theorem takeTurn_sys_wf {u : Turn} {s t : State} (h : s.sys.wf) (e : takeTurn u s = .next t) : t.sys.wf := by
  cases u with
  | host =>
    obtain ⟨-, -, -, -, hsys | ⟨a, bytes, hsys, -⟩⟩ := hostTurn_frame e
    · rwa [hsys]
    · rw [hsys]
      exact writeRun_wf _ _ _ h
  | cmdeng =>
    obtain ⟨rfl, -⟩ | ⟨-, -, -, rfl⟩ | ⟨i, u, -, -, hexec, rfl⟩ := cmdengTurn_cases e
    · exact h
    · exact h
    · exact exec_sys_wf (t := u) h hexec
  | syncQueueW2R c => cases e; simpa [syncQueueW2R] using h
  | syncQueueR2W c => cases e; simpa [syncQueueR2W] using h
  | syncFreeW2R c => cases e; simpa [syncFreeW2R] using h
  | disp => cases e; exact (dispTurn_frame s).2 h
  | fsm c => cases e; simpa [fsmTurn] using h
  | periph c => exact periphTurn_sys_wf h e
  | extIrq i =>
    simp only [takeTurn, extIrqTurn, simulate] at e
    split_ifs at e
    cases e
    exact h
  | rstN => cases e; exact h

/-- Settles O58: SYS changes only by runs of single writes, each of which keeps the form. -/
theorem stepKeepsMemoryCanonical : Obligations.StepKeepsMemoryCanonical :=
  fun s _ h e => takeTurn_sys_wf (s := s.advance) h e

/-! ### The pending bits over a step (R255) -/

/-- A turn that sets the pending bit `i`. -/
def SetsPending (s : State) (i : Nat) : Prop :=
  (∃ c, s.turn = .periph c ∧ (s.cfg.chan c).irq = i) ∨ s.turn = .extIrq i ∨
    ∃ irq : BitVec 4, s.Executes (.dispSwtrig irq) ∧ irq.toNat = i

theorem exec_pending {i : Instr} {s t : State} (e : exec i s = .next t) :
    t.pending = s.pending ∨ i = .blkReset ∨
      ∃ irq, i = .dispSwtrig irq ∧ t.pending = (s.setPending irq.toNat true).pending := by
  obtain ⟨_, _, rfl, -⟩ | ⟨hi, -⟩ | ⟨_, _, _, -, rfl⟩ | ⟨irq, hi, rfl⟩ | ⟨_, _, -, -, -, rfl⟩ | ⟨_, _, -, -, -, rfl⟩ |
    ⟨_, -, -, -, _, _, _, -, rfl⟩ | ⟨_, -, -, _, rfl⟩ | ⟨_, -, -, _, rfl⟩ | ⟨_, _, -, -, rfl⟩ |
    ⟨_, -, -, _, _, _, -, rfl⟩ := exec_cases e
  · exact .inl rfl
  · exact .inr (.inl hi)
  · exact .inl rfl
  · exact .inr (.inr ⟨irq, hi, rfl⟩)
  all_goals exact .inl (setCh_pending ..)

theorem periphTurn_pending {s t : State} {c : Ch} (e : periphTurn c s = .next t) :
    t.pending = (s.setPending (s.cfg.chan c).irq true).pending := by
  unfold periphTurn at e
  split_ifs at e <;> cases e
  · simp [txTransfer, signalDone, State.setPending]
  · simp [rxTransfer, signalDone, State.setPending]

theorem dispTurn_pending (s : State) :
    (dispTurn s).pending = s.pending ∨
      ∃ i, s.leastPending = some i ∧ (dispTurn s).pending = (s.setPending i false).pending := by
  rw [dispTurn_eq]
  split
  · exact .inl rfl
  · next i hi => exact .inr ⟨i, hi, (runHandler_frame i (s.entry i) (s.setPending i false)).1⟩

/-- Everything a step can do to the pending bits. -/
theorem step_pending {s t : State} (e : step s = .next t) :
    t.pending = s.pending ∨ (∃ i, SetsPending s i ∧ t.pending = (s.setPending i true).pending) ∨
      (∃ i, s.turn = .disp ∧ s.leastPending = some i ∧ t.pending = (s.setPending i false).pending) ∨
      s.Executes .blkReset ∨ s.turn = .rstN := by
  obtain ⟨u, hturn⟩ : ∃ u, s.turn = u := ⟨_, rfl⟩
  have hact : takeTurn u s.advance = .next t := hturn ▸ e
  cases u with
  | host =>
    obtain ⟨-, hpending, -⟩ := hostTurn_frame hact
    exact .inl hpending
  | cmdeng =>
    obtain ⟨rfl, -⟩ | ⟨-, -, -, rfl⟩ | ⟨i, u, hbusy, hdec, hexec, rfl⟩ := cmdengTurn_cases hact
    · exact .inl rfl
    · exact .inl rfl
    · have hi : s.Executes i := ⟨hturn, hbusy, hdec⟩
      obtain hsame | rfl | ⟨irq, rfl, hset⟩ := exec_pending hexec
      · exact .inl hsame
      · exact .inr (.inr (.inr (.inl hi)))
      · exact .inr (.inl ⟨irq.toNat, .inr (.inr ⟨irq, hi, rfl⟩), hset⟩)
  | syncQueueW2R c => cases hact; exact .inl (by simp [syncQueueW2R])
  | syncQueueR2W c => cases hact; exact .inl (by simp [syncQueueR2W])
  | syncFreeW2R c => cases hact; exact .inl (by simp [syncFreeW2R])
  | disp =>
    cases hact
    exact (dispTurn_pending s.advance).imp id fun ⟨i, hi, hset⟩ => .inr (.inl ⟨i, hturn, hi, hset⟩)
  | fsm c => cases hact; exact .inl (by simp [fsmTurn])
  | periph c => exact .inr (.inl ⟨_, .inl ⟨c, hturn, rfl⟩, periphTurn_pending (s := s.advance) hact⟩)
  | extIrq i =>
    simp only [takeTurn, extIrqTurn, simulate] at hact
    split_ifs at hact
    cases hact
    exact .inr (.inl ⟨i, .inr (.inl hturn), rfl⟩)
  | rstN => exact .inr (.inr (.inr (.inr hturn)))

/-- A reset leaves no pending bit. -/
theorem isPending_of_reset {s t : State} (e : step s = .next t) (h : s.Executes .blkReset ∨ s.turn = .rstN) (i : Nat) :
    t.isPending i = false := by
  have hreset := isPending_of_atReset (atReset_resetAction s.advance) i
  rcases h with h | h
  · rw [step_executes h] at e
    cases e
    exact hreset
  · rw [step, h] at e
    cases e
    exact hreset

/-- Settles O60: a step writes at most one pending bit, or resets them all. -/
theorem pendingBitEvents : Obligations.PendingBitEvents := by
  intro s t j hs e
  have bit : ∀ {i : Nat} {b : Bool}, t.pending = (s.setPending i b).pending → t.isPending j ≠ s.isPending j →
      j = i ∧ t.isPending j = b := by
    intro i b hset hne
    rw [isPending_congr hset, isPending_setPending_eq] at hne ⊢
    split_ifs at hne ⊢ with hij
    · exact ⟨hij.1, rfl⟩
    · exact absurd rfl hne
  refine ⟨fun hclear hset => ?_, fun hset hclear => ?_⟩
  · have hne : t.isPending j ≠ s.isPending j := by simp [hclear, hset]
    obtain hsame | ⟨i, hi, hw⟩ | ⟨i, -, -, hw⟩ | hreset | hreset := step_pending e
    · exact absurd (isPending_congr hsame j) hne
    · obtain ⟨rfl, -⟩ := bit hw hne
      exact hi
    · simp [(bit hw hne).2] at hset
    · simp [isPending_of_reset e (.inl hreset)] at hset
    · simp [isPending_of_reset e (.inr hreset)] at hset
  · have hne : t.isPending j ≠ s.isPending j := by simp [hclear, hset]
    obtain hsame | ⟨i, -, hw⟩ | ⟨i, hturn, hleast, hw⟩ | hreset | hreset := step_pending e
    · exact absurd (isPending_congr hsame j) hne
    · simp [(bit hw hne).2] at hclear
    · obtain ⟨rfl, -⟩ := bit hw hne
      exact .inl ⟨hturn, hleast⟩
    · exact .inr (.inl hreset)
    · exact .inr (.inr hreset)

/-! ### The state of a channel over a step (R179, R207) -/

theorem exec_st {i : Instr} {s t : State} (e : exec i s = .next t) (d : Ch) :
    (t.ch d).st = (s.ch d).st ∨ i = .blkReset ∧ (t.ch d).st = .uninit ∨
      (∃ count, i = .chInit d count) ∧ (s.ch d).st = .uninit ∧ (t.ch d).st = .idle ∨
      i = .chStart d ∧ d.isRx = true ∧ (s.ch d).st = .idle ∧ (t.ch d).st = .active := by
  have keep : ∀ {c : Ch} {x : Chan}, (t.ch d = if d = c then x else s.ch d) → x.st = (s.ch c).st →
      (t.ch d).st = (s.ch d).st := by
    intro c x hch hx
    rw [hch]
    split_ifs with hdc
    · rw [hx, hdc]
    · rfl
  obtain ⟨_, _, rfl, -⟩ | ⟨hi, rfl⟩ | ⟨_, _, _, -, rfl⟩ | ⟨_, -, rfl⟩ | ⟨c, count, hi, ⟨hst, -⟩, -, rfl⟩ |
    ⟨c, count, hi, ⟨hst, -⟩, -, rfl⟩ | ⟨c, hi, hr, hst, g, x, r, hacq, rfl⟩ | ⟨c, -, -, _, rfl⟩ | ⟨c, -, -, _, rfl⟩ |
    ⟨c, g, -, -, rfl⟩ | ⟨c, -, -, g, x, _, hacq, rfl⟩ := exec_cases e
  · exact .inl (congrArg Chan.st (ch_congr rfl d))
  · exact .inr (.inl ⟨hi, by rw [resetAction_ch]; rfl⟩)
  · exact .inl (congrArg Chan.st (ch_congr rfl d))
  · exact .inl (congrArg Chan.st (ch_congr rfl d))
  · rw [ch_update_bind]
    split_ifs with hdc
    · subst hdc
      exact .inr (.inr (.inl ⟨⟨count, hi⟩, hst, rfl⟩))
    · exact .inl rfl
  · rw [ch_update_bind]
    split_ifs with hdc
    · subst hdc
      exact .inr (.inr (.inl ⟨⟨count, hi⟩, hst, rfl⟩))
    · exact .inl rfl
  · rw [ch_update]
    split_ifs with hdc
    · subst hdc
      exact .inr (.inr (.inr ⟨hi, hr, hst, rfl⟩))
    · exact .inl rfl
  · exact .inl (keep (ch_update_sys ..) rfl)
  · exact .inl (keep (ch_update ..) rfl)
  · exact .inl (keep (ch_update ..) rfl)
  · exact .inl (keep (ch_update_sys ..) (acquire_st (y := x) hacq))

theorem rxRetry_outcome {p : Params} {c : Ch} {x : Chan} :
    (rxRetry p c x).st = x.st ∨ x.st = .starved ∧ (rxRetry p c x).st = .active := by
  unfold rxRetry
  split
  · next hen =>
    have hst : x.st = .starved := by simpa using (Bool.and_eq_true_iff.1 hen).1
    split
    · exact .inr ⟨hst, rfl⟩
    · exact .inl rfl
  · exact .inl rfl

theorem txKick_outcome {p : Params} {c : Ch} {x : Chan} :
    (txKick p c x).st = x.st ∨ x.st = .idle ∧ (txKick p c x).st = .active := by
  unfold txKick
  split
  · next hen =>
    have hst : x.st = .idle := by simpa using (Bool.and_eq_true_iff.1 hen).1
    split
    · exact .inr ⟨hst, rfl⟩
    · exact .inl rfl
  · exact .inl rfl

/-- A dispatch moves at most the channel whose handler it runs. -/
theorem dispTurn_st {s : State} (hs : s.Inv) (d : Ch) :
    ((dispTurn s).ch d).st = (s.ch d).st ∨
      (s.ch d).st = .active ∧ (d.isRx = true ∧ ((dispTurn s).ch d).st = .starved ∨
        d.isTx = true ∧ ((dispTurn s).ch d).st = .idle) := by
  rw [dispTurn_eq]
  split
  · exact .inl rfl
  next i _ =>
  by_cases hint : (s.entry i).bound = true ∧ ((s.entry i).cb = 0#4 ∨ (s.entry i).cb = 1#4)
  · obtain ⟨c, -, -, hrun⟩ := runHandler_channel hs hint.1 hint.2 false
    rw [hrun, ch_setCh]
    split_ifs with hdc hr hr
    · subst hdc
      exact rxComplete_outcome.imp id fun ⟨hact, hstop⟩ => ⟨hact, .inl ⟨hr, hstop⟩⟩
    · subst hdc
      have ht : d.isTx = true := by simpa [Ch.isRx] using hr
      exact txComplete_outcome.imp id fun ⟨hact, hstop⟩ => ⟨hact, .inr ⟨ht, hstop⟩⟩
    · simp
    · simp
  · left
    unfold runHandler
    split_ifs with hb h0 h1
    · exact absurd ⟨hb, .inl h0⟩ hint
    · exact absurd ⟨hb, .inr h1⟩ hint
    · exact congrArg Chan.st (ch_congr rfl d)
    · simp

theorem periphTurn_st {s t : State} {c : Ch} (e : periphTurn c s = .next t) (d : Ch) : (t.ch d).st = (s.ch d).st := by
  unfold periphTurn at e
  split_ifs at e <;> cases e
  · rw [txTransfer_eq, setPending_ch, ch_setCh]
    split_ifs with hdc
    · rw [hdc, sentChan]
    · rfl
  · rw [rxTransfer, signalDone, setPending_ch, ch_setCh]
    split_ifs with hdc
    · rw [hdc, receiveBytes_ch]
    · rw [receiveBytes_ch]

/-- Settles O59: agent by agent, the rows of the two transition tables. -/
theorem channelStateTransitions : Obligations.ChannelStateTransitions := by
  intro s t c hs e hne
  obtain ⟨u, hturn⟩ : ∃ u, s.turn = u := ⟨_, rfl⟩
  have hact : takeTurn u s.advance = .next t := hturn ▸ e
  have hadv : ∀ d, s.advance.ch d = s.ch d := advance_ch s
  have keep : ∀ {d : Ch} {x : Chan}, t = s.advance.setCh d x → x.st = (s.ch d).st → (t.ch c).st = (s.ch c).st := by
    rintro d x rfl hx
    rw [ch_setCh, hadv]
    split_ifs with hcd
    · rw [hx, hcd]
    · rfl
  cases u with
  | host =>
    obtain ⟨hchans, -⟩ := hostTurn_frame hact
    exact absurd (congrArg Chan.st ((ch_congr hchans c).trans (hadv c))) hne
  | cmdeng =>
    obtain ⟨rfl, -⟩ | ⟨-, -, -, rfl⟩ | ⟨i, u, hbusy, hdec, hexec, rfl⟩ := cmdengTurn_cases hact
    · exact absurd (congrArg Chan.st (hadv c)) hne
    · exact absurd (congrArg Chan.st ((ch_congr rfl c).trans (hadv c))) hne
    · have hi : s.Executes i := ⟨hturn, hbusy, hdec⟩
      have hrow := exec_st hexec c
      rw [hadv] at hrow
      rw [ch_setBusy] at hne ⊢
      obtain hsame | ⟨rfl, hun⟩ | ⟨⟨count, rfl⟩, hun, hidle⟩ | ⟨rfl, hr, hidle, hactive⟩ := hrow
      · exact absurd hsame hne
      · exact .inl ⟨.inl hi, hun⟩
      · exact .inr (.inl ⟨⟨count, hi⟩, hun, hidle⟩)
      · exact .inr (.inr (.inl ⟨hi, hr, hidle, hactive⟩))
  | syncQueueW2R d => cases hact; exact absurd (keep rfl (hadv d ▸ rfl)) hne
  | syncQueueR2W d => cases hact; exact absurd (keep rfl (hadv d ▸ rfl)) hne
  | syncFreeW2R d => cases hact; exact absurd (keep rfl (hadv d ▸ rfl)) hne
  | disp =>
    cases hact
    obtain hsame | ⟨hactive, ⟨hr, hstop⟩ | ⟨ht, hstop⟩⟩ := dispTurn_st (inv_advance hs) c
    · exact absurd (hsame.trans (congrArg Chan.st (hadv c))) hne
    · rw [hadv] at hactive
      exact .inr (.inr (.inr (.inl ⟨hturn, hr, hactive, hstop⟩)))
    · rw [hadv] at hactive
      exact .inr (.inr (.inr (.inr (.inr (.inr ⟨hturn, ht, hactive, hstop⟩)))))
  | fsm d =>
    cases hact
    by_cases hcd : c = d
    · subst hcd
      by_cases ht : c.isTx = true
      · rw [fsmTurn, if_pos ht, ch_setCh_same, hadv] at hne ⊢
        obtain hsame | ⟨hidle, hactive⟩ := txKick_outcome (p := s.advance.cfg) (c := c) (x := s.ch c)
        · exact absurd hsame hne
        · exact .inr (.inr (.inr (.inr (.inr (.inl ⟨hturn, ht, hidle, hactive⟩)))))
      · have hr : c.isRx = true := by simpa [Ch.isRx] using ht
        rw [fsmTurn, if_neg ht, ch_setCh_same, hadv] at hne ⊢
        obtain hsame | ⟨hstarved, hactive⟩ := rxRetry_outcome (p := s.advance.cfg) (c := c) (x := s.ch c)
        · exact absurd hsame hne
        · exact .inr (.inr (.inr (.inr (.inl ⟨hturn, hr, hstarved, hactive⟩))))
    · exact absurd (congrArg Chan.st ((ch_setCh_other _ _ hcd).trans (hadv c))) hne
  | periph d => exact absurd ((periphTurn_st hact c).trans (congrArg Chan.st (hadv c))) hne
  | extIrq i =>
    simp only [takeTurn, extIrqTurn, simulate] at hact
    split_ifs at hact
    cases hact
    exact absurd (congrArg Chan.st ((setPending_ch ..).trans (hadv c))) hne
  | rstN =>
    cases hact
    exact .inl ⟨.inr hturn, by rw [resetAction_ch]; rfl⟩

end Sys2Proof.Machine
end

section
/-! The element views of SYS, the forward copy, and the host's accesses to SYS (20_memory.md R63, R67; 40_chunk_pool.md R101, R103;
60_exceptions.md R254). -/

namespace Sys2Proof.Machine

/-! ### The views (R63, R101) -/

theorem viewRead_one (m : Memory) (a i : Nat) : m.viewRead 1 a i = (m.read (a + i)).setWidth 16 := rfl

theorem viewRead_two (m : Memory) (a i : Nat) :
    m.viewRead 2 a i = m.read (a + 2 * i + 1) ++ m.read (a + 2 * i) := rfl

theorem read_viewWrite_one {m : Memory} (hm : m.wf) (a i : Nat) (v : Half) (x : Nat) :
    (m.viewWrite 1 a i v).read x = if x = a + i then v.extractLsb' 0 8 else m.read x :=
  read_write _ _ _ _ hm

theorem read_viewWrite_two {m : Memory} (hm : m.wf) (a i : Nat) (v : Half) (x : Nat) :
    (m.viewWrite 2 a i v).read x =
      if x = a + 2 * i + 1 then v.extractLsb' 8 8 else if x = a + 2 * i then v.extractLsb' 0 8 else m.read x := by
  rw [← read_write m (a + 2 * i) x (v.extractLsb' 0 8) hm]
  exact read_write _ _ _ _ (write_wf _ _ _ hm)

/-- A 16-bit element is its high byte and its low byte. -/
theorem half_bytes (v : Half) : v.extractLsb' 8 8 ++ v.extractLsb' 0 8 = v := by
  rw [BitVec.extractLsb'_append_extractLsb'_eq_extractLsb' (by rfl)]
  simp

/-- Settles O23: each view reads the bytes that a write of an element puts at its two addresses, or at its one. -/
theorem viewElementReadsBack : Obligations.ViewElementReadsBack := by
  intro m a i v hm
  have h2 := read_viewWrite_two hm a i v
  have h1 := read_viewWrite_one hm a i v
  refine ⟨⟨?_, ?_⟩, ⟨?_, ?_⟩, fun x hlo hhi => ?_, fun x hx => ?_⟩
  · rw [viewRead_two, h2, h2, if_pos rfl, if_neg (by omega), if_pos rfl, half_bytes]
  · rw [viewRead_one, h1, if_pos rfl]
  · rw [viewRead_one, h2, if_neg (by omega), if_pos rfl]
  · rw [viewRead_one, h2, if_pos (by omega)]
  · rw [h2, if_neg hhi, if_neg hlo]
  · rw [h1, if_neg hx]

/-! ### The forward copy (R103) -/

theorem copyUp_succ (m : Memory) (dst src n : Nat) :
    m.copyUp dst src (n + 1) = (m.copyUp dst src n).write (dst + n) ((m.copyUp dst src n).read (src + n)) := by
  induction n generalizing m dst src with
  | zero => rfl
  | succ n ih =>
    rw [Memory.copyUp, ih, Nat.succ_add_eq_add_succ, Nat.succ_add_eq_add_succ]
    rfl

/-- Settles O24: the copy's recursion peels off the first byte; turned round it writes the last one last. -/
theorem copyIsForwardByteByByte : Obligations.CopyIsForwardByteByByte := by
  refine ⟨copyUp_succ, fun m dst src n hm hapart => ⟨?_, fun x hx => read_copyUp_outside m dst src n x hm hx⟩⟩
  exact readRun_ext _ _ _ _ _ fun k hk => read_copyUp m dst src n k hm hk hapart

/-! ### Host accesses to SYS (R254; 20_memory.md R60(d), R67) -/

/-- Ownership depends on the configuration and the channels alone. -/
theorem hostOwns_congr {s t : State} (hcfg : t.cfg = s.cfg) (hch : ∀ c, t.ch c = s.ch c) (a n : Nat) :
    t.hostOwns a n = s.hostOwns a n := by
  simp only [State.hostOwns, State.ownsChunk, hcfg, hch]

theorem hostSys_foreign {s : State} {a n : Nat} (done : State) (hin : a + n ≤ s.cfg.sysSize)
    (hown : s.hostOwns a n = false) : hostSys a n s done = .fault .sysNotHostOwned := by
  simp [hostSys, hin.not_gt, hown]

theorem hostSys_owned {s : State} {a n : Nat} (done : State) (hin : a + n ≤ s.cfg.sysSize)
    (hown : s.hostOwns a n = true) : hostSys a n s done = .next done := by
  simp [hostSys, hin.not_gt, hown]

/-- A byte that no pending copy writes is read as SYS has it. -/
theorem hostBytes_getElem {s : State} {a n k : Nat} (hk : k < n) (hquiet : s.copyWrites (a + k) = false) :
    ((List.range n).map fun j => s.hostByte (a + j))[k]? = some (s.sys.read (a + k)) := by
  simp [hk, State.hostByte, hquiet]

theorem isRaced_cons {s t : State} {a n : Nat} (h : t.raced = (a, n) :: s.raced) (x : Nat) :
    t.isRaced x = true ↔ a ≤ x ∧ x < a + n ∨ s.isRaced x = true := by
  simp [State.isRaced, h]

/-- Settles O22: the range is inside SYS, so the access asks only who owns it. -/
theorem hostSysAccess : Obligations.HostSysAccess := by
  rintro s u addr n bytes rest hs hturn rfl rfl hin
  have hown := hostOwns_congr (s := s) (t := { s.advance with host := rest }) rfl (fun c => ch_congr rfl c) addr.toNat
    bytes.length
  refine ⟨fun hhost hforeign => ?_, fun hhost howned => ?_, fun hhost howned => ?_⟩
  · rw [← hown] at hforeign
    rcases hhost with hhost | hhost
    · exact (step_host hturn hhost).trans (hostSys_foreign _ hin hforeign)
    · exact (step_host hturn hhost).trans (hostSys_foreign _ hin hforeign)
  · rw [← hown] at howned
    refine ⟨_, (step_host hturn hhost).trans (hostSys_owned _ hin howned), by simp,
      fun k hk hquiet => hostBytes_getElem hk hquiet, rfl⟩
  · rw [← hown] at howned
    refine ⟨_, (step_host hturn hhost).trans (hostSys_owned _ hin howned), fun k hk => ?_, fun x hx => ?_, rfl,
      fun hidle => ?_, fun hbusy => isRaced_cons (if_pos hbusy)⟩
    · have hread := read_writeRun s.sys addr.toNat (addr.toNat + k) bytes hs.sys.canonical
      rw [if_pos (by omega), Nat.add_sub_cancel_left, List.getD_eq_getElem?_getD, List.getElem?_eq_getElem hk,
        Option.getD_some] at hread
      rw [List.getElem?_eq_getElem hk]
      exact congrArg some hread.symm
    · exact (read_writeRun s.sys addr.toNat x bytes hs.sys.canonical).trans (if_neg (by omega))
    · exact if_neg (Bool.eq_false_iff.1 hidle)

end Sys2Proof.Machine
end

section
/-! The full test on gray codes, and the views of a ring against its occupancy (41_async_fifo.md R124, R127, R136). -/

namespace Sys2Proof.Machine

/-! ### The full test (R124) -/

/-- Full: the pointers are a whole capacity apart. -/
theorem ptrSub_eq_capacity {d a b : Nat} (ha : a < 2 * d) (hb : b < 2 * d) :
    ptrSub d a b = d ↔ a % d = b % d ∧ ¬(d ≤ a ↔ d ≤ b) := by
  have hmod : ∀ {x}, x < 2 * d → x % d = if d ≤ x then x - d else x := by
    intro x hx
    split
    · next hle => rw [Nat.mod_eq_sub_mod hle, Nat.mod_eq_of_lt (by omega)]
    · exact Nat.mod_eq_of_lt (by omega)
  rw [ptrSub_eq ha hb, hmod ha, hmod hb]
  split_ifs <;> omega

/-- Two values differ in the top bit alone. -/
theorem xor_eq_twoPow_iff {k : Nat} {x y : BitVec (k + 1)} :
    x ^^^ y = BitVec.twoPow (k + 1) k ↔ x.setWidth k = y.setWidth k ∧ x.msb ≠ y.msb := by
  simp only [BitVec.msb_eq_getLsbD_last, Nat.add_sub_cancel]
  constructor
  · intro h
    have hbit : ∀ i, (x.getLsbD i ^^ y.getLsbD i) = decide (k = i) := fun i => by
      rw [← BitVec.getLsbD_xor, h, BitVec.getLsbD_twoPow, decide_eq_true k.lt_succ_self, Bool.true_and]
    refine ⟨BitVec.eq_of_getLsbD_eq fun i hi => ?_, fun htop => ?_⟩
    · have hsame := (hbit i).trans (decide_eq_false hi.ne')
      rw [BitVec.getLsbD_setWidth, BitVec.getLsbD_setWidth, bne_eq_false_iff_eq.1 hsame]
    · have hdiff := (hbit k).trans (decide_eq_true rfl)
      rw [htop, Bool.xor_self] at hdiff
      cases hdiff
  · rintro ⟨hlow, htop⟩
    refine BitVec.eq_of_getLsbD_eq fun i hi => ?_
    rw [BitVec.getLsbD_xor, BitVec.getLsbD_twoPow]
    obtain rfl | hlt : i = k ∨ i < k := by omega
    · simpa using htop
    · have := congrArg (BitVec.getLsbD · i) hlow
      simp only [BitVec.getLsbD_setWidth, hlt, decide_true, Bool.true_and] at this
      simp [this, hlt.ne']

theorem full_iff_xor {k a b : Nat} (ha : a < 2 * 2 ^ k) (hb : b < 2 * 2 ^ k) :
    ptrSub (2 ^ k) a b = 2 ^ k ↔ BitVec.ofNat (k + 1) a ^^^ BitVec.ofNat (k + 1) b = BitVec.twoPow (k + 1) k := by
  have toNat : ∀ {x}, x < 2 * 2 ^ k → (BitVec.ofNat (k + 1) x).toNat = x := fun hx => by
    rw [BitVec.toNat_ofNat, Nat.mod_eq_of_lt (by rw [pow_succ]; omega)]
  rw [ptrSub_eq_capacity ha hb, xor_eq_twoPow_iff, ← BitVec.toNat_inj, BitVec.toNat_setWidth, BitVec.toNat_setWidth,
    BitVec.msb_eq_decide, BitVec.msb_eq_decide, toNat ha, toNat hb, Nat.add_sub_cancel, ne_eq, decide_eq_decide]

/-- The gray code of a sum is the sum of the gray codes (R120). -/
theorem gray_xor {w : Nat} (x y : BitVec w) : gray (x ^^^ y) = gray x ^^^ gray y := by
  refine BitVec.eq_of_getLsbD_eq fun i _ => ?_
  simp only [gray_getLsbD, BitVec.getLsbD_xor, Bool.xor_assoc, Bool.xor_left_comm]

theorem gray_inj {w : Nat} {x y : BitVec w} : gray x = gray y ↔ x = y :=
  ⟨fun h => by rw [← bin_gray x, h, bin_gray], congrArg gray⟩

/-- The gray code of the top bit is the two top bits. -/
theorem gray_twoPow {k : Nat} (hk : 1 ≤ k) : gray (BitVec.twoPow (k + 1) k) = 3#(k + 1) <<< (k - 1) := by
  refine BitVec.eq_of_getLsbD_eq fun i hi => ?_
  have hthree : ∀ j, (3 : Nat).testBit j = decide (j ≤ 1) := by
    intro j
    match j with
    | 0 => rfl
    | 1 => rfl
    | j + 2 => simp [Nat.testBit_add_one]
  rw [gray_getLsbD, BitVec.getLsbD_twoPow, BitVec.getLsbD_twoPow, BitVec.getLsbD_shiftLeft, BitVec.getLsbD_ofNat, hthree]
  obtain rfl | rfl | hlow : i = k ∨ i + 1 = k ∨ i + 1 < k := by omega
  · simp [hk]
  · simp
  · simp [show k ≠ i by omega, show k ≠ i + 1 by omega, show i < k - 1 by omega]

/-- Settles O32: a gray code is linear and one to one, so the test on binary values carries over to it. -/
theorem fullTestsAgree : Obligations.FullTestsAgree := by
  intro k a b ha hb
  have hfull := full_iff_xor ha hb
  refine ⟨hfull, fun hk => ?_, ?_⟩
  · rw [hfull, ← gray_xor, ← gray_twoPow hk, gray_inj]
  · rintro rfl
    rw [hfull, ne_eq, gray_inj]
    generalize BitVec.ofNat 1 a = x
    generalize BitVec.ofNat 1 b = y
    revert x y
    decide

/-! ### The views (R127, R136) -/

/-- Settles O34: R52 makes each view differ from the occupancy by what the other side's copy lags behind. -/
theorem viewsBoundOccupancy : Obligations.ViewsBoundOccupancy := by
  intro s c hs hinit
  have hx := (hs.chan c).live hinit
  obtain ⟨-, ⟨-, -, -, -, hread⟩, -, hfit, hwrite⟩ := hx.queue_ok
  obtain ⟨-, -, -, -, -, hfree⟩ := hx.free_ok
  have hsum := places_occupancy hx
  simp only [Queue.occR, Queue.occW, FreeRing.occR, Queue.occ, FreeRing.occ] at hsum ⊢
  omega

end Sys2Proof.Machine
end

section
/-! A dispatch, handler by handler, and a receive completion (42_dispatch.md R153 to R155; 46_peripheral.md R241). -/

namespace Sys2Proof.Machine

/-! ### The handler an entry names (R153, R154) -/

section
variable {i : Nat} {e : Entry} {c : Ch}

theorem runHandler_unbound (s : State) (hb : e.bound = false) : runHandler i e s = s := if_neg (Bool.eq_false_iff.1 hb)

theorem runHandler_rx (s : State) (hb : e.bound = true) (hcb : e.cb = 0#4) (hc : c.bits = e.ctx.extractLsb' 0 2) :
    runHandler i e s = (partlyReceived c s).setCh c (rxComplete s.cfg c (s.ch c)) := by
  simp [runHandler, hb, hcb, ← hc]

theorem runHandler_tx (s : State) (hb : e.bound = true) (hcb : e.cb = 1#4) (hc : c.bits = e.ctx.extractLsb' 0 2) :
    runHandler i e s = s.setCh c (txComplete s.cfg c (s.ch c)) := by
  simp [runHandler, hb, hcb, ← hc]

theorem runHandler_external (s : State) (hb : e.bound = true) (h0 : e.cb ≠ 0#4) (h1 : e.cb ≠ 1#4) :
    runHandler i e s = { s with cbOut := s.cbOut ++ [{ irq := BitVec.ofNat 4 i, cb := e.cb, ctx := e.ctx }] } := by
  simp [runHandler, hb, h0, h1]

/-- Every handler leaves the port, CODE and RESULT; of the model's own fields it may count draws. -/
theorem runHandler_samePort (i : Nat) (e : Entry) (s : State) :
    (runHandler i e s).code = s.code ∧ (runHandler i e s).result = s.result ∧
      SamePort { s with drawn := (runHandler i e s).drawn } (runHandler i e s) := by
  unfold runHandler
  split_ifs <;> simp [SamePort]

theorem runHandler_isPending (i : Nat) (e : Entry) (s : State) (j : Nat) :
    (runHandler i e s).isPending j = s.isPending j := isPending_congr (runHandler_frame i e s).1 j

/-- A handler that cuts off no receive transfer leaves SYS and draws nothing. -/
theorem runHandler_quiet (s : State)
    (h : e.bound = false ∨ e.cb ≠ 0#4 ∨ ∀ c : Ch, c.bits = e.ctx.extractLsb' 0 2 → (s.ch c).inProgress = false) :
    (runHandler i e s).sys = s.sys ∧ (runHandler i e s).drawn = s.drawn := by
  by_cases hb : e.bound = true
  · by_cases hcb : e.cb = 0#4
    · have hquiet := (h.resolve_left (by simp [hb])).resolve_left (not_not.2 hcb)
      have hc := Ch.bits_ofBits (e.ctx.extractLsb' 0 2)
      rw [runHandler_rx s hb hcb hc, partlyReceived_quiet (hquiet _ hc)]
      exact ⟨setCh_sys .., setCh_drawn ..⟩
    · by_cases hcb1 : e.cb = 1#4
      · rw [runHandler_tx s hb hcb1 (Ch.bits_ofBits _)]
        exact ⟨setCh_sys .., setCh_drawn ..⟩
      · rw [runHandler_external s hb hcb hcb1]
        exact ⟨rfl, rfl⟩
  · rw [runHandler_unbound s (Bool.eq_false_iff.2 hb)]
    exact ⟨rfl, rfl⟩

/-- A receive handler that cuts off a transfer first fills its programmed range (70_reset_and_hazards.md R292). -/
theorem runHandler_cutsOff (s : State) (hb : e.bound = true) (hcb : e.cb = 0#4) (hc : c.bits = e.ctx.extractLsb' 0 2)
    (hp : (s.ch c).inProgress = true) :
    (runHandler i e s).sys = (receiveBytes c s).sys ∧
      (runHandler i e s).drawn = s.drawn + (s.ch c).per.transferBytes := by
  rw [runHandler_rx s hb hcb hc, partlyReceived, if_pos hp]
  exact ⟨setCh_sys .., setCh_drawn ..⟩

end

theorem inProgress_eq_false {x : Chan} : x.inProgress = false ↔ x.st ≠ .active ∨ x.per.armed = false := by
  rw [Chan.inProgress, Bool.and_eq_false_iff, beq_eq_false_iff_ne]

/-- What SYS reads in a programmed range that was filled, and around it (46_peripheral.md R241). -/
theorem read_receiveBytes_range {c : Ch} {s : State} (hwf : s.sys.wf) :
    (∀ k, k < (s.ch c).per.transferBytes →
      (receiveBytes c s).sys.read ((s.ch c).per.cfgAddr.toNat + k) = Config.rxByte (s.drawn + k)) ∧
    SysSameOutside (s.ch c).per.cfgAddr.toNat (s.ch c).per.transferBytes s (receiveBytes c s) := by
  refine ⟨fun k hk => ?_, fun x hx => ?_⟩
  · rw [read_receiveBytes c s _ hwf, if_pos (by omega), Nat.add_sub_cancel_left]
  · rw [read_receiveBytes c s _ hwf, if_neg (by omega)]

/-! ### A dispatch (R153, R155) -/

theorem leastPending_eq_some {s : State} {i : Nat} (hi : i < s.cfg.m) (hp : s.isPending i = true)
    (hleast : ∀ j, j < i → s.isPending j = false) : s.leastPending = some i := by
  rw [State.leastPending, List.find?_range_eq_some]
  exact ⟨hp, List.mem_range.2 hi, fun j hj => by simp [hleast j hj]⟩

theorem step_disp {s : State} {i : Nat} (hturn : s.turn = .disp) (hleast : s.leastPending = some i) :
    step s = .next (runHandler i (s.entry i) (s.advance.setPending i false)) := by
  have hl : s.advance.leastPending = some i := hleast
  rw [step, hturn, takeTurn, dispTurn_eq, hl]
  rfl

theorem lt_pending_length {s : State} {i : Nat} (h : s.isPending i = true) : i < s.pending.length := by
  by_contra hge
  rw [State.isPending, List.getD_eq_getElem?_getD, List.getElem?_eq_none (Nat.not_lt.1 hge)] at h
  cases h

/-- Settles O27: the step is `runHandler` on the state with the served bit cleared, and each clause is that function's case. -/
theorem dispatchServesLeastPending : Obligations.DispatchServesLeastPending := by
  intro s i hturn hi hp hleast
  have hstep := step_disp hturn (leastPending_eq_some hi hp hleast)
  generalize hu : s.advance.setPending i false = u at hstep
  have huch : ∀ c, u.ch c = s.ch c := fun c => by rw [← hu, setPending_ch, advance_ch]
  have hucfg : u.cfg = s.cfg := by rw [← hu]; rfl
  have husys : u.sys = s.sys := by rw [← hu]; rfl
  have hudrawn : u.drawn = s.drawn := by rw [← hu]; rfl
  have hucb : u.cbOut = s.cbOut := by rw [← hu]; rfl
  have hbit : ∀ j, u.isPending j = if j = i then false else s.isPending j := fun j => by
    rw [← hu]
    exact isPending_setPending s.advance i j false (lt_pending_length hp)
  obtain ⟨hcode, hresult, hport⟩ := runHandler_samePort i (s.entry i) u
  obtain ⟨-, -, htable⟩ := runHandler_frame i (s.entry i) u
  refine ⟨_, hstep, ?_, fun j hj => ?_, ?_, ?_, ?_, ?_, fun c hb hcb hc hst harmed => ?_, fun hquiet => ?_,
    fun c hb hcb hc => ?_, fun c hb hcb hc => ?_, fun hb h0 h1 => ?_, fun hb => ?_⟩
  · rw [runHandler_isPending, hbit, if_pos rfl]
  · rw [runHandler_isPending, hbit, if_neg hj]
  · rw [htable, ← hu]; rfl
  · rw [hcode, ← hu]; rfl
  · rw [hresult, ← hu]; rfl
  · subst hu
    exact hport
  · have hprog : (u.ch c).inProgress = true := by simp [huch, Chan.inProgress, hst, harmed]
    obtain ⟨hsys, hdrawn⟩ := runHandler_cutsOff (i := i) u hb hcb hc hprog
    rw [huch, hudrawn] at hdrawn
    refine ⟨fun hwf => ?_, hdrawn⟩
    have hread := read_receiveBytes_range (c := c) (husys.symm ▸ hwf : u.sys.wf)
    rw [huch, hudrawn] at hread
    simpa only [SysSameOutside, hsys, husys] using hread
  · obtain ⟨hsys, hdrawn⟩ := runHandler_quiet (i := i) u (hquiet.imp_right (Or.imp_right fun h c hc => by
      rw [huch]
      exact inProgress_eq_false.2 (h c hc)))
    exact ⟨fun x => by rw [hsys, husys], hdrawn.trans hudrawn⟩
  · rw [runHandler_rx u hb hcb hc, ch_setCh_same, hucfg, huch]
    exact ⟨rfl, fun d hd => by rw [ch_setCh_other _ _ hd, partlyReceived_ch, huch],
      (setCh_cbOut ..).trans ((partlyReceived_cbOut ..).trans hucb)⟩
  · rw [runHandler_tx u hb hcb hc, ch_setCh_same, hucfg, huch]
    exact ⟨rfl, fun d hd => by rw [ch_setCh_other _ _ hd, huch], (setCh_cbOut ..).trans hucb⟩
  · rw [runHandler_external u hb h0 h1, ← hu]
    exact ⟨rfl, rfl⟩
  · rw [runHandler_unbound u hb, ← hu]
    exact ⟨rfl, rfl⟩

/-! ### PERIPH_c on a receive channel (R241) -/

/-- The channel a receive completion leaves: the peripheral disarmed. -/
def disarmed (x : Chan) : Chan := { x with per := { x.per with armed := false } }

theorem rxTransfer_eq (c : Ch) (s : State) :
    rxTransfer c s = ((receiveBytes c s).setCh c (disarmed (s.ch c))).setPending (s.cfg.chan c).irq true := by
  rw [rxTransfer, signalDone, receiveBytes_ch]
  rfl

/-- An enabled peripheral has a chunk in flight (60_exceptions.md R256). -/
theorem exists_inflight_of_en {p : Params} {c : Ch} {x : Chan} (hx : x.Ok p c) (hen : x.per.en = true) :
    ∃ h, x.inflight = some h := by
  rcases ok_cases hx with rfl | hlive
  · cases hen
  · refine Option.ne_none_iff_exists'.1 fun hi => ?_
    rw [(hlive.stopped hi).1] at hen
    cases hen

theorem periphTurn_rx {s : State} {c : Ch} (hs : s.Inv) (hr : c.isRx = true) (hen : (s.ch c).per.en = true)
    (harmed : (s.ch c).per.armed = true) :
    (s.ch c).per.transferBytes = (s.cfg.chan c).cap ∧ periphTurn c s = .next (rxTransfer c s) := by
  obtain ⟨h, hi⟩ := exists_inflight_of_en (hs.chan c) hen
  obtain ⟨hbytes, haddr, hfits, -⟩ := transfer_bytes hs.legal (live_of_inflight (hs.chan c) hi) hi
  refine ⟨hbytes.trans (if_pos hr), ?_⟩
  rw [periphTurn, if_neg (by simp [hen, harmed]), if_neg (by omega), if_neg (rx_not_tx hr)]

theorem advance_drawn (s : State) : s.advance.drawn = s.drawn := rfl

/-- Settles O53: the programmed range is the CAP_c bytes of the chunk in flight, and the completion id has its bit. -/
theorem receiveCompletion : Obligations.ReceiveCompletion := by
  intro s c hs hr hturn hen harmed
  have hch := advance_ch s c
  obtain ⟨hbytes, hact⟩ := periphTurn_rx (inv_advance hs) hr (hch ▸ hen) (hch ▸ harmed)
  obtain ⟨-, -, -, -, -, -, hirq, -⟩ := legal_chan hs.legal c
  obtain ⟨hfill, houtside⟩ := read_receiveBytes_range (c := c) (s := s.advance) hs.sys.canonical
  rw [hbytes, hch] at hfill houtside
  rw [rxTransfer_eq, hch] at hact
  have hpending := fun j => isPending_setPending ((receiveBytes c s.advance).setCh c (disarmed (s.ch c)))
    (s.cfg.chan c).irq j true (by simpa [hs.pending_length] using hirq)
  refine ⟨_, by rw [step, hturn]; exact hact, ?_⟩
  simp only [setPending_sys, setCh_sys, SysSameOutside]
  refine ⟨hfill, houtside, by rw [setPending_ch, ch_setCh_same]; rfl,
    fun d hd => by rw [setPending_ch, ch_setCh_other _ _ hd, receiveBytes_ch, advance_ch], (hpending _).trans (if_pos rfl),
    fun j hj => ((hpending j).trans (if_neg hj)).trans (setCh_isPending ..), setCh_table .., setCh_cbOut .., setCh_code ..,
    setCh_result .., ?_⟩
  simp [SamePort, hbytes, advance_drawn]

end Sys2Proof.Machine
end

section
/-! RX_GET and TX_PUT: the copy between the host's buffer and a chunk (43_channel_rx.md R176; 44_channel_tx.md R203;
60_exceptions.md R253). -/

namespace Sys2Proof.Machine

/-! ### A handle in one place is in no other (10_state.md R51) -/

section
variable {p : Params} {c : Ch} {x : Chan} {h : Handle}

theorem not_mem_free_of_mem_queue (hp : p.Legal) (hx : x.Live p c) (hq : h ∈ x.q.contents (p.chan c).k) :
    h ∉ x.f.contents (p.chan c).p := fun hf => by
  have hnodup : (x.places p c).Nodup := placed_nodup hp (placed_of_live hx)
  exact List.disjoint_of_nodup_append hnodup hf (List.mem_append_left _ hq)

theorem front_mem_contents (hx : x.Live p c) (he : x.q.emptyR = false) :
    x.q.front (p.chan c).k ∈ x.q.contents (p.chan c).k := by
  rw [(queueOk_pop hx.queue_ok he).2]
  exact List.mem_cons_self

/-- The head of the queue, once taken out of it, fits in the free ring. -/
theorem release_front_contents (hp : p.Legal) (hx : x.Live p c) (he : x.q.emptyR = false) (q : Queue) :
    (release p c (x.q.front (p.chan c).k) { x with q := q }).f.contents (p.chan c).p =
      x.f.contents (p.chan c).p ++ [x.q.front (p.chan c).k] :=
  have hroom := occ_lt_of_not_free hp hx (front_initialised hp hx he).1
    (not_mem_free_of_mem_queue hp hx (front_mem_contents hx he))
  release_contents (x := { x with q := q }) hx.free_ok hroom

end

/-! ### A command that copies -/

/-- A command that ends normally and has written channel `c` and SYS. -/
theorem exec_copies {i : Instr} {s : State} {c : Ch} {x : Chan} {m : Memory} {r : Word}
    (hexec : exec i s = complete r { s.setCh c x with sys := m }) :
    ∃ t, exec i s = .next t ∧ t.code = .ok ∧ t.result = r ∧ t.sys = m ∧ t.ch c = x ∧ OtherChans c s t ∧
      SameDispatcher s t ∧ SamePort s t := by
  have hch := fun d => ch_update_sys s c d x m .ok r
  exact ⟨_, hexec, rfl, rfl, rfl, (hch c).trans (if_pos rfl), fun d hd => (hch d).trans (if_neg hd),
    by simp [SameDispatcher], by simp [SamePort]⟩

/-! ### RX_GET (R176) -/

/-- What RX_GET of the head `h` with `u` bytes leaves, before CODE and RESULT. -/
def afterRxGet (s : State) (c : Ch) (h : Handle) (u : Nat) : State :=
  { s.setCh c (release s.cfg c h { s.ch c with q := (s.ch c).q.pop (s.cfg.chan c).k }) with
    sys := s.copyHost s.addrOp (chunkAddr s.cfg c h) u }

section
variable {s : State} {c : Ch} {h : Handle} {u : Nat}

theorem exec_rxGet_uninit (hr : c.isRx = true) (hst : (s.ch c).st = .uninit) :
    exec (.rxGet c) s = raise .badState s := (if_neg (rx_not_tx hr)).trans (if_pos hst)

theorem exec_rxGet_empty (hr : c.isRx = true) (hst : (s.ch c).st ≠ .uninit) (hview : (s.ch c).q.r = (s.ch c).q.ws) :
    exec (.rxGet c) s = raise .queueEmpty s := by
  simp [exec, execRxGet, rx_not_tx hr, hst, Queue.head, emptyR_iff.2 hview]

/-- With an entry in view: the check of the destination, then the two faults. -/
theorem exec_rxGet_entry (hr : c.isRx = true) (hst : (s.ch c).st ≠ .uninit) (hsome : (s.ch c).q.emptyR = false)
    (hh : h = (s.ch c).q.front (s.cfg.chan c).k) (hu : u = ((s.ch c).usedOf h).toNat) :
    exec (.rxGet c) s =
      if s.cfg.sysSize ≤ s.addrOp ∨ s.lenOp.toNat < u ∨ s.cfg.sysSize < s.addrOp + u then raise .lengthError s
      else if s.hostOwns s.addrOp u = false then .fault .sysNotHostOwned
      else if s.cfg.sysSize < chunkAddr s.cfg c h + u then .fault .sysOutOfRange
      else complete (BitVec.ofNat 32 u) (afterRxGet s c h u) := by
  have hhead : (s.ch c).q.head (s.cfg.chan c).k = some h := by simp [Queue.head, hsome, hh]
  simp only [exec, execRxGet, rx_not_tx hr, hst, hhead, ← hu, if_false, State.addrInSys, State.rangePastTop,
    Bool.not_eq_true', decide_eq_false_iff_not, decide_eq_true_eq, Nat.not_lt, Bool.false_eq_true, ite_or]
  rfl

theorem exec_rxGet_ready (hs : s.Inv) (hready : RxGetReady c s) (hh : h = (s.ch c).q.front (s.cfg.chan c).k)
    (hu : u = ((s.ch c).usedOf h).toNat) :
    exec (.rxGet c) s = complete (BitVec.ofNat 32 u) (afterRxGet s c h u) := by
  subst hh hu
  obtain ⟨hr, hst, hsome, haddr, hlen, htop, hown⟩ := hready
  have hhead : (s.ch c).q.head (s.cfg.chan c).k = some ((s.ch c).q.front (s.cfg.chan c).k) := by simp [Queue.head, hsome]
  have hfits := CopiesChunk.inSys hs hst (.inl ⟨hhead, rfl⟩)
  rw [exec_rxGet_entry hr hst hsome rfl rfl, if_neg (by omega), if_neg (by simp [hown]), if_neg (by omega)]

end

/-- Settles O43: past its checks the command moves the head of the queue to the free ring and copies its CAP_c bytes, which the
destination, being the host's, does not meet. -/
theorem rxGetCopiesAndReleases : Obligations.RxGetCopiesAndReleases := by
  intro s c h u hs hr hh hu
  refine ⟨exec_rxGet_uninit hr, exec_rxGet_empty hr, fun hst hview hbad => ?_, fun hready => ?_⟩
  · have hsome : (s.ch c).q.emptyR = false := Bool.eq_false_iff.2 (mt emptyR_iff.1 hview)
    exact (exec_rxGet_entry hr hst hsome hh hu).trans (if_pos hbad)
  have hexec := exec_rxGet_ready hs hready hh hu
  obtain ⟨-, hst, hsome, -, -, -, hown⟩ := hready
  have hx : (s.ch c).Live s.cfg c := (hs.chan c).live hst
  rw [← hh, ← hu] at hown
  obtain ⟨hlt, hleg⟩ := front_initialised hs.legal hx hsome
  rw [← hh, ← hu, usedLegal, if_pos hr] at hleg
  rw [← hh] at hlt
  have hmem : h ∈ (s.ch c).q.contents (s.cfg.chan c).k := hh ▸ front_mem_contents hx hsome
  have hapart := hostOwns_disjoint hown hlt hst (holds_eq_false hs.legal hx (by simp [hmem]))
  have hcap : (s.cfg.chan c).cap ≤ 32768 := (legal_chan hs.legal c).2.2.2.2.1
  obtain ⟨t, ht, hcode, hresult, hsys, hch, hframe⟩ := exec_copies hexec
  refine ⟨t, ht, hcode, ?_, hleg, fun k hk hquiet => ?_, fun x hx => ?_, ?_⟩
  · rw [hresult, BitVec.toNat_ofNat, Nat.mod_eq_of_lt (by omega)]
  · rw [hsys]
    exact read_copyHost s _ _ u k hs.sys.canonical hk (by omega) hquiet
  · rw [hsys]
    exact read_copyHost_outside s _ _ u x hs.sys.canonical hx
  · rw [hch]
    subst hh
    exact ⟨(queueOk_pop hx.queue_ok hsome).2, rfl, rfl, rfl, rfl, release_front_contents hs.legal hx hsome _, rfl, rfl, rfl,
      rfl, rfl, rfl, rfl, rfl, rfl, hframe⟩

/-! ### TX_PUT (R203) -/

/-- What TX_PUT into the acquired chunk `h` leaves, before CODE and RESULT; `y` is the channel after the acquire. -/
def afterTxPut (s : State) (c : Ch) (h : Handle) (y : Chan) : State :=
  { s.setCh c { y.setUsed h s.lenOp with q := y.q.push (s.cfg.chan c).k h } with
    sys := s.copyHost (chunkAddr s.cfg c h) s.addrOp s.lenOp.toNat }

/-- The length and the source that TX_PUT refuses. -/
def BadSource (s : State) (c : Ch) : Prop :=
  (s.lenOp.toNat = 0 ∨ (s.cfg.chan c).cap < s.lenOp.toNat ∨ s.lenOp.toNat % c.ew ≠ 0) ∨ s.cfg.sysSize ≤ s.addrOp ∨
    s.cfg.sysSize < s.addrOp + s.lenOp.toNat

theorem badTxLen_iff {p : Params} {c : Ch} {n : Nat} :
    badTxLen p c n = true ↔ n = 0 ∨ (p.chan c).cap < n ∨ n % c.ew ≠ 0 := by
  simp [badTxLen, or_assoc]

theorem not_badSource {s : State} {c : Ch} (hpos : 0 < s.lenOp.toNat) (hcap : s.lenOp.toNat ≤ (s.cfg.chan c).cap)
    (hew : s.lenOp.toNat % c.ew = 0) (htop : s.addrOp + s.lenOp.toNat ≤ s.cfg.sysSize) : ¬BadSource s c := by
  unfold BadSource
  omega

section
variable {s : State} {c : Ch} {h : Handle} {y : Chan}

theorem exec_txPut_uninit (ht : c.isTx = true) (hst : (s.ch c).st = .uninit) :
    exec (.txPut c) s = raise .badState s := (if_neg (by simp [tx_not_rx ht])).trans (if_pos hst)

theorem exec_txPut_badSource (ht : c.isTx = true) (hst : (s.ch c).st ≠ .uninit) (hbad : BadSource s c) :
    exec (.txPut c) s = raise .lengthError s := by
  by_cases hlen : badTxLen s.cfg c s.lenOp.toNat = true
  · simp [exec, execTxPut, tx_not_rx ht, hst, hlen]
  · have hrange : (!s.addrInSys || s.rangePastTop s.lenOp.toNat) = true := by
      simpa [State.addrInSys, State.rangePastTop] using hbad.resolve_left (mt badTxLen_iff.2 hlen)
    simp only [exec, execTxPut, tx_not_rx ht, hst, hlen, hrange, if_true, Bool.false_eq_true, if_false]

/-- With a good source: the two views, then the two faults. -/
theorem exec_txPut_goodSource (ht : c.isTx = true) (hst : (s.ch c).st ≠ .uninit) (hgood : ¬BadSource s c) :
    exec (.txPut c) s =
      if (s.ch c).q.fullW (s.cfg.chan c).k then raise .queueFull s
      else match acquire s.cfg c (s.ch c) with
        | none => raise .poolExhausted s
        | some (h, y) =>
          if s.hostOwns s.addrOp s.lenOp.toNat = false then .fault .sysNotHostOwned
          else if s.cfg.sysSize < chunkAddr s.cfg c h + s.lenOp.toNat then .fault .sysOutOfRange
          else complete (h.setWidth 32) (afterTxPut s c h y) := by
  obtain ⟨hlen, hrange⟩ := not_or.1 hgood
  have hlen' : badTxLen s.cfg c s.lenOp.toNat = false := Bool.eq_false_iff.2 (mt badTxLen_iff.1 hlen)
  have hrange' : (!s.addrInSys || s.rangePastTop s.lenOp.toNat) = false := by
    simpa [State.addrInSys, State.rangePastTop] using hrange
  simp only [exec, execTxPut, tx_not_rx ht, hst, hlen', hrange', Bool.false_eq_true, if_false, Bool.not_eq_true']
  rfl

theorem exec_txPut_full (ht : c.isTx = true) (hst : (s.ch c).st ≠ .uninit) (hgood : ¬BadSource s c)
    (hfull : (s.ch c).q.occW (s.cfg.chan c).k = (s.cfg.chan c).k) : exec (.txPut c) s = raise .queueFull s :=
  (exec_txPut_goodSource ht hst hgood).trans (if_pos (fullW_iff.2 hfull))

theorem exec_txPut_exhausted (ht : c.isTx = true) (hst : (s.ch c).st ≠ .uninit) (hgood : ¬BadSource s c)
    (hroom : (s.ch c).q.occW (s.cfg.chan c).k ≠ (s.cfg.chan c).k) (hview : (s.ch c).f.r = (s.ch c).f.ws) :
    exec (.txPut c) s = raise .poolExhausted s := by
  rw [exec_txPut_goodSource ht hst hgood, if_neg (mt fullW_iff.1 hroom), acquire_none_iff_view_empty.2 hview]

theorem exec_txPut_acquired (ht : c.isTx = true) (hst : (s.ch c).st ≠ .uninit) (hgood : ¬BadSource s c)
    (hroom : (s.ch c).q.occW (s.cfg.chan c).k ≠ (s.cfg.chan c).k) (hacq : acquire s.cfg c (s.ch c) = some (h, y)) :
    exec (.txPut c) s =
      if s.hostOwns s.addrOp s.lenOp.toNat = false then .fault .sysNotHostOwned
      else if s.cfg.sysSize < chunkAddr s.cfg c h + s.lenOp.toNat then .fault .sysOutOfRange
      else complete (h.setWidth 32) (afterTxPut s c h y) := by
  rw [exec_txPut_goodSource ht hst hgood, if_neg (mt fullW_iff.1 hroom), hacq]

theorem exec_txPut_ready (hs : s.Inv) (hready : TxPutReady c s) (hacq : acquire s.cfg c (s.ch c) = some (h, y)) :
    exec (.txPut c) s = complete (h.setWidth 32) (afterTxPut s c h y) := by
  obtain ⟨ht, hst, hpos, hcap, hew, htop, hroom, -, hown⟩ := hready
  have hfits := CopiesChunk.inSys hs hst (.inr ⟨⟨y, hacq⟩, hcap⟩)
  rw [exec_txPut_acquired ht hst (not_badSource hpos hcap hew htop) (mt fullW_iff.2 (Bool.eq_false_iff.1 hroom)) hacq,
    if_neg (by simp [hown]), if_neg (by omega)]

/-- The used lengths after TX_PUT. -/
theorem usedOf_afterTxPut (hp : s.cfg.Legal) (hx : (s.ch c).Live s.cfg c)
    (hacq : acquire s.cfg c (s.ch c) = some (h, y)) (u : Half) :
    (y.setUsed h u).usedOf h = u ∧ ∀ g, g ≠ h → (y.setUsed h u).usedOf g = (s.ch c).usedOf g := by
  have hlt : h.toNat < (s.ch c).used.length := by
    rw [hx.used_length]
    exact (acquire_lt hp hx hacq).trans_le hx.n_le
  have hother : ∀ g, g ≠ h → y.usedOf g = (s.ch c).usedOf g := fun g hg => acquire_usedOf hacq hlt hg
  have hlty : h.toNat < y.used.length := by
    obtain ⟨-, -, rfl⟩ := acquire_eq hacq
    simpa using hlt
  exact ⟨(usedOf_setUsed y h h u hlty).trans (if_pos rfl),
    fun g hg => ((usedOf_setUsed y h g u hlty).trans (if_neg hg)).trans (hother g hg)⟩

end

/-- Settles O48: past its checks the command takes the oldest free chunk, which the source, being the host's, does not meet, and
queues it. -/
theorem txPutEnqueuesCopy : Obligations.TxPutEnqueuesCopy := by
  rintro s c len hs ht rfl
  refine ⟨exec_txPut_uninit ht, exec_txPut_badSource ht,
    fun hst hpos hcap hew htop => exec_txPut_full ht hst (not_badSource hpos hcap hew htop),
    fun hst hpos hcap hew htop => exec_txPut_exhausted ht hst (not_badSource hpos hcap hew htop), fun hready => ?_⟩
  have ⟨_, hst, _, hcap, _, _, hroom, hfree, hown⟩ := hready
  have hx : (s.ch c).Live s.cfg c := (hs.chan c).live hst
  obtain ⟨y, hacq, hcontents, -, -, hfw, hfws, -, hslots⟩ :=
    acquire_spec hx hs.legal (by simpa [FreeRing.emptyR] using hfree)
  rw [show (s.ch c).f.slots.getD _ _ = s.nextFree c from rfl] at hacq hcontents
  generalize s.nextFree c = h at hacq hcontents ⊢
  have hlt := acquire_lt hs.legal hx hacq
  have hapart := hostOwns_disjoint hown hlt hst (holds_eq_false hs.legal hx (by simp [hcontents]))
  obtain ⟨hself, hother⟩ := usedOf_afterTxPut hs.legal hx hacq s.lenOp
  have hpush := (queueOk_push h hx.queue_ok hroom).2
  obtain ⟨t, ht, hcode, hresult, hsys, hch, hframe⟩ := exec_copies (exec_txPut_ready hs hready hacq)
  refine ⟨t, ht, hcode, hresult, fun k hk hquiet => ?_, fun x hx => ?_, ?_⟩
  · rw [hsys]
    exact read_copyHost s _ _ _ k hs.sys.canonical hk (by omega) hquiet
  · rw [hsys]
    exact read_copyHost_outside s _ _ _ x hs.sys.canonical hx
  · rw [hch]
    obtain ⟨-, -, rfl⟩ := acquire_eq hacq
    exact ⟨hpush, rfl, rfl, rfl, hcontents, hfw, hfws, hslots, congrArg BitVec.toNat hself, hother, rfl, rfl, rfl, rfl, rfl,
      rfl, hframe⟩

end Sys2Proof.Machine
end

section
/-! The faults of the copy commands (60_exceptions.md R253), and a payload's way through a transmit channel (44_channel_tx.md
R208). -/

namespace Sys2Proof.Machine

/-- Settles O45: past its checks each of the two commands asks for the ownership of the bytes next. -/
theorem copyOnBlockMemoryFaults : Obligations.CopyOnBlockMemoryFaults := by
  refine ⟨fun s c u hr hst hview hu haddr hlen htop hown => ?_,
    fun s c ht hst hpos hcap hew htop hroom hview hown => ?_⟩
  · have hsome : (s.ch c).q.emptyR = false := Bool.eq_false_iff.2 (mt emptyR_iff.1 hview)
    rw [exec_rxGet_entry hr hst hsome rfl hu, if_neg (by omega), if_pos hown]
  · obtain ⟨y, hacq⟩ := acquire_of_view (p := s.cfg) (c := c) hview
    rw [exec_txPut_acquired ht hst (not_badSource hpos hcap hew htop) hroom hacq, if_pos hown]

/-! ### One payload from TX_PUT to TxOut_c (R208) -/

theorem contents_eq_nil_iff {d : Nat} {q : Queue} (hq : q.Ok d) : q.contents d = [] ↔ q.w = q.r := by
  obtain ⟨-, ⟨hw, hr, -⟩, -⟩ := hq
  rw [← List.length_eq_zero_iff, Queue.contents, ringContents_length, ptrSub_eq_zero hw hr]

/-- A queue that holds nothing shows nothing. -/
theorem view_empty_of_contents_nil {d : Nat} {q : Queue} (hq : q.Ok d) (hnil : q.contents d = []) : q.r = q.ws := by
  have hwr := (contents_eq_nil_iff hq).1 hnil
  obtain ⟨-, ⟨hw, hr, hws, -, hsum⟩, -⟩ := hq
  have hocc : ptrSub d q.w q.r = 0 := (ptrSub_eq_zero hw hr).2 hwr
  exact ((ptrSub_eq_zero hws hr).1 (by omega)).symm

section
variable {s t : State} {c : Ch} {h : Handle}

/-- A chunk that holds the bytes put, for the length put, holds a payload of the TX_PUT. -/
theorem payload_chunkBytes (hcfg : t.cfg = s.cfg) (hused : ((t.ch c).usedOf h).toNat = s.lenOp.toNat)
    (hread : ∀ k, k < s.lenOp.toNat → s.isRaced (s.addrOp + k) = false →
      t.sys.read (chunkAddr s.cfg c h + k) = s.sys.read (s.addrOp + k)) : s.Payload (t.chunkBytes c h) := by
  rw [State.chunkBytes, hcfg, hused]
  exact ⟨readRun_length .., fun k hk hquiet => (readRun_getElem _ _ _ k hk).trans (congrArg some (hread k hk hquiet))⟩

/-- A SYNC_W2R and the kick of an idle channel whose queue holds `h` alone. -/
theorem sync_kick_single (hs : s.Inv) (ht : c.isTx = true) (hst : (s.ch c).st = .idle)
    (hqueue : (s.ch c).q.contents (s.cfg.chan c).k = [h]) :
    ∃ t x, t = fsmTurn c (syncQueueW2R c s) ∧ t.Inv ∧ t.cfg = s.cfg ∧ t.sys = s.sys ∧ t.ch c = x ∧ x.st = .active ∧
      x.inflight = some h ∧ x.q.contents (s.cfg.chan c).k = [] ∧ programmedFor s.cfg c h x ∧ x.per.armed = true ∧
      x.f = (s.ch c).f ∧ x.used = (s.ch c).used ∧ x.txOut = (s.ch c).txOut := by
  have hq : (s.ch c).q.syncW2R.Ok (s.cfg.chan c).k := queueOk_syncW2R ((hs.chan c).live (by simp [hst])).queue_ok
  have hview : (s.ch c).q.syncW2R.r ≠ (s.ch c).q.syncW2R.ws := fun hview =>
    List.cons_ne_nil h [] (hqueue.symm.trans ((contents_eq_nil_iff hq).2 hview.symm))
  have hkick : fsmTurn c (syncQueueW2R c s) =
      (syncQueueW2R c s).setCh c (launch s.cfg c { s.ch c with q := (s.ch c).q.syncW2R }) := by
    rw [fsmTurn, if_pos ht, syncQueueW2R, setCh_cfg, ch_setCh_same,
      txKick_eq_launch (x := { s.ch c with q := (s.ch c).q.syncW2R }) hst hview]
  obtain ⟨rfl, hrest⟩ := List.cons_eq_cons.1 (hqueue.symm.trans
    (contents_eq_front_cons_launch (x := { s.ch c with q := (s.ch c).q.syncW2R }) hq hview))
  exact ⟨_, _, rfl, inv_fsmTurn (inv_takeTurn (u := .syncQueueW2R c) hs rfl), by rw [hkick]; simp [syncQueueW2R],
    by rw [hkick]; simp [syncQueueW2R], by rw [hkick, ch_setCh_same], rfl, rfl, hrest.symm, programmedFor_launch, rfl, rfl,
    rfl, rfl⟩

end

/-- Settles O51: the queue holds the chunk put alone, so the kick takes it, the transfer sends it, and the handler finds nothing
more. -/
theorem transmitCycle : Obligations.TransmitCycle := by
  intro s c hs hready hidle hempty
  have ht : c.isTx = true := hready.1
  obtain ⟨-, -, -, -, hput⟩ := txPutEnqueuesCopy s c _ hs ht rfl
  obtain ⟨s1, hexec, -, -, hread, -, hqueue, -, -, -, hfree, -, -, -, hused, -, hst1, -, -, -, -, htx1, -, -, hcfg1, -⟩ :=
    hput hready
  generalize s.nextFree c = h at *
  have hx : (s.ch c).Live s.cfg c := (hs.chan c).live (by simp [hidle])
  rw [(contents_eq_nil_iff hx.queue_ok).2 hempty, List.nil_append, ← hcfg1] at hqueue
  obtain ⟨s3, x, hs3, hinv, hcfg, hsys, rfl, hactive, hinflight, hnil, hprog, harmed, hf, hused3, htx3⟩ :=
    sync_kick_single (inv_exec hs hexec) ht (hst1.trans hidle) hqueue
  rw [hcfg1] at hcfg hnil hprog
  have hlive : (s3.ch c).Live s3.cfg c := (hinv.chan c).live (by simp [hactive])
  have hpay : s.Payload (s3.chunkBytes c h) :=
    payload_chunkBytes hcfg (by rw [Chan.usedOf, hused3]; exact hused) (by rw [hsys]; exact hread)
  obtain ⟨-, -, -, -, -, -, hirq, -⟩ := legal_chan hinv.legal c
  refine ⟨s1, s3, _, hexec, hs3, hactive, hinflight, hnil, hprog, harmed, periphTurn_tx hinv.legal hlive ht harmed hinflight,
    ⟨_, hpay, ?_⟩, ?_, ?_⟩
  · rw [setPending_ch, ch_setCh_same, sentChan, htx3, htx1]
  · rw [← hcfg, isPending_setPending _ _ _ _ (by simpa [hinv.pending_length] using hirq), if_pos rfl]
  rintro y rfl
  obtain ⟨⟨hrelease, -⟩, -, hlast⟩ := (txCompletePaths _ c _ _ h rfl).2 hinv.legal ht
    (live_done ((s3.ch c).txOut ++ [s3.chunkBytes c h]) hlive) hinflight
  rw [← hcfg] at hnil
  obtain ⟨hq, hnone, hidle3, hper⟩ := hlast (view_empty_of_contents_nil hlive.queue_ok hnil)
  rw [setPending_ch, ch_setCh_same, ← hcfg]
  refine ⟨hidle3, hnone, (congrArg _ hq).trans hnil, congrArg Periph.en hper, ?_⟩
  rw [sentChan, hrelease, hcfg, hfree, List.cons_append, hf]

end Sys2Proof.Machine
end

section
/-! A receive channel whose host reads nothing (43_channel_rx.md R180). -/

namespace Sys2Proof.Machine

/-- The handles from `i` up to `n`, in order. -/
def handlesFrom (i n : Nat) : List Handle := (List.range' i (n - i)).map (BitVec.ofNat 8)

theorem handlesFrom_eq_cons {i n : Nat} (hlt : i < n) : handlesFrom i n = BitVec.ofNat 8 i :: handlesFrom (i + 1) n := by
  rw [handlesFrom, handlesFrom, show n - i = n - (i + 1) + 1 by omega, List.range'_succ, List.map_cons]

theorem handlesFrom_eq_nil {i n : Nat} (hge : n ≤ i) : handlesFrom i n = [] := by
  simp [handlesFrom, Nat.sub_eq_zero_of_le hge]

theorem handlesFrom_zero (n : Nat) : handlesFrom 0 n = (List.range n).map (BitVec.ofNat 8) := by
  rw [handlesFrom, List.range_eq_range', Nat.sub_zero]

theorem handlesFrom_zero_succ (n : Nat) : handlesFrom 0 (n + 1) = handlesFrom 0 n ++ [BitVec.ofNat 8 n] := by
  simp [handlesFrom, List.range'_concat]

/-- Chunks 0 to `j` - 1 are queued and chunk `j` is being filled; both producers' views are up to date. -/
structure Filling (p : Params) (c : Ch) (count : Byte) (j : Nat) (x : Chan) : Prop where
  live : x.Live p c
  n : x.n = count
  active : x.st = .active
  inflight : x.inflight = some (BitVec.ofNat 8 j)
  queue : x.q.contents (p.chan c).k = handlesFrom 0 j
  free : x.f.contents (p.chan c).p = handlesFrom (j + 1) count.toNat
  queue_synced : x.q.rs = x.q.r
  free_synced : x.f.ws = x.f.w
  armed : x.per.armed = true

/-- Every chunk is queued and the peripheral is stopped. -/
structure Drained (p : Params) (c : Ch) (count : Byte) (x : Chan) : Prop where
  n : x.n = count
  starved : x.st = .starved
  inflight : x.inflight = none
  queue : x.q.contents (p.chan c).k = handlesFrom 0 count.toNat
  stopped : x.per.en = false ∧ x.per.armed = false

section
variable {p : Params} {c : Ch} {count : Byte} {j : Nat} {x : Chan}

theorem Filling.occW (h : Filling p c count j x) : x.q.occW (p.chan c).k = j := by
  have hlen := ringContents_length (p.chan c).k x.q.slots x.q.w x.q.r
  rw [← Queue.contents, h.queue, ← h.queue_synced] at hlen
  exact hlen.symm.trans (by simp [handlesFrom])

theorem Filling.free_view (h : Filling p c count j x) : x.f.r ≠ x.f.ws ↔ j + 1 < count.toNat := by
  constructor
  · intro hview
    by_contra hge
    have hfree := h.free
    rw [free_contents_eq_cons h.live.free_ok hview, handlesFrom_eq_nil (by omega)] at hfree
    exact List.cons_ne_nil _ _ hfree
  · intro hlt hview
    have hfree := h.free
    rw [FreeRing.contents, ← h.free_synced, ← hview, ringContents_empty _ h.live.free_ok.2.2.1,
      handlesFrom_eq_cons hlt] at hfree
    exact List.cons_ne_nil _ _ hfree.symm

/-- A full queue: the chunk is filled again. -/
theorem Filling.again (hp : p.Legal) (hr : c.isRx = true) (h : Filling p c count (p.chan c).k x) :
    Filling p c count (p.chan c).k (rxComplete p c x) := by
  obtain ⟨⟨-, -, hn, -, -, -, -, -, -, -⟩, hfull, -⟩ := (rxCompletePaths p c x _ _ rfl).2 hp hr h.live h.inflight
  obtain ⟨hq, hf, hi, hst, -, harmed⟩ := hfull h.occW
  exact ⟨live_rxComplete hp hr h.live, hn.trans h.n, hst, hi, (congrArg _ hq).trans h.queue, (congrArg _ hf).trans h.free,
    by rw [hq, h.queue_synced], by rw [hf, h.free_synced], harmed⟩

/-- Room in the queue and another free chunk: the next one is filled. -/
theorem Filling.next (hp : p.Legal) (hr : c.isRx = true) (h : Filling p c count j x) (hroom : j < (p.chan c).k)
    (hmore : j + 1 < count.toNat) : Filling p c count (j + 1) (rxComplete p c x) := by
  obtain ⟨⟨-, -, hn, -, -, hqr, -, hqrs, hfw, hfws⟩, -, hqueue, hnext, -⟩ :=
    (rxCompletePaths p c x _ _ rfl).2 hp hr h.live h.inflight
  have hne : x.q.occW (p.chan c).k ≠ (p.chan c).k := by rw [h.occW]; omega
  obtain ⟨g, hfree, hi, hst, -, -, harmed⟩ := hnext hne (h.free_view.2 hmore)
  rw [h.free, handlesFrom_eq_cons hmore] at hfree
  obtain ⟨rfl, hrest⟩ := List.cons_eq_cons.1 hfree
  exact ⟨live_rxComplete hp hr h.live, hn.trans h.n, hst, hi,
    by rw [hqueue hne, h.queue, handlesFrom_zero_succ], hrest.symm, by rw [hqr, hqrs, h.queue_synced],
    by rw [hfw, hfws, h.free_synced], harmed⟩

/-- Room in the queue and no other free chunk: the channel starves. -/
theorem Filling.drained (hp : p.Legal) (hr : c.isRx = true) (h : Filling p c count j x) (hroom : j < (p.chan c).k)
    (hlast : j + 1 = count.toNat) : Drained p c count (rxComplete p c x) := by
  obtain ⟨⟨-, -, hn, -⟩, -, hqueue, -, hstarve⟩ := (rxCompletePaths p c x _ _ rfl).2 hp hr h.live h.inflight
  have hne : x.q.occW (p.chan c).k ≠ (p.chan c).k := by rw [h.occW]; omega
  obtain ⟨-, hi, hst, hper⟩ := hstarve hne (not_not.1 (mt h.free_view.1 (by omega)))
  exact ⟨hn.trans h.n, hst, hi, by rw [hqueue hne, h.queue, ← hlast, handlesFrom_zero_succ], by simp [hper]⟩

/-- The channel after `m` completions. -/
theorem rxComplete_iterate (hp : p.Legal) (hr : c.isRx = true) (h : Filling p c count 0 x) (hpos : 0 < count.toNat) (m : Nat) :
    if min m (p.chan c).k < count.toNat then Filling p c count (min m (p.chan c).k) ((rxComplete p c)^[m] x)
    else Drained p c count ((rxComplete p c)^[m] x) := by
  induction m with
  | zero => simpa [hpos] using h
  | succ m ih =>
    rw [Function.iterate_succ_apply']
    generalize (rxComplete p c)^[m] x = y at ih ⊢
    split at ih
    · next hlt =>
      rcases lt_or_ge m (p.chan c).k with hroom | hfull
      · rw [min_eq_left hroom.le] at ih hlt
        rw [min_eq_left hroom]
        split
        · next hmore => exact ih.next hp hr hroom hmore
        · next hlast => exact ih.drained hp hr hroom (by omega)
      · rw [min_eq_right hfull] at ih hlt
        rw [min_eq_right (by omega), if_pos hlt]
        exact ih.again hp hr
    · next hge =>
      rw [if_neg (by omega), rxComplete_idle (by simp [ih.starved])]
      exact ih

end

/-- CH_INIT with `count` handles and CH_START leave chunk 0 in flight and the others free. -/
theorem filling_after_start {s : State} {c : Ch} {count : Byte} (hs : s.Inv) (hr : c.isRx = true)
    (hready : ChInitReady c count s) :
    ∃ s1 s2, exec (.chInit c count) s = .next s1 ∧ exec (.chStart c) s1 = .next s2 ∧
      Filling s.cfg c count 0 (s2.ch c) := by
  obtain ⟨-, -, -, hinit⟩ := chInitFillsThePool s c count hs
  obtain ⟨s1, he1, -, -, hst, hn, -, hfree, hfw, hfr, hfws, hqw, hqr, -, hqrs, -, -, -, -, -, -, -, -, -, -, hcfg, -⟩ :=
    hinit hready
  have hs1 : s1.Inv := inv_exec hs he1
  obtain ⟨-, hpos, -⟩ := hready
  obtain ⟨-, -, hstart⟩ := chStartArmsReceive s1 c hs1 hr
  obtain ⟨s2, h, he2, -, -, hcons, hactive, hi, -, -, -, -, -, -, harmed, hfw2, hfws2, hq, hn2, -, -, ⟨hcfg2, -⟩, -⟩ :=
    hstart hst (by omega)
  have hlive : (s2.ch c).Live s.cfg c := hcfg ▸ hcfg2 ▸ ((inv_exec hs1 he2).chan c).live (by simp [hactive])
  rw [hcfg, hfree, ← handlesFrom_zero, handlesFrom_eq_cons hpos] at hcons
  obtain ⟨rfl, hrest⟩ := List.cons_eq_cons.1 hcons
  have hnil : (s2.ch c).q.contents (s.cfg.chan c).k = [] := (contents_eq_nil_iff hlive.queue_ok).2 (by rw [hq, hqw, hqr])
  exact ⟨s1, s2, he1, he2, hlive, hn2.trans hn, hactive, hi, hnil, hrest.symm, by rw [hq, hqrs, hqr],
    by rw [hfw2, hfws2, hfw, hfws], harmed⟩

/-- Settles O47: each completion queues the chunk in flight and takes the next, until the queue is full or no chunk is left. -/
theorem receiveUnderLoad : Obligations.ReceiveUnderLoad := by
  intro s c count hs hr hready
  obtain ⟨s1, s2, he1, he2, hfill⟩ := filling_after_start hs hr hready
  refine ⟨s1, s2, he1, he2, fun m x hx => ?_⟩
  have hafter := rxComplete_iterate hs.legal hr hfill hready.2.1 m
  rw [← hx] at hafter
  split at hafter
  · next hlt =>
    have hqueue := hafter.queue.trans (handlesFrom_zero _)
    exact ⟨hafter.n, fun _ => ⟨hqueue, hafter.active, hafter.inflight, hafter.live.programmed _ hafter.inflight,
      hafter.armed⟩, fun _ _ => by omega⟩
  · next hge =>
    have hqueue := hafter.queue.trans (handlesFrom_zero _)
    obtain ⟨hen, harmed⟩ := hafter.stopped
    exact ⟨hafter.n, fun _ => by omega, fun _ _ => ⟨hqueue, hafter.starved, hafter.inflight, hen, harmed⟩⟩

end Sys2Proof.Machine
end

section
/-! What a transmit channel has sent and has still to send (44_channel_tx.md R209): a function of the channel and of the bytes of
its chunks. -/

namespace Sys2Proof.Machine

/-! ### The backlog of a channel, given the bytes of its chunks -/

/-- The chunks in flight and in the queue. -/
def loaded (p : Params) (c : Ch) (x : Chan) : List Handle := x.inflight.toList ++ x.q.contents (p.chan c).k

/-- The backlog of a channel in which chunk `h` holds `bytes h`. -/
def lineOf (p : Params) (c : Ch) (bytes : Handle → List Byte) (x : Chan) : List (List Byte) :=
  x.txOut ++ (if x.per.armed then x.inflight.toList.map bytes else []) ++ (x.q.contents (p.chan c).k).map bytes

theorem backlog_eq_lineOf (s : State) (c : Ch) : s.backlog c = lineOf s.cfg c (s.chunkBytes c) (s.ch c) := rfl

section
variable {p : Params} {c : Ch} {x y : Chan} {h : Handle} {bytes bytes' : Handle → List Byte}

theorem lineOf_congr (h : ∀ g ∈ loaded p c x, bytes' g = bytes g) : lineOf p c bytes' x = lineOf p c bytes x := by
  have hi : x.inflight.toList.map bytes' = x.inflight.toList.map bytes :=
    List.map_congr_left fun g hg => h g (List.mem_append_left _ hg)
  have hq : (x.q.contents (p.chan c).k).map bytes' = (x.q.contents (p.chan c).k).map bytes :=
    List.map_congr_left fun g hg => h g (List.mem_append_right _ hg)
  rw [lineOf, lineOf, hi, hq]

/-- A launch moves the front of the queue into flight. -/
theorem lineOf_launch (hq : x.q.Ok (p.chan c).k) (hview : x.q.r ≠ x.q.ws) (hidle : x.per.armed = false) :
    lineOf p c bytes (launch p c x) = lineOf p c bytes x := by
  rw [lineOf, lineOf, contents_eq_front_cons_launch hq hview, hidle]
  simp [launch, program]

/-- A transfer moves the chunk in flight into the trace. -/
theorem lineOf_sentChan (harmed : x.per.armed = true) (hi : x.inflight = some h) :
    lineOf p c bytes (sentChan x (bytes h)) = lineOf p c bytes x := by
  simp [lineOf, sentChan, harmed, hi]

/-- The handler releases a chunk that was sent, and launches the next if it sees one. -/
theorem lineOf_txComplete (hq : x.q.Ok (p.chan c).k) (hst : x.st = .active) (hi : x.inflight = some h)
    (hsent : x.per.armed = false) : lineOf p c bytes (txComplete p c x) = lineOf p c bytes x := by
  have hrelease : lineOf p c bytes (release p c h x) = lineOf p c bytes x := rfl
  by_cases hview : x.q.r = x.q.ws
  · rw [txComplete_last hst hi hview]
    simp [lineOf, stop, hsent]
  · rw [txComplete_refill hst hi hview, lineOf_launch (x := release p c h x) hq hview hsent, hrelease]

theorem lineOf_reset : lineOf p c bytes (Chan.reset p c) = [] := by
  simp [lineOf, Chan.reset, Queue.contents, ringContents, ptrSub]

theorem lineOf_initChan (count : Byte) : lineOf p c bytes (initChan p c count (Chan.reset p c)) = [] := by
  simp [lineOf, initChan, poolInit, Chan.reset, Queue.contents, ringContents, ptrSub]

end

/-! ### Steps that leave the backlog -/

/-- The step keeps the premise of R209 and the backlog. -/
def Follows (c : Ch) (s t : State) : Prop := t.Unsimulated c ∧ t.backlog c = s.backlog c

/-- What the backlog is read from is the same in channel `y` as in `x`. -/
structure SameLine (p : Params) (c : Ch) (x y : Chan) : Prop where
  st : y.st = x.st
  inflight : y.inflight = x.inflight
  armed : y.per.armed = x.per.armed
  txOut : y.txOut = x.txOut
  used : y.used = x.used
  queue : y.q.contents (p.chan c).k = x.q.contents (p.chan c).k

theorem SameLine.refl (p : Params) (c : Ch) (x : Chan) : SameLine p c x x := ⟨rfl, rfl, rfl, rfl, rfl, rfl⟩

theorem lineOf_of_sameLine {p : Params} {c : Ch} {x y : Chan} (h : SameLine p c x y) (bytes : Handle → List Byte) :
    lineOf p c bytes y = lineOf p c bytes x := by
  rw [lineOf, lineOf, h.txOut, h.armed, h.inflight, h.queue]

/-- SYS reads in chunk `h` as before. -/
def SameChunk (c : Ch) (h : Handle) (s t : State) : Prop :=
  ∀ k, k < (s.cfg.chan c).cap → t.sys.read (chunkAddr s.cfg c h + k) = s.sys.read (chunkAddr s.cfg c h + k)

theorem sameChunk_of_sys {c : Ch} {h : Handle} {s t : State} (hsys : t.sys = s.sys) : SameChunk c h s t := fun _ _ => by
  rw [hsys]

section
variable {s t : State} {c d : Ch} {h g : Handle} {a n : Nat}

/-- A chunk in flight or queued is an initialised one that the host does not hold. -/
theorem mem_loaded (hs : s.Inv) (hh : h ∈ loaded s.cfg c (s.ch c)) :
    (s.ch c).Live s.cfg c ∧ h.toNat < (s.ch c).n.toNat ∧ (s.ch c).holds h = false := by
  rcases ok_cases (hs.chan c) with hreset | hx
  · rw [hreset] at hh
    simp [loaded, Chan.reset, Queue.contents, ringContents, ptrSub] at hh
  · have hmem := List.mem_append.1 hh
    refine ⟨hx, placed_lt hs.legal (placed_of_live hx) (g := h) ?_, holds_eq_false hs.legal hx ?_⟩
    · simp only [Chan.places, List.mem_append]
      tauto
    · simp only [List.mem_append]
      tauto

theorem chunkBytes_congr (hs : s.Inv) (hcfg : t.cfg = s.cfg) (hh : h ∈ loaded s.cfg c (s.ch c))
    (hused : (t.ch c).usedOf h = (s.ch c).usedOf h) (hsame : SameChunk c h s t) : t.chunkBytes c h = s.chunkBytes c h := by
  have hcap := usedOf_le_cap (mem_loaded hs hh).1 h
  rw [State.chunkBytes, State.chunkBytes, hcfg, hused]
  exact readRun_ext _ _ _ _ _ fun k hk => hsame k (by omega)

/-- The backlog after a step that leaves the loaded chunks, in the bytes of before. -/
theorem backlog_eq_lineOf_before (hs : s.Inv) (hcfg : t.cfg = s.cfg)
    (hused : ∀ h ∈ loaded s.cfg c (s.ch c), (t.ch c).usedOf h = (s.ch c).usedOf h)
    (hsame : ∀ h ∈ loaded s.cfg c (s.ch c), SameChunk c h s t)
    (hsub : loaded s.cfg c (t.ch c) ⊆ loaded s.cfg c (s.ch c)) :
    t.backlog c = lineOf s.cfg c (s.chunkBytes c) (t.ch c) := by
  rw [backlog_eq_lineOf, hcfg]
  exact lineOf_congr fun h hh => chunkBytes_congr hs hcfg (hsub hh) (hused h (hsub hh)) (hsame h (hsub hh))

theorem follows_of_sameLine (hs : s.Inv) (hun : s.Unsimulated c) (hcfg : t.cfg = s.cfg)
    (hline : SameLine s.cfg c (s.ch c) (t.ch c))
    (hpend : t.isPending (s.cfg.chan c).irq = true → s.isPending (s.cfg.chan c).irq = true)
    (hsame : ∀ h ∈ loaded s.cfg c (s.ch c), SameChunk c h s t) : Follows c s t := by
  refine ⟨fun hp => ?_, ?_⟩
  · rw [hline.st, hline.armed]
    exact hun (hpend (hcfg ▸ hp))
  · have hsub : loaded s.cfg c (t.ch c) ⊆ loaded s.cfg c (s.ch c) := by
      rw [loaded, loaded, hline.inflight, hline.queue]
      exact List.Subset.refl _
    rw [backlog_eq_lineOf_before hs hcfg (fun h _ => by rw [Chan.usedOf, Chan.usedOf, hline.used]) hsame hsub,
      lineOf_of_sameLine hline, backlog_eq_lineOf]

/-- The bytes written meet no chunk in flight or queued. -/
def ClearOf (s : State) (c : Ch) (a n : Nat) : Prop :=
  ∀ h ∈ loaded s.cfg c (s.ch c), n = 0 ∨ a + n ≤ chunkAddr s.cfg c h ∨ chunkAddr s.cfg c h + (s.cfg.chan c).cap ≤ a

theorem sameChunk_of_clearOf (hclear : ClearOf s c a n) (hout : SysSameOutside a n s t) (hh : h ∈ loaded s.cfg c (s.ch c)) :
    SameChunk c h s t := fun k hk => hout _ (by have := hclear h hh; omega)

theorem clearOf_hostOwned (hs : s.Inv) (hown : s.hostOwns a n = true) : ClearOf s c a n := fun h hh => by
  obtain ⟨hx, hlt, hheld⟩ := mem_loaded hs hh
  refine hostOwns_disjoint hown hlt (fun hun => ?_) hheld
  have hn := hx.n_pos
  rw [(hs.chan c).uninit hun] at hn
  simp [Chan.reset] at hn

theorem clearOf_otherChan (hs : s.Inv) (hcd : d ≠ c) (hg : g.toNat < (s.cfg.chan d).nmax) (hn : n ≤ (s.cfg.chan d).cap) :
    ClearOf s c (chunkAddr s.cfg d g) n := fun h hh => by
  obtain ⟨hx, hlt, -⟩ := mem_loaded hs hh
  have hapart := chunks_apart hs.legal hcd hg (hlt.trans_le hx.n_le)
  omega

theorem clearOf_unloaded (hs : s.Inv) (hg : g.toNat < (s.cfg.chan c).nmax) (hout : g ∉ loaded s.cfg c (s.ch c))
    (hn : n ≤ (s.cfg.chan c).cap) : ClearOf s c (chunkAddr s.cfg c g) n := fun h hh => by
  obtain ⟨hx, hlt, -⟩ := mem_loaded hs hh
  have hapart := chunks_apart_same hs.legal (fun e => hout (e ▸ hh) : g ≠ h) hg (hlt.trans_le hx.n_le)
  omega

end

end Sys2Proof.Machine
end

section
/-! The order of what a transmit channel sends (44_channel_tx.md R209), agent by agent. -/

namespace Sys2Proof.Machine

section
variable {s t u : State} {c d : Ch} {h g : Handle}

/-! ### Steps whose writes to SYS meet no chunk of the channel -/

theorem Follows.refl (hun : s.Unsimulated c) : Follows c s s := ⟨hun, rfl⟩

theorem Follows.trans (hsu : Follows c s u) (hut : Follows c u t) : Follows c s t := ⟨hut.1, hut.2.trans hsu.2⟩

theorem backlog_congr (hcfg : t.cfg = s.cfg) (hchans : t.chans = s.chans) (hsys : t.sys = s.sys) (c : Ch) :
    t.backlog c = s.backlog c := by
  have hch := ch_congr hchans c
  have hbytes : t.chunkBytes c = s.chunkBytes c := funext fun h => by
    rw [State.chunkBytes, State.chunkBytes, hcfg, hch, hsys]
  rw [backlog_eq_lineOf, backlog_eq_lineOf, hcfg, hch, hbytes]

theorem unsimulated_congr (hcfg : t.cfg = s.cfg) (hchans : t.chans = s.chans) (hpending : t.pending = s.pending) (c : Ch) :
    t.Unsimulated c ↔ s.Unsimulated c := by
  rw [State.Unsimulated, State.Unsimulated, hcfg, ch_congr hchans, isPending_congr hpending]

theorem follows_of_same (hun : s.Unsimulated c) (hcfg : t.cfg = s.cfg) (hchans : t.chans = s.chans)
    (hpending : t.pending = s.pending) (hsys : t.sys = s.sys) : Follows c s t :=
  ⟨(unsimulated_congr hcfg hchans hpending c).2 hun, backlog_congr hcfg hchans hsys c⟩

/-- The backlog after a step that moves the channel and neither SYS nor the used lengths. -/
theorem backlog_of_used (hcfg : t.cfg = s.cfg) (hsys : t.sys = s.sys) (hused : (t.ch c).used = (s.ch c).used) :
    t.backlog c = lineOf s.cfg c (s.chunkBytes c) (t.ch c) := by
  have hbytes : t.chunkBytes c = s.chunkBytes c := funext fun h => by
    rw [State.chunkBytes, State.chunkBytes, hcfg, Chan.usedOf, Chan.usedOf, hused, hsys]
  rw [backlog_eq_lineOf, hcfg, hbytes]

/-- A step that leaves the channel, SYS, and the pending bit unless it clears it. -/
theorem follows_of_ch_sys (hun : s.Unsimulated c) (hcfg : t.cfg = s.cfg) (hch : t.ch c = s.ch c)
    (hpend : t.isPending (s.cfg.chan c).irq = true → s.isPending (s.cfg.chan c).irq = true) (hsys : t.sys = s.sys) :
    Follows c s t := by
  refine ⟨fun hp => ?_, ?_⟩
  · rw [hch]
    exact hun (hpend (hcfg ▸ hp))
  · rw [backlog_of_used hcfg hsys (by rw [hch]), hch, backlog_eq_lineOf]

theorem follows_setCh_other (hun : s.Unsimulated c) (hdc : d ≠ c) (x : Chan) : Follows c s (s.setCh d x) :=
  follows_of_ch_sys hun (setCh_cfg ..) (ch_setCh_other _ _ hdc.symm) (by simp) (setCh_sys ..)

theorem follows_setPending (hun : s.Unsimulated c) {i : Nat} {b : Bool} (hi : b = true → i ≠ (s.cfg.chan c).irq) :
    Follows c s (s.setPending i b) := by
  refine follows_of_ch_sys hun rfl (setPending_ch ..) (fun hp => ?_) rfl
  rw [isPending_setPending_eq] at hp
  split_ifs at hp with hirq
  · exact absurd hirq.1.symm (hi hp)
  · exact hp

/-- A step that leaves the channel, the bytes of its loaded chunks, and the pending bit. -/
theorem follows_of_ch (hs : s.Inv) (hun : s.Unsimulated c) (hcfg : t.cfg = s.cfg) (hch : t.ch c = s.ch c)
    (hpend : t.pending = s.pending) (hsame : ∀ h ∈ loaded s.cfg c (s.ch c), SameChunk c h s t) : Follows c s t :=
  follows_of_sameLine hs hun hcfg (hch ▸ .refl ..) (by simp [isPending_congr hpend]) hsame

/-- Filling the programmed range of another channel, whose chunk in flight it is. -/
theorem sameChunk_receiveBytes (hs : s.Inv) (hdc : d ≠ c) (hi : (s.ch d).inflight = some g)
    (hh : h ∈ loaded s.cfg c (s.ch c)) : SameChunk c h s (receiveBytes d s) := by
  have hx : (s.ch d).Live s.cfg d := live_of_inflight (hs.chan d) hi
  obtain ⟨-, haddr, -, hlt, hcap⟩ := transfer_bytes hs.legal hx hi
  have hout := (read_receiveBytes_range (c := d) hs.sys.canonical).2
  rw [haddr] at hout
  exact sameChunk_of_clearOf (clearOf_otherChan hs hdc (hlt.trans_le hx.n_le) hcap) hout hh

theorem follows_receiveBytes (hs : s.Inv) (hun : s.Unsimulated c) (hdc : d ≠ c) (hi : (s.ch d).inflight = some g) :
    Follows c s (receiveBytes d s) :=
  follows_of_ch hs hun rfl (receiveBytes_ch ..) rfl fun _ hh => sameChunk_receiveBytes hs hdc hi hh

theorem follows_partlyReceived (hs : s.Inv) (hun : s.Unsimulated c) (hdc : d ≠ c) : Follows c s (partlyReceived d s) := by
  unfold partlyReceived
  split
  · next hp =>
    obtain ⟨-, g, hg⟩ := inProgress_inflight hs hp
    exact follows_receiveBytes hs hun hdc hg
  · exact .refl hun

/-! ### HOST, SYNC and FSM_c -/

theorem follows_hostTurn (hs : s.Inv) (hun : s.Unsimulated c) (e : hostTurn s = .next t) : Follows c s t := by
  obtain ⟨hchans, hpending, hcfg, -, hsys⟩ := hostTurn_frame e
  refine follows_of_ch hs hun hcfg (ch_congr hchans c) hpending fun h hh => ?_
  obtain hsys | ⟨a, bytes, hsys, hown⟩ := hsys
  · exact sameChunk_of_sys hsys
  · refine sameChunk_of_clearOf (clearOf_hostOwned hs hown) (fun x hx => ?_) hh
    rw [hsys, read_writeRun _ _ _ _ hs.sys.canonical, if_neg (by omega)]

/-- A SYNC step of any channel moves copies of pointers alone. -/
theorem follows_sync (hs : s.Inv) (hun : s.Unsimulated c) {x : Chan} (hx : SameLine s.cfg d (s.ch d) x) :
    Follows c s (s.setCh d x) := by
  by_cases hdc : d = c
  · subst hdc
    exact follows_of_sameLine hs hun (setCh_cfg ..) ((ch_setCh_same s d x).symm ▸ hx) (by simp) fun _ _ =>
      sameChunk_of_sys (setCh_sys ..)
  · exact follows_setCh_other hun hdc x

theorem txKick_disabled {p : Params} {x : Chan} (h : ¬(x.st = .idle ∧ x.q.r ≠ x.q.ws)) : txKick p c x = x := by
  refine if_neg fun hen => h ?_
  simpa [txKickEnabled, Queue.emptyR] using hen

theorem follows_fsmTurn (hs : s.Inv) (ht : c.isTx = true) (hun : s.Unsimulated c) : Follows c s (fsmTurn d s) := by
  by_cases hdc : d = c
  · subst hdc
    rw [fsmTurn, if_pos ht]
    by_cases hen : (s.ch d).st = .idle ∧ (s.ch d).q.r ≠ (s.ch d).q.ws
    · obtain ⟨hidle, hview⟩ := hen
      have hx : (s.ch d).Live s.cfg d := (hs.chan d).live (by simp [hidle])
      have hstopped := (hx.stopped (inflight_none hx (by simp [hidle]))).2
      have hch : (s.setCh d (launch s.cfg d (s.ch d))).ch d = launch s.cfg d (s.ch d) := ch_setCh_same ..
      rw [txKick_eq_launch hidle hview]
      refine ⟨fun hp => ?_, ?_⟩
      · have hactive := (hun (by simpa using hp)).1
        rw [hidle] at hactive
        cases hactive
      · rw [backlog_of_used (setCh_cfg ..) (setCh_sys ..) (by rw [hch]; rfl), hch,
          lineOf_launch hx.queue_ok hview hstopped, backlog_eq_lineOf]
    · rw [txKick_disabled hen, setCh_self]
      exact .refl hun
  · exact follows_setCh_other hun hdc _

/-! ### DISP -/

/-- A handler that is not internal moves no channel, SYS or pending bit (42_dispatch.md R154). -/
theorem runHandler_notInternal {i : Nat} {e : Entry} (h : ¬(e.bound = true ∧ (e.cb = 0#4 ∨ e.cb = 1#4))) :
    (runHandler i e s).cfg = s.cfg ∧ (runHandler i e s).chans = s.chans ∧ (runHandler i e s).pending = s.pending ∧
      (runHandler i e s).sys = s.sys := by
  by_cases hb : e.bound = true
  · obtain ⟨h0, h1⟩ := not_or.1 (not_and.1 h hb)
    rw [runHandler_external s hb h0 h1]
    exact ⟨rfl, rfl, rfl, rfl⟩
  · rw [runHandler_unbound s (Bool.eq_false_iff.2 hb)]
    exact ⟨rfl, rfl, rfl, rfl⟩

/-- The handler of the channel, of a completed transfer whose pending bit is cleared. -/
theorem follows_txComplete (hs : s.Inv) (hclear : s.isPending (s.cfg.chan c).irq = false) (hst : (s.ch c).st = .active)
    (hsent : (s.ch c).per.armed = false) : Follows c s (s.setCh c (txComplete s.cfg c (s.ch c))) := by
  have hx : (s.ch c).Live s.cfg c := (hs.chan c).live (by simp [hst])
  obtain ⟨h, hi⟩ := Option.isSome_iff_exists.1 (hx.inflight_iff.1 hst)
  obtain ⟨-, hused, -⟩ := txComplete_frame (p := s.cfg) (c := c) hst hi
  refine ⟨fun hp => ?_, ?_⟩
  · simp [hclear] at hp
  · rw [backlog_of_used (setCh_cfg ..) (setCh_sys ..) (by rw [ch_setCh_same, hused]), ch_setCh_same,
      lineOf_txComplete hx.queue_ok hst hi hsent, backlog_eq_lineOf]

theorem follows_dispTurn (hs : s.Inv) (ht : c.isTx = true) (hun : s.Unsimulated c) : Follows c s (dispTurn s) := by
  rw [dispTurn_eq]
  split
  · exact .refl hun
  next i hi =>
  have hp : s.isPending i = true := List.find?_some hi
  have hclear := follows_setPending hun (i := i) (b := false) (by simp)
  have hu : (s.setPending i false).Inv := inv_setPending _ _ hs
  refine hclear.trans ?_
  have hun' := hclear.1
  by_cases hint : (s.entry i).bound = true ∧ ((s.entry i).cb = 0#4 ∨ (s.entry i).cb = 1#4)
  · obtain ⟨d, -, rfl, hrun⟩ := runHandler_channel hs hint.1 hint.2 false
    rw [hrun]
    by_cases hdc : d = c
    · subst hdc
      obtain ⟨hst, hsent⟩ := hun hp
      have hbit := isPending_setPending s _ (s.cfg.chan d).irq false (lt_pending_length hp)
      rw [if_neg (by simp [tx_not_rx ht]), if_neg (by simp [tx_not_rx ht])]
      have hfollow := follows_txComplete (c := d) hu (hbit.trans (if_pos rfl)) (by simpa using hst) (by simpa using hsent)
      simpa using hfollow
    · split
      · have hcut := follows_partlyReceived hu hun' hdc
        exact hcut.trans (follows_setCh_other hcut.1 hdc _)
      · exact follows_setCh_other hun' hdc _
  · obtain ⟨hcfg, hchans, hpending, hsys⟩ := runHandler_notInternal (i := i) (s := s.setPending i false) hint
    exact follows_of_same hun' hcfg hchans hpending hsys

/-! ### PERIPH_c and EXTIRQ -/

theorem irq_ne (hp : s.cfg.Legal) (hdc : d ≠ c) : (s.cfg.chan d).irq ≠ (s.cfg.chan c).irq := by
  obtain ⟨-, -, -, -, -, -, -, -, hirq, -⟩ := hp
  exact hirq d (Ch.mem_all d) c (Ch.mem_all c) hdc

theorem follows_periphTurn (hs : s.Inv) (ht : c.isTx = true) (hun : s.Unsimulated c) (e : periphTurn d s = .next t) :
    Follows c s t := by
  have hready : ((s.ch d).per.en && (s.ch d).per.armed) = true := by
    by_contra hnot
    rw [periphTurn, if_pos (by rw [Bool.eq_false_iff.2 hnot, Bool.not_false])] at e
    cases e
  obtain ⟨hen, harmed⟩ := Bool.and_eq_true_iff.1 hready
  obtain ⟨g, hi⟩ := exists_inflight_of_en (hs.chan d) hen
  have hx : (s.ch d).Live s.cfg d := live_of_inflight (hs.chan d) hi
  by_cases hdc : d = c
  · subst hdc
    rw [periphTurn_tx hs.legal hx ht harmed hi] at e
    cases e
    refine ⟨fun _ => ?_, ?_⟩
    · simp [sentChan, hx.inflight_iff, hi]
    · rw [backlog_of_used (s := s) (by simp) (by simp) (by rw [setPending_ch, ch_setCh_same]; rfl), setPending_ch, ch_setCh_same,
        lineOf_sentChan harmed hi, backlog_eq_lineOf]
  · by_cases htd : d.isTx = true
    · rw [periphTurn_tx hs.legal hx htd harmed hi] at e
      cases e
      have hsent := follows_setCh_other hun hdc (sentChan (s.ch d) (s.chunkBytes d g))
      exact hsent.trans (follows_setPending hsent.1 fun _ => by simpa using irq_ne hs.legal hdc)
    · have hr : d.isRx = true := by simpa [Ch.isRx] using htd
      rw [(periphTurn_rx hs hr hen harmed).2, rxTransfer_eq] at e
      cases e
      have hfill := follows_receiveBytes hs hun hdc hi
      have hdone := hfill.trans (follows_setCh_other hfill.1 hdc (disarmed (s.ch d)))
      exact hdone.trans (follows_setPending hdone.1 fun _ => by simpa using irq_ne hs.legal hdc)

theorem follows_extIrqTurn (hun : s.Unsimulated c) {i : Nat} (hi : i ≠ (s.cfg.chan c).irq) (e : extIrqTurn i s = .next t) :
    Follows c s t := by
  simp only [extIrqTurn, simulate] at e
  split_ifs at e
  cases e
  exact follows_setPending hun fun _ => hi

/-! ### The commands -/

theorem ne_of_rx_of_tx (hr : d.isRx = true) (ht : c.isTx = true) : d ≠ c := by
  rintro rfl
  exact rx_not_tx hr ht

/-- A channel leaves reset with an empty backlog (R200). -/
theorem follows_initTx (hs : s.Inv) (ht : c.isTx = true) (hun : s.Unsimulated c) (hst : (s.ch c).st = .uninit)
    (count : Byte) : Follows c s (s.setCh c (initTx s.cfg c count (s.ch c))) := by
  have hreset := (hs.chan c).uninit hst
  refine ⟨fun hp => ?_, ?_⟩
  · have hactive := (hun (by simpa using hp)).1
    rw [hst] at hactive
    cases hactive
  · rw [backlog_eq_lineOf, backlog_eq_lineOf, ch_setCh_same, hreset, initTx_reset ht, setCh_cfg, lineOf_initChan,
      lineOf_reset]

/-- A command that copies: it writes bytes that meet no loaded chunk, and another channel. -/
theorem follows_copy (hs : s.Inv) (hun : s.Unsimulated c) (hdc : d ≠ c) (x : Chan) {a n src : Nat} {k : Code} {r : Word}
    (hclear : ClearOf s c a n) :
    Follows c s { s.setCh d x with sys := s.copyHost a src n, code := k, result := r } :=
  follows_of_ch hs hun (setCh_cfg ..) ((ch_update_sys ..).trans (if_neg hdc.symm)) (setCh_pending ..) fun _ hh =>
    sameChunk_of_clearOf hclear (fun _ hx => read_copyHost_outside s _ _ _ _ hs.sys.canonical hx) hh

theorem follows_exec {i : Instr} (hs : s.Inv) (ht : c.isTx = true) (hun : s.Unsimulated c) (e : exec i s = .next t)
    (hreset : i ≠ .blkReset) (htrig : ∀ irq : BitVec 4, i = .dispSwtrig irq → irq.toNat ≠ (s.cfg.chan c).irq)
    (hput : i = .txPut c → t.code ≠ .ok) : Follows c s t := by
  have other : ∀ {d : Ch} (x : Chan) {k : Code} {r : Word}, d.isRx = true →
      Follows c s { s.setCh d x with code := k, result := r } := fun x _ _ hr =>
    have hset := follows_setCh_other hun (ne_of_rx_of_tx hr ht) x
    hset.trans (follows_of_same hset.1 rfl rfl rfl rfl)
  obtain ⟨_, _, rfl, -⟩ | ⟨hi, -⟩ | ⟨_, _, _, -, rfl⟩ | ⟨irq, hi, rfl⟩ | ⟨d, count, -, ⟨hst, -⟩, hd, rfl⟩ |
    ⟨d, count, -, -, hr, rfl⟩ | ⟨d, -, hr, -, _, _, _, -, rfl⟩ | ⟨d, -, ⟨hr, -, -, -, -, -, hown⟩, _, rfl⟩ |
    ⟨d, -, ⟨hr, -⟩, _, rfl⟩ | ⟨d, _, -, ⟨hr, -⟩, rfl⟩ | ⟨d, hi, ⟨_, hst, _, hcap, _⟩, g, x, _, hacq, rfl⟩ := exec_cases e
  · exact follows_of_same hun rfl rfl rfl rfl
  · exact absurd hi hreset
  · exact follows_of_same hun rfl rfl rfl rfl
  · have hset := follows_setPending hun (b := true) fun _ => htrig irq hi
    exact hset.trans (follows_of_same hset.1 rfl rfl rfl rfl)
  · have hinit : Follows c s (s.setCh d (initTx s.cfg d count (s.ch d))) := by
      by_cases hdc : d = c
      · subst hdc
        exact follows_initTx hs ht hun hst count
      · exact follows_setCh_other hun hdc _
    exact hinit.trans (follows_of_same hinit.1 rfl rfl rfl rfl)
  · have hinit := follows_setCh_other hun (ne_of_rx_of_tx hr ht) (initRx s.cfg d count (s.ch d))
    exact hinit.trans (follows_of_same hinit.1 rfl rfl rfl rfl)
  · exact other _ hr
  · exact follows_copy hs hun (ne_of_rx_of_tx hr ht) _ (clearOf_hostOwned hs hown)
  · exact other _ hr
  · exact other _ hr
  · have hdc : d ≠ c := fun hdc => hput (hdc ▸ hi) rfl
    have hx := (hs.chan d).live hst
    exact follows_copy hs hun hdc _ (clearOf_otherChan hs hdc ((acquire_lt hs.legal hx hacq).trans_le hx.n_le) hcap)

/-! ### TX_PUT -/

/-- A free chunk is neither in flight nor queued (10_state.md R51). -/
theorem not_mem_loaded_of_mem_free {p : Params} {x : Chan} (hp : p.Legal) (hx : x.Live p c)
    (hfree : h ∈ x.f.contents (p.chan c).p) : h ∉ loaded p c x := fun hh => by
  have hnodup : (x.places p c).Nodup := placed_nodup hp (placed_of_live hx)
  refine List.disjoint_of_nodup_append hnodup hfree ?_
  have hmem := List.mem_append.1 hh
  simp only [List.mem_append]
  tauto

/-- A successful TX_PUT appends a payload. -/
theorem exec_txPut_appends (hs : s.Inv) (hun : s.Unsimulated c) (hready : TxPutReady c s) :
    ∃ t, exec (.txPut c) s = .next t ∧ t.Unsimulated c ∧ ∃ put, s.Payload put ∧ t.backlog c = s.backlog c ++ [put] := by
  obtain ⟨-, -, -, -, hput⟩ := txPutEnqueuesCopy s c _ hs hready.1 rfl
  obtain ⟨t, hexec, -, -, hread, hout, hqueue, -, -, -, hfree, -, -, -, hused, hkeep, hst, hi, -, -, hper, htx, -,
    ⟨hpending, -⟩, hcfg, -⟩ := hput hready
  generalize s.nextFree c = h at *
  have hx : (s.ch c).Live s.cfg c := (hs.chan c).live hready.2.1
  have hmem : h ∈ (s.ch c).f.contents (s.cfg.chan c).p := by simp [hfree]
  have hnot := not_mem_loaded_of_mem_free hs.legal hx hmem
  have hlt : h.toNat < (s.ch c).n.toNat := placed_lt hs.legal (placed_of_live hx)
    (List.mem_append_right [] (List.mem_append_left _ hmem))
  have hclear := clearOf_unloaded hs (hlt.trans_le hx.n_le) hnot hready.2.2.2.1
  have hbytes : lineOf s.cfg c (t.chunkBytes c) (s.ch c) = s.backlog c := lineOf_congr fun g hg =>
    chunkBytes_congr hs hcfg hg (hkeep g fun e => hnot (e ▸ hg)) (sameChunk_of_clearOf hclear hout hg)
  refine ⟨t, hexec, ?_, _, payload_chunkBytes hcfg hused hread, ?_⟩
  · rw [State.Unsimulated, isPending_congr hpending, hcfg, hst, hper]
    exact hun
  · rw [← hbytes, backlog_eq_lineOf, hcfg, lineOf, lineOf, htx, hper, hi, hqueue, List.map_append, ← List.append_assoc]
    rfl

end

/-! ### The step -/

section
variable {s t : State} {c : Ch}

theorem txPutReady_of_ok (e : exec (.txPut c) s = .next t) (hok : t.code = .ok) : TxPutReady c s := by
  obtain ⟨k, r, rfl, hk⟩ | h := exec_cases e
  · exact absurd hok (hk c rfl)
  · simp only [reduceCtorEq, false_and, exists_false, false_or] at h
    obtain ⟨d, hd, hready, -⟩ := h
    cases hd
    exact hready

/-- Taking the turn off the schedule is no step of the channel. -/
theorem follows_advance (hun : s.Unsimulated c) : Follows c s s.advance := follows_of_same hun rfl rfl rfl rfl

theorem step_txPut_appends (hs : s.Inv) (hun : s.Unsimulated c) (hexec : s.Executes (.txPut c)) (e : step s = .next t)
    (hok : t.code = .ok) : t.Unsimulated c ∧ ∃ put, s.Payload put ∧ t.backlog c = s.backlog c ++ [put] := by
  obtain ⟨hun', hadvance⟩ := follows_advance hun
  obtain ⟨hturn, hbusy, hdec⟩ := hexec
  have hact : takeTurn .cmdeng s.advance = .next t := hturn ▸ e
  obtain ⟨-, hidle⟩ | ⟨_, -, herror, -⟩ | ⟨i, u, -, hdec', hu, rfl⟩ := cmdengTurn_cases hact
  · exact absurd (hidle.symm.trans hbusy) (by decide)
  · exact absurd (herror.symm.trans hdec) (by simp)
  · cases hdec'.symm.trans hdec
    obtain ⟨v, hv, hunv, put, hpay, hput⟩ := exec_txPut_appends (inv_advance hs) hun' (txPutReady_of_ok hu hok)
    cases hu.symm.trans hv
    obtain ⟨hunt, hbacklog⟩ := follows_of_same (t := { u with busy := false }) hunv rfl rfl rfl rfl
    exact ⟨hunt, put, hpay, by rw [hbacklog, hput, hadvance]⟩

/-- Every turn but a TX_PUT on the channel, of a state that has no disturbance. -/
theorem step_follows (hs : s.Inv) (ht : c.isTx = true) (hun : s.Unsimulated c) (hdist : ¬s.Disturbs (s.cfg.chan c).irq)
    (e : step s = .next t) (hput : ¬(s.Executes (.txPut c) ∧ t.code = .ok)) : Follows c s t := by
  obtain ⟨u, hturn⟩ : ∃ u, s.turn = u := ⟨_, rfl⟩
  have hact : takeTurn u s.advance = .next t := hturn ▸ e
  have hs' := inv_advance hs
  have hadvance := follows_advance hun
  refine hadvance.trans ?_
  have hun' := hadvance.1
  obtain ⟨htrig, hpulse, hblk, hrst⟩ : (∀ irq : BitVec 4, s.Executes (.dispSwtrig irq) → irq.toNat ≠ (s.cfg.chan c).irq) ∧
      s.turn ≠ .extIrq (s.cfg.chan c).irq ∧ ¬s.Executes .blkReset ∧ s.turn ≠ .rstN := by
    simpa only [State.Disturbs, not_or, not_exists, not_and] using hdist
  cases u with
  | host => exact follows_hostTurn hs' hun' hact
  | cmdeng =>
    obtain ⟨rfl, -⟩ | ⟨-, -, -, rfl⟩ | ⟨i, v, hbusy, hdec, hexec, rfl⟩ := cmdengTurn_cases hact
    · exact .refl hun'
    · exact follows_of_same hun' rfl rfl rfl rfl
    · have hi : s.Executes i := ⟨hturn, hbusy, hdec⟩
      have hrun := follows_exec hs' ht hun' hexec (fun h => hblk (h ▸ hi)) (fun irq h => htrig irq (h ▸ hi))
        fun h hok => hput ⟨h ▸ hi, hok⟩
      exact hrun.trans (follows_of_same hrun.1 rfl rfl rfl rfl)
  | syncQueueW2R d => cases hact; exact follows_sync hs' hun' ⟨rfl, rfl, rfl, rfl, rfl, rfl⟩
  | syncQueueR2W d => cases hact; exact follows_sync hs' hun' ⟨rfl, rfl, rfl, rfl, rfl, rfl⟩
  | syncFreeW2R d => cases hact; exact follows_sync hs' hun' ⟨rfl, rfl, rfl, rfl, rfl, rfl⟩
  | disp => cases hact; exact follows_dispTurn hs' ht hun'
  | fsm d => cases hact; exact follows_fsmTurn hs' ht hun'
  | periph d => exact follows_periphTurn hs' ht hun' hact
  | extIrq i => exact follows_extIrqTurn hun' (fun hi => hpulse (hi ▸ hturn)) hact
  | rstN => exact absurd hturn hrst

end

/-- Settles O52: each agent but CMDENG executing a TX_PUT on the channel moves payloads along it or leaves them. -/
theorem transmitOrder : Obligations.TransmitOrder := by
  intro s t c hs ht hun hdist e
  by_cases hput : s.Executes (.txPut c) ∧ t.code = .ok
  · obtain ⟨hexec, hok⟩ := hput
    obtain ⟨hunt, hpayload⟩ := step_txPut_appends hs hun hexec e hok
    exact ⟨hunt, fun _ _ => hpayload, fun h => absurd hexec (h.resolve_right (not_not.2 hok))⟩
  · obtain ⟨hunt, hsame⟩ := step_follows hs ht hun hdist e hput
    exact ⟨hunt, fun hexec hok => absurd ⟨hexec, hok⟩ hput, fun _ => hsame⟩

end Sys2Proof.Machine
end
